-- ==== Sys2Proof/Word.lean ====
section
/-! DEFINITION. The word types of the CORE and the names of its fixed small sets: the register width XLEN (rule R6),
the byte, the register and CSR numbers (rules R40, R111) and the privilege levels (rule R37). -/

namespace Sys2Proof

/-- The register width, an OPEN parameter of the hardware with two values (rule R6). -/
inductive Xlen where
  | rv32
  | rv64
deriving DecidableEq, Repr

/-- XLEN as a number of bits (rule R6). -/
abbrev Xlen.bits : Xlen → Nat
  | .rv32 => 32
  | .rv64 => 64

/-- The number of bits of a register that a shift reads as its amount (rule R162). -/
abbrev Xlen.shiftBits : Xlen → Nat
  | .rv32 => 5
  | .rv64 => 6

/-- One byte of memory (rule R49). -/
abbrev Byte := BitVec 8

/-- A value of XLEN bits: a general register, the pc, a CSR cell, an address (rules R6, R11). -/
abbrev Word (xl : Xlen) := BitVec xl.bits

/-- An instruction word (rule R110). -/
abbrev InstrWord := BitVec 32

/-- A 5-bit register field, and so a register number (rule R111). -/
abbrev Reg := BitVec 5

/-- A 12-bit CSR address (rules R40, R111). -/
abbrev CsrAddr := BitVec 12

/-- The privilege levels (rule R37). The value 0b10 is none of them. -/
inductive Priv where
  | user
  | supervisor
  | machine
deriving DecidableEq, Repr

/-- The 2-bit ordinal of a privilege level: U = 0, S = 1, M = 3 (rule R37). -/
def Priv.bits : Priv → BitVec 2
  | .user => 0b00#2
  | .supervisor => 0b01#2
  | .machine => 0b11#2

end Sys2Proof
end

