-- ==== Sys2Proof/Config.lean ====
section
/-! DEFINITION. The parameters the spec leaves OPEN (rules R6 to R8, R54; decisions D15, D24, D30, D31) at the values
that `State.reset` takes. Every state carries its own parameters (`Machine.Params`), so these values bind the reset
state alone: the meanings, the step and every claim are for all values. The one parameter that is a function, the host's
WATCH_CALLBACK, is the opaque constant `Config.watchCallback` of Machine/State.lean (it reads a state). -/

namespace Sys2Proof.Config

/-- XLEN of the reset state. DESIGN CHOICE, unsafe (log entry 1): the spec leaves XLEN in {32, 64} OPEN (D30). -/
abbrev xlen : Xlen := .rv64

/-- BASE of the reset state. DESIGN CHOICE, unsafe (log entry 2): the loader supplies it (rule R7). -/
def base : Word xlen := 0

/-- ENTRY, the pc of the reset state. DESIGN CHOICE, unsafe (log entry 2): the loader supplies it (rule R8). -/
def entry : Word xlen := 0

/-- MEM_CAPACITY of the reset state: every address of the address space is backed. DESIGN CHOICE, unsafe (log entry 3):
the spec leaves it OPEN (D24). -/
def memCapacity : Nat := 2 ^ 64

/-- What a byte or a CSR cell that nothing has written reads as (rules R49 and R40, decision D14). -/
abbrev unwritten {w : Nat} : BitVec w := 0

end Sys2Proof.Config
end

