-- ==== Sys2Proof/Syntax.lean ====
section
/-! DEFINITION. The instructions: one constructor per row of spec/opcode_table.json, with the operands the row's format
gives it (rules R111 to R124, R144), their mnemonics and their formats (rule R140).

Immediates are the decoded fields at their own width, before the extension to XLEN: a branch offset is the 13-bit value and
a JAL offset the 21-bit value of rules R121 and R123, whose bit 0 is 0 (checked by `WellFormed`). -/

namespace Sys2Proof

/-- The six bit layouts of an instruction word (rules R112 to R117). -/
inductive Format where
  | r | i | s | b | u | j
deriving DecidableEq, Repr

/-- The instructions of the CORE, in the order of spec/opcode_table.json; operands in assembler order (rule R144). -/
inductive Instr where
  | lui (rd : Reg) (imm : BitVec 20)
  | auipc (rd : Reg) (imm : BitVec 20)
  | jal (rd : Reg) (offset : BitVec 21)
  | jalr (rd rs1 : Reg) (imm : BitVec 12)
  | beq (rs1 rs2 : Reg) (offset : BitVec 13)
  | bne (rs1 rs2 : Reg) (offset : BitVec 13)
  | blt (rs1 rs2 : Reg) (offset : BitVec 13)
  | bge (rs1 rs2 : Reg) (offset : BitVec 13)
  | bltu (rs1 rs2 : Reg) (offset : BitVec 13)
  | bgeu (rs1 rs2 : Reg) (offset : BitVec 13)
  | lb (rd rs1 : Reg) (imm : BitVec 12)
  | lh (rd rs1 : Reg) (imm : BitVec 12)
  | lw (rd rs1 : Reg) (imm : BitVec 12)
  | ld (rd rs1 : Reg) (imm : BitVec 12)
  | lbu (rd rs1 : Reg) (imm : BitVec 12)
  | lhu (rd rs1 : Reg) (imm : BitVec 12)
  | lwu (rd rs1 : Reg) (imm : BitVec 12)
  | sb (rs2 rs1 : Reg) (imm : BitVec 12)
  | sh (rs2 rs1 : Reg) (imm : BitVec 12)
  | sw (rs2 rs1 : Reg) (imm : BitVec 12)
  | sd (rs2 rs1 : Reg) (imm : BitVec 12)
  | addi (rd rs1 : Reg) (imm : BitVec 12)
  | slti (rd rs1 : Reg) (imm : BitVec 12)
  | sltiu (rd rs1 : Reg) (imm : BitVec 12)
  | xori (rd rs1 : Reg) (imm : BitVec 12)
  | ori (rd rs1 : Reg) (imm : BitVec 12)
  | andi (rd rs1 : Reg) (imm : BitVec 12)
  | slli (rd rs1 : Reg) (shamt : BitVec 6)
  | srli (rd rs1 : Reg) (shamt : BitVec 6)
  | srai (rd rs1 : Reg) (shamt : BitVec 6)
  | add (rd rs1 rs2 : Reg)
  | sub (rd rs1 rs2 : Reg)
  | sll (rd rs1 rs2 : Reg)
  | slt (rd rs1 rs2 : Reg)
  | sltu (rd rs1 rs2 : Reg)
  | xor (rd rs1 rs2 : Reg)
  | srl (rd rs1 rs2 : Reg)
  | sra (rd rs1 rs2 : Reg)
  | or (rd rs1 rs2 : Reg)
  | and (rd rs1 rs2 : Reg)
  | addiw (rd rs1 : Reg) (imm : BitVec 12)
  | slliw (rd rs1 : Reg) (shamt : BitVec 5)
  | srliw (rd rs1 : Reg) (shamt : BitVec 5)
  | sraiw (rd rs1 : Reg) (shamt : BitVec 5)
  | addw (rd rs1 rs2 : Reg)
  | subw (rd rs1 rs2 : Reg)
  | sllw (rd rs1 rs2 : Reg)
  | srlw (rd rs1 rs2 : Reg)
  | sraw (rd rs1 rs2 : Reg)
  | fence (fm pred succ : BitVec 4)
  | fenceI
  | csrrw (rd : Reg) (csr : CsrAddr) (rs1 : Reg)
  | csrrs (rd : Reg) (csr : CsrAddr) (rs1 : Reg)
  | csrrc (rd : Reg) (csr : CsrAddr) (rs1 : Reg)
  | csrrwi (rd : Reg) (csr : CsrAddr) (zimm : BitVec 5)
  | csrrsi (rd : Reg) (csr : CsrAddr) (zimm : BitVec 5)
  | csrrci (rd : Reg) (csr : CsrAddr) (zimm : BitVec 5)
  | ecall
  | ebreak
  | sret
  | mret
deriving DecidableEq, Repr

/-- The row of spec/opcode_table.json an instruction stands for. -/
def Instr.mnemonic : Instr → String
  | .lui _ _ => "LUI"
  | .auipc _ _ => "AUIPC"
  | .jal _ _ => "JAL"
  | .jalr _ _ _ => "JALR"
  | .beq _ _ _ => "BEQ"
  | .bne _ _ _ => "BNE"
  | .blt _ _ _ => "BLT"
  | .bge _ _ _ => "BGE"
  | .bltu _ _ _ => "BLTU"
  | .bgeu _ _ _ => "BGEU"
  | .lb _ _ _ => "LB"
  | .lh _ _ _ => "LH"
  | .lw _ _ _ => "LW"
  | .ld _ _ _ => "LD"
  | .lbu _ _ _ => "LBU"
  | .lhu _ _ _ => "LHU"
  | .lwu _ _ _ => "LWU"
  | .sb _ _ _ => "SB"
  | .sh _ _ _ => "SH"
  | .sw _ _ _ => "SW"
  | .sd _ _ _ => "SD"
  | .addi _ _ _ => "ADDI"
  | .slti _ _ _ => "SLTI"
  | .sltiu _ _ _ => "SLTIU"
  | .xori _ _ _ => "XORI"
  | .ori _ _ _ => "ORI"
  | .andi _ _ _ => "ANDI"
  | .slli _ _ _ => "SLLI"
  | .srli _ _ _ => "SRLI"
  | .srai _ _ _ => "SRAI"
  | .add _ _ _ => "ADD"
  | .sub _ _ _ => "SUB"
  | .sll _ _ _ => "SLL"
  | .slt _ _ _ => "SLT"
  | .sltu _ _ _ => "SLTU"
  | .xor _ _ _ => "XOR"
  | .srl _ _ _ => "SRL"
  | .sra _ _ _ => "SRA"
  | .or _ _ _ => "OR"
  | .and _ _ _ => "AND"
  | .addiw _ _ _ => "ADDIW"
  | .slliw _ _ _ => "SLLIW"
  | .srliw _ _ _ => "SRLIW"
  | .sraiw _ _ _ => "SRAIW"
  | .addw _ _ _ => "ADDW"
  | .subw _ _ _ => "SUBW"
  | .sllw _ _ _ => "SLLW"
  | .srlw _ _ _ => "SRLW"
  | .sraw _ _ _ => "SRAW"
  | .fence _ _ _ => "FENCE"
  | .fenceI => "FENCE.I"
  | .csrrw _ _ _ => "CSRRW"
  | .csrrs _ _ _ => "CSRRS"
  | .csrrc _ _ _ => "CSRRC"
  | .csrrwi _ _ _ => "CSRRWI"
  | .csrrsi _ _ _ => "CSRRSI"
  | .csrrci _ _ _ => "CSRRCI"
  | .ecall => "ECALL"
  | .ebreak => "EBREAK"
  | .sret => "SRET"
  | .mret => "MRET"

/-- The format of an instruction (rule R140). -/
def Instr.format : Instr → Format
  | .lui _ _ => .u
  | .auipc _ _ => .u
  | .jal _ _ => .j
  | .jalr _ _ _ => .i
  | .beq _ _ _ => .b
  | .bne _ _ _ => .b
  | .blt _ _ _ => .b
  | .bge _ _ _ => .b
  | .bltu _ _ _ => .b
  | .bgeu _ _ _ => .b
  | .lb _ _ _ => .i
  | .lh _ _ _ => .i
  | .lw _ _ _ => .i
  | .ld _ _ _ => .i
  | .lbu _ _ _ => .i
  | .lhu _ _ _ => .i
  | .lwu _ _ _ => .i
  | .sb _ _ _ => .s
  | .sh _ _ _ => .s
  | .sw _ _ _ => .s
  | .sd _ _ _ => .s
  | .addi _ _ _ => .i
  | .slti _ _ _ => .i
  | .sltiu _ _ _ => .i
  | .xori _ _ _ => .i
  | .ori _ _ _ => .i
  | .andi _ _ _ => .i
  | .slli _ _ _ => .i
  | .srli _ _ _ => .i
  | .srai _ _ _ => .i
  | .add _ _ _ => .r
  | .sub _ _ _ => .r
  | .sll _ _ _ => .r
  | .slt _ _ _ => .r
  | .sltu _ _ _ => .r
  | .xor _ _ _ => .r
  | .srl _ _ _ => .r
  | .sra _ _ _ => .r
  | .or _ _ _ => .r
  | .and _ _ _ => .r
  | .addiw _ _ _ => .i
  | .slliw _ _ _ => .i
  | .srliw _ _ _ => .i
  | .sraiw _ _ _ => .i
  | .addw _ _ _ => .r
  | .subw _ _ _ => .r
  | .sllw _ _ _ => .r
  | .srlw _ _ _ => .r
  | .sraw _ _ _ => .r
  | .fence _ _ _ => .i
  | .fenceI => .i
  | .csrrw _ _ _ => .i
  | .csrrs _ _ _ => .i
  | .csrrc _ _ _ => .i
  | .csrrwi _ _ _ => .i
  | .csrrsi _ _ _ => .i
  | .csrrci _ _ _ => .i
  | .ecall => .i
  | .ebreak => .i
  | .sret => .i
  | .mret => .i

end Sys2Proof
end

