-- ==== Sys2Proof/WellFormed.lean ====
section
/-! DEFINITION. Which instructions exist at a register width: the checks that the types of Syntax.lean leave to say. -/

namespace Sys2Proof

/-- The instructions that exist only when XLEN = 64 (rule R139; a shift-immediate by 32 or more apart, see `shamtFits`). -/
def Instr.needsRv64 : Instr → Bool
  | .ld _ _ _ | .lwu _ _ _ | .sd _ _ _ => true
  | .addiw _ _ _ | .slliw _ _ _ | .srliw _ _ _ | .sraiw _ _ _ => true
  | .addw _ _ _ | .subw _ _ _ | .sllw _ _ _ | .srlw _ _ _ | .sraw _ _ _ => true
  | .lui _ _ | .auipc _ _ | .jal _ _ | .jalr _ _ _ => false
  | .beq _ _ _ | .bne _ _ _ | .blt _ _ _ | .bge _ _ _ | .bltu _ _ _ | .bgeu _ _ _ => false
  | .lb _ _ _ | .lh _ _ _ | .lw _ _ _ | .lbu _ _ _ | .lhu _ _ _ => false
  | .sb _ _ _ | .sh _ _ _ | .sw _ _ _ => false
  | .addi _ _ _ | .slti _ _ _ | .sltiu _ _ _ | .xori _ _ _ | .ori _ _ _ | .andi _ _ _ => false
  | .slli _ _ _ | .srli _ _ _ | .srai _ _ _ => false
  | .add _ _ _ | .sub _ _ _ | .sll _ _ _ | .slt _ _ _ | .sltu _ _ _ => false
  | .xor _ _ _ | .srl _ _ _ | .sra _ _ _ | .or _ _ _ | .and _ _ _ => false
  | .fence _ _ _ | .fenceI => false
  | .csrrw _ _ _ | .csrrs _ _ _ | .csrrc _ _ _ | .csrrwi _ _ _ | .csrrsi _ _ _ | .csrrci _ _ _ => false
  | .ecall | .ebreak | .sret | .mret => false

/-- A shift amount is below XLEN: at XLEN = 32 a shift-immediate with w[25] = 1 is none (rules R124, R130, R139). -/
def shamtFits (xl : Xlen) (shamt : BitVec 6) : Bool :=
  shamt.toNat < xl.bits

/-- Bit 0 of a branch or JAL offset is not encoded and is 0 (rules R115, R117). -/
def evenOffset {w : Nat} (offset : BitVec w) : Bool :=
  !offset.getLsbD 0

/-- The operands of an instruction are ones its encoding can hold at width `xl`. -/
def Instr.operandsFit (xl : Xlen) : Instr → Bool
  | .jal _ offset => evenOffset offset
  | .beq _ _ offset | .bne _ _ offset | .blt _ _ offset => evenOffset offset
  | .bge _ _ offset | .bltu _ _ offset | .bgeu _ _ offset => evenOffset offset
  | .slli _ _ shamt | .srli _ _ shamt | .srai _ _ shamt => shamtFits xl shamt
  | .lui _ _ | .auipc _ _ | .jalr _ _ _ => true
  | .lb _ _ _ | .lh _ _ _ | .lw _ _ _ | .ld _ _ _ | .lbu _ _ _ | .lhu _ _ _ | .lwu _ _ _ => true
  | .sb _ _ _ | .sh _ _ _ | .sw _ _ _ | .sd _ _ _ => true
  | .addi _ _ _ | .slti _ _ _ | .sltiu _ _ _ | .xori _ _ _ | .ori _ _ _ | .andi _ _ _ => true
  | .add _ _ _ | .sub _ _ _ | .sll _ _ _ | .slt _ _ _ | .sltu _ _ _ => true
  | .xor _ _ _ | .srl _ _ _ | .sra _ _ _ | .or _ _ _ | .and _ _ _ => true
  | .addiw _ _ _ | .slliw _ _ _ | .srliw _ _ _ | .sraiw _ _ _ => true
  | .addw _ _ _ | .subw _ _ _ | .sllw _ _ _ | .srlw _ _ _ | .sraw _ _ _ => true
  | .fence _ _ _ | .fenceI => true
  | .csrrw _ _ _ | .csrrs _ _ _ | .csrrc _ _ _ | .csrrwi _ _ _ | .csrrsi _ _ _ | .csrrci _ _ _ => true
  | .ecall | .ebreak | .sret | .mret => true

/-- The instruction exists at width `xl` and its operands fit its encoding. -/
def WellFormed (xl : Xlen) (i : Instr) : Bool :=
  (!i.needsRv64 || xl == .rv64) && i.operandsFit xl

end Sys2Proof
end

