-- ==== Sys2Proof/Decode.lean ====
section
/-! DEFINITION. The decoder (30_encoding.md) and, after it, an encoder written from the same format tables; the opcode
table itself; and the bit-field and byte-order helpers both use. -/

namespace Sys2Proof

/-! ### Fields of an instruction word (rule R111) -/

/-- `w[6:0]`. -/
def fieldOpcode (w : InstrWord) : BitVec 7 := w.extractLsb' 0 7
/-- `w[11:7]`. -/
def fieldRd (w : InstrWord) : Reg := w.extractLsb' 7 5
/-- `w[14:12]`. -/
def fieldFunct3 (w : InstrWord) : BitVec 3 := w.extractLsb' 12 3
/-- `w[19:15]`; also `zimm`. -/
def fieldRs1 (w : InstrWord) : Reg := w.extractLsb' 15 5
/-- `w[24:20]`; also the 5-bit shift amount. -/
def fieldRs2 (w : InstrWord) : Reg := w.extractLsb' 20 5
/-- `w[31:25]`. -/
def fieldFunct7 (w : InstrWord) : BitVec 7 := w.extractLsb' 25 7
/-- `w[31:26]`, the function field of an RV64 shift-immediate (rule R113). -/
def fieldFunct6 (w : InstrWord) : BitVec 6 := w.extractLsb' 26 6
/-- `w[25:20]`, the 6-bit shift amount (rule R124). -/
def fieldShamt (w : InstrWord) : BitVec 6 := w.extractLsb' 20 6
/-- `w[31:20]`, the 12 bits of imm_I before extension (rule R119). -/
def fieldImmI (w : InstrWord) : BitVec 12 := w.extractLsb' 20 12
/-- `w[31:20]`, the CSR address (rules R111, R113). -/
def fieldCsr (w : InstrWord) : CsrAddr := w.extractLsb' 20 12
/-- `w[31:25] ++ w[11:7]`, the 12 bits of imm_S before extension (rule R120). -/
def fieldImmS (w : InstrWord) : BitVec 12 := w.extractLsb' 25 7 ++ w.extractLsb' 7 5
/-- `w[31] ++ w[7] ++ w[30:25] ++ w[11:8] ++ 0`, the 13 bits of imm_B before extension (rule R121). -/
def fieldImmB (w : InstrWord) : BitVec 13 :=
  w.extractLsb' 31 1 ++ w.extractLsb' 7 1 ++ w.extractLsb' 25 6 ++ w.extractLsb' 8 4 ++ 0#1
/-- `w[31:12]`, the upper 20 bits of imm_U (rule R122). -/
def fieldImmU (w : InstrWord) : BitVec 20 := w.extractLsb' 12 20
/-- `w[31] ++ w[19:12] ++ w[20] ++ w[30:21] ++ 0`, the 21 bits of imm_J before extension (rule R123). -/
def fieldImmJ (w : InstrWord) : BitVec 21 :=
  w.extractLsb' 31 1 ++ w.extractLsb' 12 8 ++ w.extractLsb' 20 1 ++ w.extractLsb' 21 10 ++ 0#1

/-! ### The decoder -/

/-- Why the decoder gives no instruction. -/
inductive DecodeError where
  /-- The verdict UNSUPPORTED on the word `w` (rules R125 to R139, R142). -/
  | unsupported (w : InstrWord)
  /-- Fewer than four bytes were given; no fetch of the machine gives fewer (rule R110). -/
  | truncated (bytes : Nat)
deriving DecidableEq, Repr

/-- LOAD, by funct3 (rules R128, R139). -/
def decodeLoad (xl : Xlen) (w : InstrWord) : Option Instr :=
  let f3 := fieldFunct3 w
  let rd := fieldRd w
  let rs1 := fieldRs1 w
  let imm := fieldImmI w
  if f3 = 0b000#3 then some (.lb rd rs1 imm)
  else if f3 = 0b001#3 then some (.lh rd rs1 imm)
  else if f3 = 0b010#3 then some (.lw rd rs1 imm)
  else if f3 = 0b011#3 ∧ xl = .rv64 then some (.ld rd rs1 imm)
  else if f3 = 0b100#3 then some (.lbu rd rs1 imm)
  else if f3 = 0b101#3 then some (.lhu rd rs1 imm)
  else if f3 = 0b110#3 ∧ xl = .rv64 then some (.lwu rd rs1 imm)
  else none

/-- STORE, by funct3 (rules R129, R139). -/
def decodeStore (xl : Xlen) (w : InstrWord) : Option Instr :=
  let f3 := fieldFunct3 w
  let rs2 := fieldRs2 w
  let rs1 := fieldRs1 w
  let imm := fieldImmS w
  if f3 = 0b000#3 then some (.sb rs2 rs1 imm)
  else if f3 = 0b001#3 then some (.sh rs2 rs1 imm)
  else if f3 = 0b010#3 then some (.sw rs2 rs1 imm)
  else if f3 = 0b011#3 ∧ xl = .rv64 then some (.sd rs2 rs1 imm)
  else none

/-- The function field above the shift amount of a shift-immediate is `f` (its low bit, w[25], belongs to the amount at
XLEN = 64 and must be 0 at XLEN = 32) (rules R113, R130, R139). -/
def shiftFunct (xl : Xlen) (w : InstrWord) (f : BitVec 6) : Bool :=
  fieldFunct6 w == f && (xl == .rv64 || !w.getLsbD 25)

/-- OP-IMM, by funct3 and, for the shifts, the function field (rule R130). -/
def decodeOpImm (xl : Xlen) (w : InstrWord) : Option Instr :=
  let f3 := fieldFunct3 w
  let rd := fieldRd w
  let rs1 := fieldRs1 w
  let imm := fieldImmI w
  if f3 = 0b000#3 then some (.addi rd rs1 imm)
  else if f3 = 0b010#3 then some (.slti rd rs1 imm)
  else if f3 = 0b011#3 then some (.sltiu rd rs1 imm)
  else if f3 = 0b100#3 then some (.xori rd rs1 imm)
  else if f3 = 0b110#3 then some (.ori rd rs1 imm)
  else if f3 = 0b111#3 then some (.andi rd rs1 imm)
  else if f3 = 0b001#3 ∧ shiftFunct xl w 0b000000#6 then some (.slli rd rs1 (fieldShamt w))
  else if f3 = 0b101#3 ∧ shiftFunct xl w 0b000000#6 then some (.srli rd rs1 (fieldShamt w))
  else if f3 = 0b101#3 ∧ shiftFunct xl w 0b010000#6 then some (.srai rd rs1 (fieldShamt w))
  else none

/-- OP, by (funct3, funct7) (rule R131). -/
def decodeOp (w : InstrWord) : Option Instr :=
  let f3 := fieldFunct3 w
  let f7 := fieldFunct7 w
  let rd := fieldRd w
  let rs1 := fieldRs1 w
  let rs2 := fieldRs2 w
  if f3 = 0b000#3 ∧ f7 = 0b0000000#7 then some (.add rd rs1 rs2)
  else if f3 = 0b000#3 ∧ f7 = 0b0100000#7 then some (.sub rd rs1 rs2)
  else if f3 = 0b001#3 ∧ f7 = 0b0000000#7 then some (.sll rd rs1 rs2)
  else if f3 = 0b010#3 ∧ f7 = 0b0000000#7 then some (.slt rd rs1 rs2)
  else if f3 = 0b011#3 ∧ f7 = 0b0000000#7 then some (.sltu rd rs1 rs2)
  else if f3 = 0b100#3 ∧ f7 = 0b0000000#7 then some (.xor rd rs1 rs2)
  else if f3 = 0b101#3 ∧ f7 = 0b0000000#7 then some (.srl rd rs1 rs2)
  else if f3 = 0b101#3 ∧ f7 = 0b0100000#7 then some (.sra rd rs1 rs2)
  else if f3 = 0b110#3 ∧ f7 = 0b0000000#7 then some (.or rd rs1 rs2)
  else if f3 = 0b111#3 ∧ f7 = 0b0000000#7 then some (.and rd rs1 rs2)
  else none

/-- OP-IMM-32, by funct3 and funct7 (rule R132). -/
def decodeOpImm32 (w : InstrWord) : Option Instr :=
  let f3 := fieldFunct3 w
  let f7 := fieldFunct7 w
  let rd := fieldRd w
  let rs1 := fieldRs1 w
  let shamt := fieldRs2 w
  if f3 = 0b000#3 then some (.addiw rd rs1 (fieldImmI w))
  else if f3 = 0b001#3 ∧ f7 = 0b0000000#7 then some (.slliw rd rs1 shamt)
  else if f3 = 0b101#3 ∧ f7 = 0b0000000#7 then some (.srliw rd rs1 shamt)
  else if f3 = 0b101#3 ∧ f7 = 0b0100000#7 then some (.sraiw rd rs1 shamt)
  else none

/-- OP-32, by (funct3, funct7) (rule R133). -/
def decodeOp32 (w : InstrWord) : Option Instr :=
  let f3 := fieldFunct3 w
  let f7 := fieldFunct7 w
  let rd := fieldRd w
  let rs1 := fieldRs1 w
  let rs2 := fieldRs2 w
  if f3 = 0b000#3 ∧ f7 = 0b0000000#7 then some (.addw rd rs1 rs2)
  else if f3 = 0b000#3 ∧ f7 = 0b0100000#7 then some (.subw rd rs1 rs2)
  else if f3 = 0b001#3 ∧ f7 = 0b0000000#7 then some (.sllw rd rs1 rs2)
  else if f3 = 0b101#3 ∧ f7 = 0b0000000#7 then some (.srlw rd rs1 rs2)
  else if f3 = 0b101#3 ∧ f7 = 0b0100000#7 then some (.sraw rd rs1 rs2)
  else none

/-- BRANCH, by funct3 (rule R134). -/
def decodeBranch (w : InstrWord) : Option Instr :=
  let f3 := fieldFunct3 w
  let rs1 := fieldRs1 w
  let rs2 := fieldRs2 w
  let offset := fieldImmB w
  if f3 = 0b000#3 then some (.beq rs1 rs2 offset)
  else if f3 = 0b001#3 then some (.bne rs1 rs2 offset)
  else if f3 = 0b100#3 then some (.blt rs1 rs2 offset)
  else if f3 = 0b101#3 then some (.bge rs1 rs2 offset)
  else if f3 = 0b110#3 then some (.bltu rs1 rs2 offset)
  else if f3 = 0b111#3 then some (.bgeu rs1 rs2 offset)
  else none

/-- JALR (rule R135). -/
def decodeJalr (w : InstrWord) : Option Instr :=
  if fieldFunct3 w = 0b000#3 then some (.jalr (fieldRd w) (fieldRs1 w) (fieldImmI w)) else none

/-- SYSTEM: the four whole words when funct3 = 000, the CSR instructions otherwise (rule R136). -/
def decodeSystem (w : InstrWord) : Option Instr :=
  let f3 := fieldFunct3 w
  let rd := fieldRd w
  let csr := fieldCsr w
  let rs1 := fieldRs1 w
  if w = 0x00000073#32 then some .ecall
  else if w = 0x00100073#32 then some .ebreak
  else if w = 0x10200073#32 then some .sret
  else if w = 0x30200073#32 then some .mret
  else if f3 = 0b001#3 then some (.csrrw rd csr rs1)
  else if f3 = 0b010#3 then some (.csrrs rd csr rs1)
  else if f3 = 0b011#3 then some (.csrrc rd csr rs1)
  else if f3 = 0b101#3 then some (.csrrwi rd csr rs1)
  else if f3 = 0b110#3 then some (.csrrsi rd csr rs1)
  else if f3 = 0b111#3 then some (.csrrci rd csr rs1)
  else none

/-- MISC-MEM (rule R137, decision D12). -/
def decodeMiscMem (w : InstrWord) : Option Instr :=
  if fieldFunct3 w = 0b000#3 ∧ fieldRd w = 0#5 ∧ fieldRs1 w = 0#5 then
    some (.fence (w.extractLsb' 28 4) (w.extractLsb' 24 4) (w.extractLsb' 20 4))
  else if w = 0x0000100F#32 then some .fenceI
  else none

/-- The operation the word selects, or none for UNSUPPORTED: by the primary opcode, then by the tables of its group
(rules R125 to R127, R138, R139). -/
def decodeOption (xl : Xlen) (w : InstrWord) : Option Instr :=
  let op := fieldOpcode w
  if op = 0x03#7 then decodeLoad xl w
  else if op = 0x0F#7 then decodeMiscMem w
  else if op = 0x13#7 then decodeOpImm xl w
  else if op = 0x17#7 then some (.auipc (fieldRd w) (fieldImmU w))
  else if op = 0x1B#7 ∧ xl = .rv64 then decodeOpImm32 w
  else if op = 0x23#7 then decodeStore xl w
  else if op = 0x33#7 then decodeOp w
  else if op = 0x37#7 then some (.lui (fieldRd w) (fieldImmU w))
  else if op = 0x3B#7 ∧ xl = .rv64 then decodeOp32 w
  else if op = 0x63#7 then decodeBranch w
  else if op = 0x67#7 then decodeJalr w
  else if op = 0x6F#7 then some (.jal (fieldRd w) (fieldImmJ w))
  else if op = 0x73#7 then decodeSystem w
  else none

/-- `Decode(w)`: total, reading only w and XLEN (rule R125). -/
def decodeWord (xl : Xlen) (w : InstrWord) : Except DecodeError Instr :=
  match decodeOption xl w with
  | some i => .ok i
  | none => .error (.unsupported w)

/-! ### Bytes (rules R83 to R85) -/

/-- The number whose bytes, the least significant first, are these. -/
def leNat : List Byte → Nat
  | [] => 0
  | b :: bs => b.toNat + 256 * leNat bs

/-- The `n` low bytes of a number, the least significant first. -/
def leBytes : Nat → Nat → List Byte
  | 0, _ => []
  | n + 1, v => BitVec.ofNat 8 v :: leBytes n (v / 256)

/-- Decoding a run of bytes: the first four are one instruction word, low byte first (rules R85, R110); the rest is
given back. -/
def decodeBytes (xl : Xlen) : List Byte → Except DecodeError (Instr × List Byte)
  | b0 :: b1 :: b2 :: b3 :: rest =>
    match decodeWord xl (BitVec.ofNat 32 (leNat [b0, b1, b2, b3])) with
    | .ok i => .ok (i, rest)
    | .error e => .error e
  | bytes => .error (.truncated bytes.length)

/-- The instruction the decoder reads from the table word `w` of `nbits` bits (every instruction has 32), at the XLEN of
the reset state, where every row of the table exists. -/
def decodeTableWord (nbits w : Nat) : Option Instr :=
  match decodeBytes Config.xlen (leBytes 4 (w % 2 ^ nbits)) with
  | .ok (i, _) => some i
  | .error _ => none

/-! ### The encoder (rules R112 to R117, R126 to R138) -/

/-- R-type (rule R112). -/
def encodeR (funct7 : BitVec 7) (rs2 rs1 : Reg) (funct3 : BitVec 3) (rd : Reg) (opcode : BitVec 7) : InstrWord :=
  funct7 ++ rs2 ++ rs1 ++ funct3 ++ rd ++ opcode

/-- I-type (rule R113). -/
def encodeI (imm : BitVec 12) (rs1 : Reg) (funct3 : BitVec 3) (rd : Reg) (opcode : BitVec 7) : InstrWord :=
  imm ++ rs1 ++ funct3 ++ rd ++ opcode

/-- The shift-immediates of OP-IMM: I-type with imm[11:0] split into a function field and a 6-bit amount (rule R113). -/
def encodeShift (funct6 : BitVec 6) (shamt : BitVec 6) (rs1 : Reg) (funct3 : BitVec 3) (rd : Reg) : InstrWord :=
  funct6 ++ shamt ++ rs1 ++ funct3 ++ rd ++ 0x13#7

/-- S-type (rule R114). -/
def encodeS (imm : BitVec 12) (rs2 rs1 : Reg) (funct3 : BitVec 3) : InstrWord :=
  imm.extractLsb' 5 7 ++ rs2 ++ rs1 ++ funct3 ++ imm.extractLsb' 0 5 ++ 0x23#7

/-- B-type (rule R115). -/
def encodeB (imm : BitVec 13) (rs2 rs1 : Reg) (funct3 : BitVec 3) : InstrWord :=
  imm.extractLsb' 12 1 ++ imm.extractLsb' 5 6 ++ rs2 ++ rs1 ++ funct3 ++ imm.extractLsb' 1 4 ++ imm.extractLsb' 11 1 ++
    0x63#7

/-- U-type (rule R116). -/
def encodeU (imm : BitVec 20) (rd : Reg) (opcode : BitVec 7) : InstrWord :=
  imm ++ rd ++ opcode

/-- J-type, JAL (rule R117). -/
def encodeJ (imm : BitVec 21) (rd : Reg) : InstrWord :=
  imm.extractLsb' 20 1 ++ imm.extractLsb' 1 10 ++ imm.extractLsb' 11 1 ++ imm.extractLsb' 12 8 ++ rd ++ 0x6F#7

/-- The word of an instruction. -/
def encode : Instr → InstrWord
  | .lui rd imm => encodeU imm rd 0x37#7
  | .auipc rd imm => encodeU imm rd 0x17#7
  | .jal rd offset => encodeJ offset rd
  | .jalr rd rs1 imm => encodeI imm rs1 0b000#3 rd 0x67#7
  | .beq rs1 rs2 offset => encodeB offset rs2 rs1 0b000#3
  | .bne rs1 rs2 offset => encodeB offset rs2 rs1 0b001#3
  | .blt rs1 rs2 offset => encodeB offset rs2 rs1 0b100#3
  | .bge rs1 rs2 offset => encodeB offset rs2 rs1 0b101#3
  | .bltu rs1 rs2 offset => encodeB offset rs2 rs1 0b110#3
  | .bgeu rs1 rs2 offset => encodeB offset rs2 rs1 0b111#3
  | .lb rd rs1 imm => encodeI imm rs1 0b000#3 rd 0x03#7
  | .lh rd rs1 imm => encodeI imm rs1 0b001#3 rd 0x03#7
  | .lw rd rs1 imm => encodeI imm rs1 0b010#3 rd 0x03#7
  | .ld rd rs1 imm => encodeI imm rs1 0b011#3 rd 0x03#7
  | .lbu rd rs1 imm => encodeI imm rs1 0b100#3 rd 0x03#7
  | .lhu rd rs1 imm => encodeI imm rs1 0b101#3 rd 0x03#7
  | .lwu rd rs1 imm => encodeI imm rs1 0b110#3 rd 0x03#7
  | .sb rs2 rs1 imm => encodeS imm rs2 rs1 0b000#3
  | .sh rs2 rs1 imm => encodeS imm rs2 rs1 0b001#3
  | .sw rs2 rs1 imm => encodeS imm rs2 rs1 0b010#3
  | .sd rs2 rs1 imm => encodeS imm rs2 rs1 0b011#3
  | .addi rd rs1 imm => encodeI imm rs1 0b000#3 rd 0x13#7
  | .slti rd rs1 imm => encodeI imm rs1 0b010#3 rd 0x13#7
  | .sltiu rd rs1 imm => encodeI imm rs1 0b011#3 rd 0x13#7
  | .xori rd rs1 imm => encodeI imm rs1 0b100#3 rd 0x13#7
  | .ori rd rs1 imm => encodeI imm rs1 0b110#3 rd 0x13#7
  | .andi rd rs1 imm => encodeI imm rs1 0b111#3 rd 0x13#7
  | .slli rd rs1 shamt => encodeShift 0b000000#6 shamt rs1 0b001#3 rd
  | .srli rd rs1 shamt => encodeShift 0b000000#6 shamt rs1 0b101#3 rd
  | .srai rd rs1 shamt => encodeShift 0b010000#6 shamt rs1 0b101#3 rd
  | .add rd rs1 rs2 => encodeR 0b0000000#7 rs2 rs1 0b000#3 rd 0x33#7
  | .sub rd rs1 rs2 => encodeR 0b0100000#7 rs2 rs1 0b000#3 rd 0x33#7
  | .sll rd rs1 rs2 => encodeR 0b0000000#7 rs2 rs1 0b001#3 rd 0x33#7
  | .slt rd rs1 rs2 => encodeR 0b0000000#7 rs2 rs1 0b010#3 rd 0x33#7
  | .sltu rd rs1 rs2 => encodeR 0b0000000#7 rs2 rs1 0b011#3 rd 0x33#7
  | .xor rd rs1 rs2 => encodeR 0b0000000#7 rs2 rs1 0b100#3 rd 0x33#7
  | .srl rd rs1 rs2 => encodeR 0b0000000#7 rs2 rs1 0b101#3 rd 0x33#7
  | .sra rd rs1 rs2 => encodeR 0b0100000#7 rs2 rs1 0b101#3 rd 0x33#7
  | .or rd rs1 rs2 => encodeR 0b0000000#7 rs2 rs1 0b110#3 rd 0x33#7
  | .and rd rs1 rs2 => encodeR 0b0000000#7 rs2 rs1 0b111#3 rd 0x33#7
  | .addiw rd rs1 imm => encodeI imm rs1 0b000#3 rd 0x1B#7
  | .slliw rd rs1 shamt => encodeR 0b0000000#7 shamt rs1 0b001#3 rd 0x1B#7
  | .srliw rd rs1 shamt => encodeR 0b0000000#7 shamt rs1 0b101#3 rd 0x1B#7
  | .sraiw rd rs1 shamt => encodeR 0b0100000#7 shamt rs1 0b101#3 rd 0x1B#7
  | .addw rd rs1 rs2 => encodeR 0b0000000#7 rs2 rs1 0b000#3 rd 0x3B#7
  | .subw rd rs1 rs2 => encodeR 0b0100000#7 rs2 rs1 0b000#3 rd 0x3B#7
  | .sllw rd rs1 rs2 => encodeR 0b0000000#7 rs2 rs1 0b001#3 rd 0x3B#7
  | .srlw rd rs1 rs2 => encodeR 0b0000000#7 rs2 rs1 0b101#3 rd 0x3B#7
  | .sraw rd rs1 rs2 => encodeR 0b0100000#7 rs2 rs1 0b101#3 rd 0x3B#7
  | .fence fm pred succ => encodeI (fm ++ pred ++ succ) 0#5 0b000#3 0#5 0x0F#7
  | .fenceI => 0x0000100F#32
  | .csrrw rd csr rs1 => encodeI csr rs1 0b001#3 rd 0x73#7
  | .csrrs rd csr rs1 => encodeI csr rs1 0b010#3 rd 0x73#7
  | .csrrc rd csr rs1 => encodeI csr rs1 0b011#3 rd 0x73#7
  | .csrrwi rd csr zimm => encodeI csr zimm 0b101#3 rd 0x73#7
  | .csrrsi rd csr zimm => encodeI csr zimm 0b110#3 rd 0x73#7
  | .csrrci rd csr zimm => encodeI csr zimm 0b111#3 rd 0x73#7
  | .ecall => 0x00000073#32
  | .ebreak => 0x00100073#32
  | .sret => 0x10200073#32
  | .mret => 0x30200073#32

/-! ### The opcode table (spec/opcode_table.json, INDEX.md "Reading the opcode table") -/

/-- One row: a word `w` decodes to it when `w &&& mask = pattern`, with `maskRv32` for the mask at XLEN = 32, where a row
that is RV64 only does not match. -/
structure Row where
  mnemonic : String
  format : Format
  mask : InstrWord
  maskRv32 : InstrWord
  pattern : InstrWord
  rv64Only : Bool
deriving DecidableEq, Repr

/-- The word matches the row at width `xl`. -/
def Row.accepts (r : Row) (xl : Xlen) (w : InstrWord) : Bool :=
  match xl with
  | .rv32 => !r.rv64Only && w &&& r.maskRv32 == r.pattern
  | .rv64 => w &&& r.mask == r.pattern

/-- Rows 1 to 4 of spec/opcode_table.json. -/
def upperAndJumpRows : List Row := [
  ⟨"LUI", .u, 0x0000007F#32, 0x0000007F#32, 0x00000037#32, false⟩,
  ⟨"AUIPC", .u, 0x0000007F#32, 0x0000007F#32, 0x00000017#32, false⟩,
  ⟨"JAL", .j, 0x0000007F#32, 0x0000007F#32, 0x0000006F#32, false⟩,
  ⟨"JALR", .i, 0x0000707F#32, 0x0000707F#32, 0x00000067#32, false⟩]

/-- Rows 5 to 10 of spec/opcode_table.json. -/
def branchRows : List Row := [
  ⟨"BEQ", .b, 0x0000707F#32, 0x0000707F#32, 0x00000063#32, false⟩,
  ⟨"BNE", .b, 0x0000707F#32, 0x0000707F#32, 0x00001063#32, false⟩,
  ⟨"BLT", .b, 0x0000707F#32, 0x0000707F#32, 0x00004063#32, false⟩,
  ⟨"BGE", .b, 0x0000707F#32, 0x0000707F#32, 0x00005063#32, false⟩,
  ⟨"BLTU", .b, 0x0000707F#32, 0x0000707F#32, 0x00006063#32, false⟩,
  ⟨"BGEU", .b, 0x0000707F#32, 0x0000707F#32, 0x00007063#32, false⟩]

/-- Rows 11 to 17 of spec/opcode_table.json. -/
def loadRows : List Row := [
  ⟨"LB", .i, 0x0000707F#32, 0x0000707F#32, 0x00000003#32, false⟩,
  ⟨"LH", .i, 0x0000707F#32, 0x0000707F#32, 0x00001003#32, false⟩,
  ⟨"LW", .i, 0x0000707F#32, 0x0000707F#32, 0x00002003#32, false⟩,
  ⟨"LD", .i, 0x0000707F#32, 0x0000707F#32, 0x00003003#32, true⟩,
  ⟨"LBU", .i, 0x0000707F#32, 0x0000707F#32, 0x00004003#32, false⟩,
  ⟨"LHU", .i, 0x0000707F#32, 0x0000707F#32, 0x00005003#32, false⟩,
  ⟨"LWU", .i, 0x0000707F#32, 0x0000707F#32, 0x00006003#32, true⟩]

/-- Rows 18 to 21 of spec/opcode_table.json. -/
def storeRows : List Row := [
  ⟨"SB", .s, 0x0000707F#32, 0x0000707F#32, 0x00000023#32, false⟩,
  ⟨"SH", .s, 0x0000707F#32, 0x0000707F#32, 0x00001023#32, false⟩,
  ⟨"SW", .s, 0x0000707F#32, 0x0000707F#32, 0x00002023#32, false⟩,
  ⟨"SD", .s, 0x0000707F#32, 0x0000707F#32, 0x00003023#32, true⟩]

/-- Rows 22 to 30 of spec/opcode_table.json. -/
def immediateRows : List Row := [
  ⟨"ADDI", .i, 0x0000707F#32, 0x0000707F#32, 0x00000013#32, false⟩,
  ⟨"SLTI", .i, 0x0000707F#32, 0x0000707F#32, 0x00002013#32, false⟩,
  ⟨"SLTIU", .i, 0x0000707F#32, 0x0000707F#32, 0x00003013#32, false⟩,
  ⟨"XORI", .i, 0x0000707F#32, 0x0000707F#32, 0x00004013#32, false⟩,
  ⟨"ORI", .i, 0x0000707F#32, 0x0000707F#32, 0x00006013#32, false⟩,
  ⟨"ANDI", .i, 0x0000707F#32, 0x0000707F#32, 0x00007013#32, false⟩,
  ⟨"SLLI", .i, 0xFC00707F#32, 0xFE00707F#32, 0x00001013#32, false⟩,
  ⟨"SRLI", .i, 0xFC00707F#32, 0xFE00707F#32, 0x00005013#32, false⟩,
  ⟨"SRAI", .i, 0xFC00707F#32, 0xFE00707F#32, 0x40005013#32, false⟩]

/-- Rows 31 to 40 of spec/opcode_table.json. -/
def registerRows : List Row := [
  ⟨"ADD", .r, 0xFE00707F#32, 0xFE00707F#32, 0x00000033#32, false⟩,
  ⟨"SUB", .r, 0xFE00707F#32, 0xFE00707F#32, 0x40000033#32, false⟩,
  ⟨"SLL", .r, 0xFE00707F#32, 0xFE00707F#32, 0x00001033#32, false⟩,
  ⟨"SLT", .r, 0xFE00707F#32, 0xFE00707F#32, 0x00002033#32, false⟩,
  ⟨"SLTU", .r, 0xFE00707F#32, 0xFE00707F#32, 0x00003033#32, false⟩,
  ⟨"XOR", .r, 0xFE00707F#32, 0xFE00707F#32, 0x00004033#32, false⟩,
  ⟨"SRL", .r, 0xFE00707F#32, 0xFE00707F#32, 0x00005033#32, false⟩,
  ⟨"SRA", .r, 0xFE00707F#32, 0xFE00707F#32, 0x40005033#32, false⟩,
  ⟨"OR", .r, 0xFE00707F#32, 0xFE00707F#32, 0x00006033#32, false⟩,
  ⟨"AND", .r, 0xFE00707F#32, 0xFE00707F#32, 0x00007033#32, false⟩]

/-- Rows 41 to 49 of spec/opcode_table.json. -/
def wordRows : List Row := [
  ⟨"ADDIW", .i, 0x0000707F#32, 0x0000707F#32, 0x0000001B#32, true⟩,
  ⟨"SLLIW", .i, 0xFE00707F#32, 0xFE00707F#32, 0x0000101B#32, true⟩,
  ⟨"SRLIW", .i, 0xFE00707F#32, 0xFE00707F#32, 0x0000501B#32, true⟩,
  ⟨"SRAIW", .i, 0xFE00707F#32, 0xFE00707F#32, 0x4000501B#32, true⟩,
  ⟨"ADDW", .r, 0xFE00707F#32, 0xFE00707F#32, 0x0000003B#32, true⟩,
  ⟨"SUBW", .r, 0xFE00707F#32, 0xFE00707F#32, 0x4000003B#32, true⟩,
  ⟨"SLLW", .r, 0xFE00707F#32, 0xFE00707F#32, 0x0000103B#32, true⟩,
  ⟨"SRLW", .r, 0xFE00707F#32, 0xFE00707F#32, 0x0000503B#32, true⟩,
  ⟨"SRAW", .r, 0xFE00707F#32, 0xFE00707F#32, 0x4000503B#32, true⟩]

/-- Rows 50 to 61 of spec/opcode_table.json. -/
def systemRows : List Row := [
  ⟨"FENCE", .i, 0x000FFFFF#32, 0x000FFFFF#32, 0x0000000F#32, false⟩,
  ⟨"FENCE.I", .i, 0xFFFFFFFF#32, 0xFFFFFFFF#32, 0x0000100F#32, false⟩,
  ⟨"CSRRW", .i, 0x0000707F#32, 0x0000707F#32, 0x00001073#32, false⟩,
  ⟨"CSRRS", .i, 0x0000707F#32, 0x0000707F#32, 0x00002073#32, false⟩,
  ⟨"CSRRC", .i, 0x0000707F#32, 0x0000707F#32, 0x00003073#32, false⟩,
  ⟨"CSRRWI", .i, 0x0000707F#32, 0x0000707F#32, 0x00005073#32, false⟩,
  ⟨"CSRRSI", .i, 0x0000707F#32, 0x0000707F#32, 0x00006073#32, false⟩,
  ⟨"CSRRCI", .i, 0x0000707F#32, 0x0000707F#32, 0x00007073#32, false⟩,
  ⟨"ECALL", .i, 0xFFFFFFFF#32, 0xFFFFFFFF#32, 0x00000073#32, false⟩,
  ⟨"EBREAK", .i, 0xFFFFFFFF#32, 0xFFFFFFFF#32, 0x00100073#32, false⟩,
  ⟨"SRET", .i, 0xFFFFFFFF#32, 0xFFFFFFFF#32, 0x10200073#32, false⟩,
  ⟨"MRET", .i, 0xFFFFFFFF#32, 0xFFFFFFFF#32, 0x30200073#32, false⟩]

/-- spec/opcode_table.json, row by row. -/
def opcodeTable : List Row :=
  upperAndJumpRows ++ branchRows ++ loadRows ++ storeRows ++ immediateRows ++ registerRows ++ wordRows ++ systemRows

end Sys2Proof
end

