-- ==== Sys2Proof/Machine/State.lean ====
section
/-! DEFINITION. The state of the machine as plain data (10_state.md), the reasons a step can stop (rules R15, R16), the
host's watch callback as an opaque constant (rules R91, R345), and the state after reset (rule R340).

XLEN is a parameter with two values (rule R6). Everything that is XLEN bits wide lives in `Hart xl`; a `State` is a width
together with a hart of that width, so every meaning and every claim covers both widths. -/

namespace Sys2Proof.Machine

/-- The watched range: WATCH_ADDR and WATCH_LEN (rules R8, R51). -/
structure Watch (xl : Xlen) where
  addr : Word xl
  len : Nat
deriving DecidableEq, Repr

/-- The parameters of the step relation (rules R7, R8, R54), which no step changes. The spec says they are no state; the
model carries them in the state because the step takes nothing else. DESIGN CHOICE, safe (log entry 7). -/
structure Params (xl : Xlen) where
  /-- BASE (rule R7). -/
  base : Word xl
  /-- MEM_CAPACITY (rule R7). -/
  memCapacity : Nat
  /-- The watch, installed iff the loader resolved a watch address (rule R51). -/
  watch : Option (Watch xl)
deriving DecidableEq, Repr

/-- The memory array (rule R49) as the list of the bytes that are not 0, keyed by array index, indices rising
(`Memory.wf`). An index that is not listed reads 0, the spec's reset contents (rules R49, R340). DESIGN CHOICE of
the form, safe (log entry 9). -/
structure Memory where
  cells : List Host.Cell
deriving DecidableEq, Repr

/-- The 4096 CSR cells (rule R40) as the list of the cells that are not 0, keyed by CSR address, addresses rising
(`CsrBank.wf`). A cell that is not listed reads 0, the spec's reset value (rules R40, R340). -/
structure CsrBank (xl : Xlen) where
  cells : List (Nat × Word xl)
deriving DecidableEq, Repr

/-- The hart of width `xl`: everything rules R30 to R51 give the machine. -/
structure Hart (xl : Xlen) where
  /-- x1 to x31, in that order; x0 has no storage (rules R30, R31). -/
  x : Vector (Word xl) 31
  /-- The program counter (rule R33). -/
  pc : Word xl
  /-- A branch was taken in this step (rule R35). -/
  branchTaken : Bool
  /-- A jump was taken in this step (rule R35). -/
  jumpTaken : Bool
  /-- A trap or a trap return was taken in this step (rule R35). -/
  trapTaken : Bool
  /-- The current privilege level (rule R37). -/
  priv : Priv
  /-- The CSR cells (rule R40). -/
  csrs : CsrBank xl
  /-- The memory array (rule R49). -/
  mem : Memory
  /-- The parameters and the watch (rules R51, R54). -/
  params : Params xl
deriving DecidableEq, Repr

/-- The machine: XLEN (rule R6) and the hart of that width. -/
structure State where
  xlen : Xlen
  hart : Hart xlen
deriving DecidableEq, Repr

/-- The kinds of memory access (rule R91). -/
inductive AccessKind where
  | fetch
  | load
  | store
deriving DecidableEq, Repr

/-- The record of an access that the watch callback is given (rule R91): the address as an unsigned number, the number of
bytes, the kind, and the bytes read or written, lowest address first. -/
structure Access where
  addr : Nat
  n : Nat
  kind : AccessKind
  value : List Byte
deriving DecidableEq, Repr

/-- What the callback answers: Continue or Halt(code) (rule R91). The type of the code is a DESIGN CHOICE, safe (log
entry 6). -/
inductive WatchVerdict where
  | cont
  | halt (code : Nat)
deriving DecidableEq, Repr, Inhabited

end Sys2Proof.Machine

namespace Sys2Proof

/-- WATCH_CALLBACK, an OPEN parameter of the hardware (rules R8, R91, R345; decisions D15, D31): what the host answers to
an access, given the state at that point. It has no body: a claim holds whatever the host answers. DESIGN CHOICE,
safe (log entry 5). -/
opaque Config.watchCallback : Machine.State → Machine.Access → Machine.WatchVerdict

end Sys2Proof

namespace Sys2Proof.Machine

/-- The terminal outcomes of a step: the spec's Fatal reasons (rule R16) and Halted (rules R15, R345). Each carries its
info and the state frozen at the point the step stopped (rules R14, R15, R346, R347). DEDUCED, unsafe (log entry 12). -/
inductive Fault where
  /-- Raised by the step on a word the decoder rejects, and by an RV64-only or out-of-width operation at XLEN = 32, which
  has no routine there (rules R16, R139, R142). Safe: the hardware stops too. -/
  | unsupported (w : InstrWord) (frozen : State)
  /-- Raised by a fetch, a load or a store of `n` bytes that does not lie in the array (rules R16, R82). Safe: the
  hardware stops too. -/
  | memOutOfRange (addr : Nat) (n : Nat) (frozen : State)
  /-- Raised by the step when pc[1:0] is not 0 (rules R16, R50; decision D9). Safe: a stop, by the spec's own choice. -/
  | fetchMisaligned (pc : Nat) (frozen : State)
  /-- Raised by EBREAK (rules R16, R271; decision D8). Safe: a stop, by the spec's own choice. -/
  | ebreakUnmodelled (w : InstrWord) (frozen : State)
  /-- Raised by MRET when mstatus.MPP = 0b10 (rules R16, R276; decision D18). Safe: a stop, by the spec's own choice. -/
  | reservedPrivilege (w : InstrWord) (frozen : State)
  /-- Raised by a watched access whose callback answers Halt(code) (rules R15, R91, R345). Safe: the hardware stops too. -/
  | halted (code : Nat) (frozen : State)
deriving DecidableEq, Repr

/-- Why a step has no meaning. -/
inductive Refusal where
  /-- Raised by an arm of `exec` whose instruction is not modelled yet; no arm is one. Safe: it stops. -/
  | notModelled (mnemonic : String)
deriving DecidableEq, Repr

/-- The outcome of a step or of an instruction. -/
abbrev Result := Host.Outcome State Fault Refusal

/-- The loader's value (rules R8, R342): entry address, base offset, byte contents, optional watch address. -/
structure LoaderValue (xl : Xlen) where
  entry : Word xl
  base : Word xl
  image : List Byte
  watchAddr : Option (Word xl)
deriving DecidableEq, Repr

/-- The parameters of the reset state: no watch is installed, since no loader resolved an address (log entries 2 to 4). -/
def Params.reset : Params Config.xlen where
  base := Config.base
  memCapacity := Config.memCapacity
  watch := none

/-- The machine right after reset with an empty image (rule R340): pc = ENTRY, every register and CSR 0, Machine
privilege, the flags 0, memory 0. The values of the OPEN parameters are those of Config.lean (log entries 1 to 4). -/
def State.reset : State where
  xlen := Config.xlen
  hart :=
    { x := Vector.replicate 31 0
      pc := Config.entry
      branchTaken := false
      jumpTaken := false
      trapTaken := false
      priv := .machine
      csrs := ⟨[]⟩
      mem := ⟨[]⟩
      params := Params.reset }

end Sys2Proof.Machine
end

