-- ==== Sys2Proof/Machine/Flags.lean ====
section
/-! DEFINITION. Bit fields: the fields of mstatus with what trap entry and the trap returns do to them (rules R43, R276,
R277, R310), and the three PC-advance flags (rule R35), the only flags of the CORE (rule R36). -/

namespace Sys2Proof.Machine

/-- `v` with the field of `len` bits from bit `lo` up replaced by `f`, every other bit kept (rule R11). -/
def setBits {w len : Nat} (v : BitVec w) (lo : Nat) (f : BitVec len) : BitVec w :=
  (v &&& ~~~((BitVec.allOnes len).setWidth w <<< lo)) ||| (f.setWidth w <<< lo)

/-! ### The fields of mstatus (rule R43) -/

/-- mstatus.SIE, bit 1. -/
def Mstatus.sie {w : Nat} (v : BitVec w) : BitVec 1 := v.extractLsb' 1 1
/-- mstatus.MIE, bit 3. -/
def Mstatus.mie {w : Nat} (v : BitVec w) : BitVec 1 := v.extractLsb' 3 1
/-- mstatus.SPIE, bit 5. -/
def Mstatus.spie {w : Nat} (v : BitVec w) : BitVec 1 := v.extractLsb' 5 1
/-- mstatus.MPIE, bit 7. -/
def Mstatus.mpie {w : Nat} (v : BitVec w) : BitVec 1 := v.extractLsb' 7 1
/-- mstatus.SPP, bit 8. -/
def Mstatus.spp {w : Nat} (v : BitVec w) : BitVec 1 := v.extractLsb' 8 1
/-- mstatus.MPP, bits 12:11. -/
def Mstatus.mpp {w : Nat} (v : BitVec w) : BitVec 2 := v.extractLsb' 11 2
/-- mstatus.MPRV, bit 17. -/
def Mstatus.mprv {w : Nat} (v : BitVec w) : BitVec 1 := v.extractLsb' 17 1

def Mstatus.setSie {w : Nat} (v : BitVec w) (f : BitVec 1) : BitVec w := setBits v 1 f
def Mstatus.setMie {w : Nat} (v : BitVec w) (f : BitVec 1) : BitVec w := setBits v 3 f
def Mstatus.setSpie {w : Nat} (v : BitVec w) (f : BitVec 1) : BitVec w := setBits v 5 f
def Mstatus.setMpie {w : Nat} (v : BitVec w) (f : BitVec 1) : BitVec w := setBits v 7 f
def Mstatus.setSpp {w : Nat} (v : BitVec w) (f : BitVec 1) : BitVec w := setBits v 8 f
def Mstatus.setMpp {w : Nat} (v : BitVec w) (f : BitVec 2) : BitVec w := setBits v 11 f
def Mstatus.setMprv {w : Nat} (v : BitVec w) (f : BitVec 1) : BitVec w := setBits v 17 f

/-- What trap entry from level `p` makes of mstatus: MPIE <- MIE, MIE <- 0, MPP <- priv (rule R310). -/
def Mstatus.pushTrap {w : Nat} (v : BitVec w) (p : Priv) : BitVec w :=
  let v := setMpie v (mie v)
  let v := setMie v 0
  setMpp v p.bits

/-- What MRET makes of mstatus: MIE <- MPIE, MPIE <- 1, MPP <- User, MPRV <- 0 (rule R276). -/
def Mstatus.popMachine {w : Nat} (v : BitVec w) : BitVec w :=
  let v := setMie v (mpie v)
  let v := setMpie v 1
  let v := setMpp v 0
  setMprv v 0

/-- What SRET makes of mstatus: SIE <- SPIE, SPIE <- 1, SPP <- User, MPRV <- 0 (rule R277). -/
def Mstatus.popSupervisor {w : Nat} (v : BitVec w) : BitVec w :=
  let v := setSie v (spie v)
  let v := setSpie v 1
  let v := setSpp v 0
  setMprv v 0

/-- The level an MPP field names, none for the reserved value 0b10 (rules R37, R276). -/
def Priv.ofBits : BitVec 2 → Option Priv := fun b =>
  if b = 0b00#2 then some .user
  else if b = 0b01#2 then some .supervisor
  else if b = 0b11#2 then some .machine
  else none

/-- The level an SPP field names (rule R277, decision D27). -/
def Priv.ofSpp (b : BitVec 1) : Priv :=
  if b = 1#1 then .supervisor else .user

/-! ### The PC-advance flags (rule R35) -/

/-- Some flag is set, so the step adds no 4 (rule R50, step 5). -/
def Hart.redirected {xl : Xlen} (h : Hart xl) : Bool :=
  h.branchTaken || h.jumpTaken || h.trapTaken

/-- All three flags cleared (rule R50, step 5). -/
def Hart.clearFlags {xl : Xlen} (h : Hart xl) : Hart xl :=
  { h with branchTaken := false, jumpTaken := false, trapTaken := false }

end Sys2Proof.Machine
end

