-- ==== Sys2Proof/Machine/Ops.lean ====
section
/-! DEFINITION. The named operations the meanings are written in: registers, CSR cells and their checks, memory with its
range check and watch check, taking a trap and returning from one, the PC advance, and the loader's placement of an image. -/

namespace Sys2Proof.Machine

variable {xl : Xlen}

/-! ### Listed cells: the one representation of memory and of the CSR bank -/

/-- The value at key `k`; a key that is not listed reads 0 (rules R40, R49, R340). -/
def Cells.get {w : Nat} : List (Nat × BitVec w) → Nat → BitVec w
  | [], _ => Config.unwritten
  | (k', v) :: rest, k => if k' = k then v else Cells.get rest k

/-- `(k, v)` put in its place among rising keys that do not hold `k`. -/
def Cells.insert {w : Nat} (k : Nat) (v : BitVec w) : List (Nat × BitVec w) → List (Nat × BitVec w)
  | [] => [(k, v)]
  | (k', v') :: rest => if k < k' then (k, v) :: (k', v') :: rest else (k', v') :: Cells.insert k v rest

/-- The cells with `v` at key `k`: a value an unlisted key reads as anyway is not listed. -/
def Cells.set {w : Nat} (cells : List (Nat × BitVec w)) (k : Nat) (v : BitVec w) : List (Nat × BitVec w) :=
  let others := cells.filter (fun c => c.1 != k)
  if v = Config.unwritten then others else Cells.insert k v others

/-- The canonical form: keys strictly rising, all below `bound`, and no listed value that an unlisted key reads as. -/
abbrev Cells.wf {w : Nat} (cells : List (Nat × BitVec w)) : Prop :=
  cells.Pairwise (fun a b => a.1 < b.1) ∧ ∀ c ∈ cells, c.2 ≠ Config.unwritten

/-! ### General registers (rules R30 to R32) -/

/-- `x[r]`: 0 for x0 (rule R31). -/
def Hart.getX (h : Hart xl) (r : Reg) : Word xl :=
  if hr : r = 0 then 0 else h.x[r.toNat - 1]'(by
    have h0 : r.toNat ≠ 0 := fun e => hr (BitVec.eq_of_toNat_eq (by simpa using e))
    have := r.isLt
    omega)

/-- `x[r] <- v`: discarded for x0 (rule R31). -/
def Hart.setX (h : Hart xl) (r : Reg) (v : Word xl) : Hart xl :=
  if hr : r = 0 then h else
    { h with x := h.x.set (r.toNat - 1) v (by
        have h0 : r.toNat ≠ 0 := fun e => hr (BitVec.eq_of_toNat_eq (by simpa using e))
        have := r.isLt
        omega) }

/-! ### CSR cells (rules R40 to R48) and the checked accesses (rules R300 to R303) -/

/-- mstatus (rule R43). -/
def Csr.mstatus : CsrAddr := 0x300#12
/-- mtvec (rule R44). -/
def Csr.mtvec : CsrAddr := 0x305#12
/-- mepc (rule R45). -/
def Csr.mepc : CsrAddr := 0x341#12
/-- mcause (rule R46). -/
def Csr.mcause : CsrAddr := 0x342#12
/-- sepc (rule R47). -/
def Csr.sepc : CsrAddr := 0x141#12

/-- The canonical form of the CSR bank. -/
abbrev CsrBank.wf (b : CsrBank xl) : Prop := Cells.wf b.cells

/-- `CSR[a]`: the raw cell (rule R13). -/
def Hart.csr (h : Hart xl) (a : CsrAddr) : Word xl := Cells.get h.csrs.cells a.toNat

/-- `CSR[a] <- v`, unchecked: the full XLEN bits, no masking, no aliasing (rules R13, R41). -/
def Hart.setCsr (h : Hart xl) (a : CsrAddr) (v : Word xl) : Hart xl :=
  { h with csrs := ⟨Cells.set h.csrs.cells a.toNat v⟩ }

/-- `csr[9:8]`, the lowest privilege that may access the CSR (rules R42, R300). -/
def csrPrivilege (a : CsrAddr) : BitVec 2 := a.extractLsb' 8 2

/-- `csr[11:10] = 0b11` marks a read-only CSR (rules R42, R300). -/
def csrReadOnly (a : CsrAddr) : Bool := a.extractLsb' 10 2 == 0b11#2

/-- The privilege level may access the CSR (rule R300). -/
def csrAllowed (p : Priv) (a : CsrAddr) : Bool := csrPrivilege a ≤ p.bits

/-- `CsrRead(csr)`: none raises IllegalInstruction (rule R300). -/
def Hart.csrRead (h : Hart xl) (a : CsrAddr) : Option (Word xl) :=
  if csrAllowed h.priv a then some (h.csr a) else none

/-- `CsrWrite(csr, v)`: none raises IllegalInstruction (rule R301). -/
def Hart.csrWrite (h : Hart xl) (a : CsrAddr) (v : Word xl) : Option (Hart xl) :=
  if !csrAllowed h.priv a then none
  else if csrReadOnly a then none
  else some (h.setCsr a v)

/-! ### Taking a trap and returning from one (rules R310, R276, R277) -/

/-- Exception code of an illegal instruction (rule R305). -/
def Cause.illegalInstruction : Nat := 2

/-- Exception code of an environment call from level `p`: 8 + priv (rule R305). -/
def Cause.environmentCall (p : Priv) : Nat := 8 + p.bits.toNat

/-- `trap(code)`: mepc, mcause and mstatus written, privilege Machine, pc at mtvec with bits 1:0 cleared, trap_taken set
(rule R310). The writes are raw. -/
def Hart.trap (h : Hart xl) (code : Nat) : Hart xl :=
  let saved := ((h.setCsr Csr.mepc h.pc).setCsr Csr.mcause (BitVec.ofNat xl.bits code)).setCsr Csr.mstatus
    (Mstatus.pushTrap (h.csr Csr.mstatus) h.priv)
  { saved with priv := .machine, pc := h.csr Csr.mtvec &&& ~~~(3 : Word xl), trapTaken := true }

/-- `raise IllegalInstruction`: trap entry with code 2 (rules R14, R305). -/
def Hart.raiseIllegal (h : Hart xl) : Hart xl := h.trap Cause.illegalInstruction

/-- The effect of MRET: the illegal-instruction trap below Machine; else the reserved-privilege stop when MPP = 0b10;
else the pop of the machine stack, privilege MPP, pc mepc (rule R276). -/
def Hart.returnMachine (h : Hart xl) (w : InstrWord) : Except Fault (Hart xl) :=
  if h.priv ≠ .machine then .ok h.raiseIllegal
  else match Priv.ofBits (Mstatus.mpp (h.csr Csr.mstatus)) with
    | none => .error (.reservedPrivilege w ⟨xl, h⟩)
    | some p =>
      .ok { h.setCsr Csr.mstatus (Mstatus.popMachine (h.csr Csr.mstatus)) with
        priv := p, pc := h.csr Csr.mepc, trapTaken := true }

/-- The effect of SRET: the illegal-instruction trap in User; else one pop of the supervisor stack, privilege SPP, pc sepc
(rule R277; decision D7 for Machine mode). -/
def Hart.returnSupervisor (h : Hart xl) : Hart xl :=
  if h.priv = .user then h.raiseIllegal
  else
    { h.setCsr Csr.mstatus (Mstatus.popSupervisor (h.csr Csr.mstatus)) with
      priv := Priv.ofSpp (Mstatus.spp (h.csr Csr.mstatus)), pc := h.csr Csr.sepc, trapTaken := true }

/-! ### Memory bytes (rules R80 to R85) -/

/-- The canonical form of memory. -/
abbrev Memory.wf (m : Memory) : Prop := Cells.wf m.cells

/-- `mem[idx]`. -/
def Memory.get (m : Memory) (idx : Nat) : Byte := Cells.get m.cells idx

/-- `mem[idx] <- b`. -/
def Memory.set (m : Memory) (idx : Nat) (b : Byte) : Memory := ⟨Cells.set m.cells idx b⟩

/-- `mem[idx], mem[idx+1], …`, `n` of them. -/
def Memory.readBytes (m : Memory) (idx : Nat) : Nat → List Byte
  | 0 => []
  | n + 1 => m.get idx :: m.readBytes (idx + 1) n

/-- `mem[idx+k] <- bytes[k]` for each k. -/
def Memory.writeBytes (m : Memory) (idx : Nat) : List Byte → Memory
  | [] => m
  | b :: bs => (m.set idx b).writeBytes (idx + 1) bs

/-- The array index of an address: `(addr - BASE) mod 2^XLEN` as an unsigned integer (rule R80). -/
def Hart.index (h : Hart xl) (addr : Word xl) : Nat := (addr - h.params.base).toNat

/-- The byte an address names. -/
def Hart.byteAt (h : Hart xl) (addr : Word xl) : Byte := h.mem.get (h.index addr)

/-- The whole access lies in the array, on unbounded integers (rule R82). -/
def Hart.inRange (h : Hart xl) (addr : Word xl) (n : Nat) : Bool := h.index addr + n ≤ h.params.memCapacity

/-- The integer ranges `[addr, addr+n)` and `[WATCH_ADDR, WATCH_ADDR+WATCH_LEN)` intersect (rule R90). -/
def Watch.covers (wt : Watch xl) (addr : Word xl) (n : Nat) : Bool :=
  max addr.toNat wt.addr.toNat < min (addr.toNat + n) (wt.addr.toNat + wt.len)

/-- A watch is installed and the access triggers it (rule R90). -/
def Hart.watched (h : Hart xl) (addr : Word xl) (n : Nat) : Bool :=
  match h.params.watch with
  | none => false
  | some wt => wt.covers addr n

/-- What the host answers to a triggered watch (rule R91). -/
def watchVerdict (s : State) (a : Access) : WatchVerdict := Config.watchCallback s a

/-- The watch check on an access that has been performed: `h` is the hart the callback sees (rules R90, R91). -/
def Hart.watchCheck (h : Hart xl) (kind : AccessKind) (addr : Word xl) (bytes : List Byte) : Except Fault Unit :=
  if h.watched addr bytes.length then
    match watchVerdict ⟨xl, h⟩ ⟨addr.toNat, bytes.length, kind, bytes⟩ with
    | .cont => .ok ()
    | .halt code => .error (.halted code ⟨xl, h⟩)
  else .ok ()

/-- `MemRead(addr, n)`: range check, little-endian composition, watch check (rule R83). -/
def Hart.memRead (h : Hart xl) (kind : AccessKind) (addr : Word xl) (n : Nat) : Except Fault (BitVec (8 * n)) :=
  if h.inRange addr n then
    let bytes := h.mem.readBytes (h.index addr) n
    match h.watchCheck kind addr bytes with
    | .ok _ => .ok (BitVec.ofNat (8 * n) (leNat bytes))
    | .error f => .error f
  else .error (.memOutOfRange addr.toNat n ⟨xl, h⟩)

/-- `MemWrite(addr, n, v)`: range check, the `n` bytes of v low byte first, watch check with the bytes stored
(rule R84). -/
def Hart.memWrite (h : Hart xl) (addr : Word xl) (n : Nat) (v : BitVec (8 * n)) : Except Fault (Hart xl) :=
  if h.inRange addr n then
    let bytes := leBytes n v.toNat
    let stored := { h with mem := h.mem.writeBytes (h.index addr) bytes }
    match stored.watchCheck .store addr bytes with
    | .ok _ => .ok stored
    | .error f => .error f
  else .error (.memOutOfRange addr.toNat n ⟨xl, h⟩)

/-! ### The step's own operations (rule R50) -/

/-- Steps 1 and 2 of a machine step: the alignment of pc, then the 4-byte read at pc (rules R34, R50, R86). -/
def Hart.fetch (h : Hart xl) : Except Fault InstrWord :=
  if h.pc.extractLsb' 0 2 ≠ 0#2 then .error (.fetchMisaligned h.pc.toNat ⟨xl, h⟩)
  else h.memRead .fetch h.pc 4

/-- Step 5 of a machine step: a set flag keeps pc and all flags are cleared, else pc + 4 (rule R50). -/
def Hart.pcAdvance (h : Hart xl) : Hart xl :=
  if h.redirected then h.clearFlags else { h with pc := h.pc + 4 }

/-! ### From harts to states -/

/-- A meaning that always completes. -/
def State.apply (s : State) (f : Hart s.xlen → Hart s.xlen) : Result := .next ⟨s.xlen, f s.hart⟩

/-- A meaning that may end the run. -/
def State.attempt (s : State) (f : Hart s.xlen → Except Fault (Hart s.xlen)) : Result :=
  match f s.hart with
  | .ok h => .next ⟨s.xlen, h⟩
  | .error e => .fault e

/-- The meaning of an instruction that exists under a condition on XLEN; elsewhere it has no routine and is
`fatal Unsupported` of its word (rules R16, R139). DEDUCED, safe (log entry 10): no word decodes to it there. -/
def State.existsIf (s : State) (c : Bool) (i : Instr) (r : Result) : Result :=
  if c then r else .fault (.unsupported (encode i) s)

/-- The meaning of an instruction that exists only when XLEN = 64 (rule R139). -/
def State.rv64Only (s : State) (i : Instr) (r : Result) : Result := s.existsIf (s.xlen == .rv64) i r

/-! ### The loader (rules R340 to R342) -/

/-- The machine right after reset with a loader value: none when the image does not fit or the capacity is not positive,
in which case no CPU state is created (rules R7, R340 to R342; decision D35). -/
def State.boot (memCapacity watchLen : Nat) (l : LoaderValue xl) : Option State :=
  if 0 < memCapacity ∧ l.image.length ≤ memCapacity then
    some
      { xlen := xl
        hart :=
          { x := Vector.replicate 31 0
            pc := l.entry
            branchTaken := false
            jumpTaken := false
            trapTaken := false
            priv := .machine
            csrs := ⟨[]⟩
            mem := (Memory.mk []).writeBytes 0 l.image
            params :=
              { base := l.base
                memCapacity := memCapacity
                watch := l.watchAddr.map (fun a => ⟨a, watchLen⟩) } } }
  else none

/-- The hart with the four bytes of `w` where the next fetch reads them: a loader's placement of one word. -/
def Hart.placeWord (h : Hart xl) (w : Nat) : Hart xl :=
  { h with mem := h.mem.writeBytes (h.index h.pc) (leBytes 4 w) }

end Sys2Proof.Machine
end

