-- ==== Sys2Proof/Machine/Operands.lean ====
section
/-! DEFINITION. The operand forms: immediates extended to XLEN (rules R118 to R124), shift amounts (rule R162), the low
word of a register (40_integer.md section 5), effective addresses (rule R230), and the shared shapes of the families:
writing a result, branching, jumping, loading, storing, and accessing a CSR. -/

namespace Sys2Proof.Machine

variable {xl : Xlen}

/-! ### Extension (rule R12) -/

/-- `sext_XLEN`. -/
def sext (xl : Xlen) {k : Nat} (v : BitVec k) : Word xl := v.signExtend xl.bits

/-- `zext_XLEN`. -/
def zext (xl : Xlen) {k : Nat} (v : BitVec k) : Word xl := v.setWidth xl.bits

/-- `bool(c)`. -/
def boolWord (xl : Xlen) (c : Bool) : Word xl := if c then 1 else 0

/-! ### Immediates -/

/-- imm_I and imm_S from their 12 bits (rules R119, R120). -/
def imm12 (xl : Xlen) (imm : BitVec 12) : Word xl := sext xl imm

/-- imm_B from its 13 bits (rule R121). -/
def immB (xl : Xlen) (offset : BitVec 13) : Word xl := sext xl offset

/-- imm_U: the 20 bits over 12 zero bits, sign-extended from bit 31 (rule R122, decision D16). -/
def immU (xl : Xlen) (imm : BitVec 20) : Word xl := sext xl (imm ++ 0x000#12)

/-- imm_J from its 21 bits (rule R123). -/
def immJ (xl : Xlen) (offset : BitVec 21) : Word xl := sext xl offset

/-- zimm (rule R124). -/
def zimmWord (xl : Xlen) (zimm : BitVec 5) : Word xl := zext xl zimm

/-! ### Shift amounts and the low word -/

/-- The amount a register gives a shift of XLEN bits: its low 6 bits at XLEN = 64, its low 5 at XLEN = 32 (rule R162). -/
def shiftAmount (v : Word xl) : Nat := (v.extractLsb' 0 xl.shiftBits).toNat

/-- The amount a register gives a word shift: its low 5 bits (rule R162). -/
def shiftAmountW (v : Word xl) : Nat := (v.extractLsb' 0 5).toNat

/-- `lo(v)`, bits 31:0 (40_integer.md section 5). -/
def lo (v : Word xl) : BitVec 32 := v.extractLsb' 0 32

/-! ### Shapes shared by a family -/

/-- The effective address of a load or a store: base register plus displacement, modulo 2^XLEN (rule R230). -/
def Hart.ea (h : Hart xl) (rs1 : Reg) (imm : BitVec 12) : Word xl := h.getX rs1 + imm12 xl imm

/-- A taken branch redirects pc and sets branch_taken; one not taken writes nothing (rule R212). -/
def Hart.branch (h : Hart xl) (cond : Bool) (offset : BitVec 13) : Hart xl :=
  if cond then { h with pc := h.pc + immB xl offset, branchTaken := true } else h

/-- A jump: rd gets pc + 4, pc the target, jump_taken is set (rules R210, R211). The target is computed by the caller
before rd is written. -/
def Hart.jump (h : Hart xl) (rd : Reg) (target : Word xl) : Hart xl :=
  { h.setX rd (h.pc + 4) with pc := target, jumpTaken := true }

/-- A load of `n` bytes whose value is extended by `ext` (rule R231). -/
def Hart.load (h : Hart xl) (rd rs1 : Reg) (imm : BitVec 12) (n : Nat) (ext : BitVec (8 * n) → Word xl) :
    Except Fault (Hart xl) :=
  match h.memRead .load (h.ea rs1 imm) n with
  | .ok v => .ok (h.setX rd (ext v))
  | .error f => .error f

/-- A store of the low `n` bytes of x[rs2] (rule R239). -/
def Hart.store (h : Hart xl) (rs2 rs1 : Reg) (imm : BitVec 12) (n : Nat) : Except Fault (Hart xl) :=
  h.memWrite (h.ea rs1 imm) n ((h.getX rs2).setWidth (8 * n))

/-- A CSR instruction: the read check, then the write checks when the write is enabled, and only then the writes of the
CSR and of rd; a failed check raises IllegalInstruction and nothing else is written (rules R260, R302). -/
def Hart.csrAccess (h : Hart xl) (rd : Reg) (a : CsrAddr) (writeEnabled : Bool) (new : Word xl → Word xl) : Hart xl :=
  match h.csrRead a with
  | none => h.raiseIllegal
  | some old =>
    if writeEnabled then
      match h.csrWrite a (new old) with
      | none => h.raiseIllegal
      | some written => written.setX rd old
    else h.setX rd old

end Sys2Proof.Machine
end

