-- ==== Sys2Proof/Machine/Control.lean ====
section
/-! DEFINITION. The control transfer instructions (41_control.md). None checks the alignment of its target (rule R220). -/

namespace Sys2Proof.Machine

/-- JAL: link in rd, jump to pc + imm_J (rule R210). -/
def execJal (rd : Reg) (offset : BitVec 21) (s : State) : Result :=
  s.apply fun h => h.jump rd (h.pc + immJ s.xlen offset)

/-- JALR: link in rd, jump to x[rs1] + imm_I with bit 0 cleared, the old x[rs1] (rule R211). -/
def execJalr (rd rs1 : Reg) (imm : BitVec 12) (s : State) : Result :=
  s.apply fun h => h.jump rd ((h.getX rs1 + imm12 s.xlen imm) &&& ~~~(1 : Word s.xlen))

/-- BEQ: branch if equal (rules R212, R213). -/
def execBeq (rs1 rs2 : Reg) (offset : BitVec 13) (s : State) : Result :=
  s.apply fun h => h.branch (h.getX rs1 == h.getX rs2) offset

/-- BNE: branch if not equal (rules R212, R214). -/
def execBne (rs1 rs2 : Reg) (offset : BitVec 13) (s : State) : Result :=
  s.apply fun h => h.branch (h.getX rs1 != h.getX rs2) offset

/-- BLT: branch if less than, signed (rules R212, R215). -/
def execBlt (rs1 rs2 : Reg) (offset : BitVec 13) (s : State) : Result :=
  s.apply fun h => h.branch ((h.getX rs1).slt (h.getX rs2)) offset

/-- BGE: branch if greater or equal, signed (rules R212, R216). -/
def execBge (rs1 rs2 : Reg) (offset : BitVec 13) (s : State) : Result :=
  s.apply fun h => h.branch (!(h.getX rs1).slt (h.getX rs2)) offset

/-- BLTU: branch if less than, unsigned (rules R212, R217). -/
def execBltu (rs1 rs2 : Reg) (offset : BitVec 13) (s : State) : Result :=
  s.apply fun h => h.branch ((h.getX rs1).ult (h.getX rs2)) offset

/-- BGEU: branch if greater or equal, unsigned (rules R212, R218). -/
def execBgeu (rs1 rs2 : Reg) (offset : BitVec 13) (s : State) : Result :=
  s.apply fun h => h.branch (!(h.getX rs1).ult (h.getX rs2)) offset

end Sys2Proof.Machine
end

