-- ==== Sys2Proof/Machine/Integer.lean ====
section
/-! DEFINITION. The integer computational instructions (40_integer.md). None accesses memory or a CSR, sets a PC-advance flag or
raises an exception. -/

namespace Sys2Proof.Machine

/-- LUI: x[rd] <- imm_U (rule R164). -/
def execLui (rd : Reg) (imm : BitVec 20) (s : State) : Result :=
  s.apply fun h => h.setX rd (immU s.xlen imm)

/-- AUIPC: x[rd] <- pc + imm_U, pc the address of the AUIPC (rule R165). -/
def execAuipc (rd : Reg) (imm : BitVec 20) (s : State) : Result :=
  s.apply fun h => h.setX rd (h.pc + immU s.xlen imm)

/-- ADDI: addition of imm_I, modulo 2^XLEN (rule R166). -/
def execAddi (rd rs1 : Reg) (imm : BitVec 12) (s : State) : Result :=
  s.apply fun h => h.setX rd (h.getX rs1 + imm12 s.xlen imm)

/-- SLTI: signed comparison with imm_I (rule R167). -/
def execSlti (rd rs1 : Reg) (imm : BitVec 12) (s : State) : Result :=
  s.apply fun h => h.setX rd (boolWord s.xlen ((h.getX rs1).slt (imm12 s.xlen imm)))

/-- SLTIU: unsigned comparison with the sign-extended imm_I (rule R168). -/
def execSltiu (rd rs1 : Reg) (imm : BitVec 12) (s : State) : Result :=
  s.apply fun h => h.setX rd (boolWord s.xlen ((h.getX rs1).ult (imm12 s.xlen imm)))

/-- XORI: exclusive or with imm_I (rule R169). -/
def execXori (rd rs1 : Reg) (imm : BitVec 12) (s : State) : Result :=
  s.apply fun h => h.setX rd (h.getX rs1 ^^^ imm12 s.xlen imm)

/-- ORI: or with imm_I (rule R170). -/
def execOri (rd rs1 : Reg) (imm : BitVec 12) (s : State) : Result :=
  s.apply fun h => h.setX rd (h.getX rs1 ||| imm12 s.xlen imm)

/-- ANDI: and with imm_I (rule R171). -/
def execAndi (rd rs1 : Reg) (imm : BitVec 12) (s : State) : Result :=
  s.apply fun h => h.setX rd (h.getX rs1 &&& imm12 s.xlen imm)

/-- SLLI: logical left shift by shamt; an amount of XLEN or more does not exist (rules R172, R139). -/
def execSlli (rd rs1 : Reg) (shamt : BitVec 6) (s : State) : Result :=
  s.existsIf (shamtFits s.xlen shamt) (.slli rd rs1 shamt) (s.apply fun h => h.setX rd (h.getX rs1 <<< shamt.toNat))

/-- SRLI: logical right shift by shamt; an amount of XLEN or more does not exist (rules R173, R139). -/
def execSrli (rd rs1 : Reg) (shamt : BitVec 6) (s : State) : Result :=
  s.existsIf (shamtFits s.xlen shamt) (.srli rd rs1 shamt) (s.apply fun h => h.setX rd (h.getX rs1 >>> shamt.toNat))

/-- SRAI: arithmetic right shift by shamt; an amount of XLEN or more does not exist (rules R174, R139). -/
def execSrai (rd rs1 : Reg) (shamt : BitVec 6) (s : State) : Result :=
  s.existsIf (shamtFits s.xlen shamt) (.srai rd rs1 shamt) (s.apply fun h => h.setX rd ((h.getX rs1).sshiftRight shamt.toNat))

/-- ADD: addition modulo 2^XLEN (rule R175). -/
def execAdd (rd rs1 rs2 : Reg) (s : State) : Result :=
  s.apply fun h => h.setX rd (h.getX rs1 + h.getX rs2)

/-- SUB: subtraction modulo 2^XLEN (rule R176). -/
def execSub (rd rs1 rs2 : Reg) (s : State) : Result :=
  s.apply fun h => h.setX rd (h.getX rs1 - h.getX rs2)

/-- SLL: logical left shift by the masked x[rs2] (rule R177). -/
def execSll (rd rs1 rs2 : Reg) (s : State) : Result :=
  s.apply fun h => h.setX rd (h.getX rs1 <<< shiftAmount (h.getX rs2))

/-- SLT: signed comparison (rule R178). -/
def execSlt (rd rs1 rs2 : Reg) (s : State) : Result :=
  s.apply fun h => h.setX rd (boolWord s.xlen ((h.getX rs1).slt (h.getX rs2)))

/-- SLTU: unsigned comparison (rule R179). -/
def execSltu (rd rs1 rs2 : Reg) (s : State) : Result :=
  s.apply fun h => h.setX rd (boolWord s.xlen ((h.getX rs1).ult (h.getX rs2)))

/-- XOR: exclusive or (rule R180). -/
def execXor (rd rs1 rs2 : Reg) (s : State) : Result :=
  s.apply fun h => h.setX rd (h.getX rs1 ^^^ h.getX rs2)

/-- SRL: logical right shift by the masked x[rs2] (rule R181). -/
def execSrl (rd rs1 rs2 : Reg) (s : State) : Result :=
  s.apply fun h => h.setX rd (h.getX rs1 >>> shiftAmount (h.getX rs2))

/-- SRA: arithmetic right shift by the masked x[rs2] (rule R182). -/
def execSra (rd rs1 rs2 : Reg) (s : State) : Result :=
  s.apply fun h => h.setX rd ((h.getX rs1).sshiftRight (shiftAmount (h.getX rs2)))

/-- OR: bitwise or (rule R183). -/
def execOr (rd rs1 rs2 : Reg) (s : State) : Result :=
  s.apply fun h => h.setX rd (h.getX rs1 ||| h.getX rs2)

/-- AND: bitwise and (rule R184). -/
def execAnd (rd rs1 rs2 : Reg) (s : State) : Result :=
  s.apply fun h => h.setX rd (h.getX rs1 &&& h.getX rs2)

/-- ADDIW, XLEN = 64 only: 32-bit addition of imm_I, sign-extended (rules R185, R139). -/
def execAddiw (rd rs1 : Reg) (imm : BitVec 12) (s : State) : Result :=
  s.rv64Only (.addiw rd rs1 imm) (s.apply fun h => h.setX rd (sext s.xlen (lo (h.getX rs1) + lo (imm12 s.xlen imm))))

/-- SLLIW, XLEN = 64 only: 32-bit logical left shift, sign-extended (rules R186, R139). -/
def execSlliw (rd rs1 : Reg) (shamt : BitVec 5) (s : State) : Result :=
  s.rv64Only (.slliw rd rs1 shamt) (s.apply fun h => h.setX rd (sext s.xlen (lo (h.getX rs1) <<< shamt.toNat)))

/-- SRLIW, XLEN = 64 only: 32-bit logical right shift, sign-extended (rules R187, R139). -/
def execSrliw (rd rs1 : Reg) (shamt : BitVec 5) (s : State) : Result :=
  s.rv64Only (.srliw rd rs1 shamt) (s.apply fun h => h.setX rd (sext s.xlen (lo (h.getX rs1) >>> shamt.toNat)))

/-- SRAIW, XLEN = 64 only: 32-bit arithmetic right shift, sign-extended (rules R188, R139). -/
def execSraiw (rd rs1 : Reg) (shamt : BitVec 5) (s : State) : Result :=
  s.rv64Only (.sraiw rd rs1 shamt) (s.apply fun h => h.setX rd (sext s.xlen ((lo (h.getX rs1)).sshiftRight shamt.toNat)))

/-- ADDW, XLEN = 64 only: 32-bit addition, sign-extended (rules R189, R139). -/
def execAddw (rd rs1 rs2 : Reg) (s : State) : Result :=
  s.rv64Only (.addw rd rs1 rs2) (s.apply fun h => h.setX rd (sext s.xlen (lo (h.getX rs1) + lo (h.getX rs2))))

/-- SUBW, XLEN = 64 only: 32-bit subtraction, sign-extended (rules R190, R139). -/
def execSubw (rd rs1 rs2 : Reg) (s : State) : Result :=
  s.rv64Only (.subw rd rs1 rs2) (s.apply fun h => h.setX rd (sext s.xlen (lo (h.getX rs1) - lo (h.getX rs2))))

/-- SLLW, XLEN = 64 only: 32-bit logical left shift by x[rs2][4:0], sign-extended (rules R191, R139). -/
def execSllw (rd rs1 rs2 : Reg) (s : State) : Result :=
  s.rv64Only (.sllw rd rs1 rs2) (s.apply fun h => h.setX rd (sext s.xlen (lo (h.getX rs1) <<< shiftAmountW (h.getX rs2))))

/-- SRLW, XLEN = 64 only: 32-bit logical right shift by x[rs2][4:0], sign-extended (rules R192, R139). -/
def execSrlw (rd rs1 rs2 : Reg) (s : State) : Result :=
  s.rv64Only (.srlw rd rs1 rs2) (s.apply fun h => h.setX rd (sext s.xlen (lo (h.getX rs1) >>> shiftAmountW (h.getX rs2))))

/-- SRAW, XLEN = 64 only: 32-bit arithmetic right shift by x[rs2][4:0], sign-extended (rules R193, R139). -/
def execSraw (rd rs1 rs2 : Reg) (s : State) : Result :=
  s.rv64Only (.sraw rd rs1 rs2) (s.apply fun h => h.setX rd (sext s.xlen ((lo (h.getX rs1)).sshiftRight (shiftAmountW (h.getX rs2)))))

end Sys2Proof.Machine
end

