-- ==== Sys2Proof/Machine/LoadStore.lean ====
section
/-! DEFINITION. The loads and stores (42_load_store.md). -/

namespace Sys2Proof.Machine

/-- LB: byte, sign-extended (rules R231, R232). -/
def execLb (rd rs1 : Reg) (imm : BitVec 12) (s : State) : Result :=
  s.attempt fun h => h.load rd rs1 imm 1 (sext s.xlen)

/-- LH: halfword, sign-extended (rules R231, R233). -/
def execLh (rd rs1 : Reg) (imm : BitVec 12) (s : State) : Result :=
  s.attempt fun h => h.load rd rs1 imm 2 (sext s.xlen)

/-- LW: word, sign-extended (rules R231, R234). -/
def execLw (rd rs1 : Reg) (imm : BitVec 12) (s : State) : Result :=
  s.attempt fun h => h.load rd rs1 imm 4 (sext s.xlen)

/-- LD, XLEN = 64 only: doubleword (rules R231, R235, R139). -/
def execLd (rd rs1 : Reg) (imm : BitVec 12) (s : State) : Result :=
  s.rv64Only (.ld rd rs1 imm) (s.attempt fun h => h.load rd rs1 imm 8 (sext s.xlen))

/-- LBU: byte, zero-extended (rules R231, R236). -/
def execLbu (rd rs1 : Reg) (imm : BitVec 12) (s : State) : Result :=
  s.attempt fun h => h.load rd rs1 imm 1 (zext s.xlen)

/-- LHU: halfword, zero-extended (rules R231, R237). -/
def execLhu (rd rs1 : Reg) (imm : BitVec 12) (s : State) : Result :=
  s.attempt fun h => h.load rd rs1 imm 2 (zext s.xlen)

/-- LWU, XLEN = 64 only: word, zero-extended (rules R231, R238, R139). -/
def execLwu (rd rs1 : Reg) (imm : BitVec 12) (s : State) : Result :=
  s.rv64Only (.lwu rd rs1 imm) (s.attempt fun h => h.load rd rs1 imm 4 (zext s.xlen))

/-- SB: stores the low byte of x[rs2] (rules R239, R240). -/
def execSb (rs2 rs1 : Reg) (imm : BitVec 12) (s : State) : Result :=
  s.attempt fun h => h.store rs2 rs1 imm 1

/-- SH: stores the low halfword of x[rs2] (rules R239, R241). -/
def execSh (rs2 rs1 : Reg) (imm : BitVec 12) (s : State) : Result :=
  s.attempt fun h => h.store rs2 rs1 imm 2

/-- SW: stores the low word of x[rs2] (rules R239, R242). -/
def execSw (rs2 rs1 : Reg) (imm : BitVec 12) (s : State) : Result :=
  s.attempt fun h => h.store rs2 rs1 imm 4

/-- SD, XLEN = 64 only: stores the doubleword of x[rs2] (rules R239, R243, R139). -/
def execSd (rs2 rs1 : Reg) (imm : BitVec 12) (s : State) : Result :=
  s.rv64Only (.sd rs2 rs1 imm) (s.attempt fun h => h.store rs2 rs1 imm 8)

end Sys2Proof.Machine
end

