-- ==== Sys2Proof/Machine/MiscMem.lean ====
section
/-! DEFINITION. The memory-ordering instructions (43_misc_mem.md): every access is ordered already (rule R94), so both have no effect. -/

namespace Sys2Proof.Machine

/-- FENCE: no effect, whatever fm, pred and succ (rule R250). -/
def execFence (_fm _pred _succ : BitVec 4) (s : State) : Result :=
  s.apply fun h => h

/-- FENCE.I: no effect (rule R251). -/
def execFenceI (s : State) : Result :=
  s.apply fun h => h

end Sys2Proof.Machine
end

