-- ==== Sys2Proof/Machine/System.lean ====
section
/-! DEFINITION. The system instructions (44_system.md): CSR access, ECALL, EBREAK, MRET, SRET. -/

namespace Sys2Proof.Machine

/-- CSRRW: swaps in x[rs1], always written (rules R260, R261). -/
def execCsrrw (rd : Reg) (csr : CsrAddr) (rs1 : Reg) (s : State) : Result :=
  s.apply fun h => h.csrAccess rd csr true (fun _ => h.getX rs1)

/-- CSRRS: sets the bits of x[rs1], written unless the index rs1 is 0 (rules R260, R262). -/
def execCsrrs (rd : Reg) (csr : CsrAddr) (rs1 : Reg) (s : State) : Result :=
  s.apply fun h => h.csrAccess rd csr (rs1 != 0) (fun old => old ||| h.getX rs1)

/-- CSRRC: clears the bits of x[rs1], written unless the index rs1 is 0 (rules R260, R263). -/
def execCsrrc (rd : Reg) (csr : CsrAddr) (rs1 : Reg) (s : State) : Result :=
  s.apply fun h => h.csrAccess rd csr (rs1 != 0) (fun old => old &&& ~~~(h.getX rs1))

/-- CSRRWI: swaps in zimm, always written (rules R260, R264). -/
def execCsrrwi (rd : Reg) (csr : CsrAddr) (zimm : BitVec 5) (s : State) : Result :=
  s.apply fun h => h.csrAccess rd csr true (fun _ => zimmWord s.xlen zimm)

/-- CSRRSI: sets the bits of zimm, written unless zimm is 0 (rules R260, R265). -/
def execCsrrsi (rd : Reg) (csr : CsrAddr) (zimm : BitVec 5) (s : State) : Result :=
  s.apply fun h => h.csrAccess rd csr (zimm != 0) (fun old => old ||| zimmWord s.xlen zimm)

/-- CSRRCI: clears the bits of zimm, written unless zimm is 0 (rules R260, R266). -/
def execCsrrci (rd : Reg) (csr : CsrAddr) (zimm : BitVec 5) (s : State) : Result :=
  s.apply fun h => h.csrAccess rd csr (zimm != 0) (fun old => old &&& ~~~(zimmWord s.xlen zimm))

/-- ECALL: trap entry with code 8 + priv (rule R270). -/
def execEcall (s : State) : Result :=
  s.apply fun h => h.trap (Cause.environmentCall h.priv)

/-- EBREAK: `fatal EbreakUnmodelled(w)`, the effect the spec gives it (rule R271, decision D8). -/
def execEbreak (s : State) : Result :=
  .fault (.ebreakUnmodelled (encode .ebreak) s)

/-- SRET: return from a supervisor-mode trap (rule R277). -/
def execSret (s : State) : Result :=
  s.apply fun h => h.returnSupervisor

/-- MRET: return from a machine-mode trap (rule R276). -/
def execMret (s : State) : Result :=
  s.attempt fun h => h.returnMachine (encode .mret)

end Sys2Proof.Machine
end

