-- ==== Sys2Proof/Machine/Step.lean ====
section
/-! DEFINITION. One machine step: fetch, decode, execute, PC advance (rule R50), and the placement of one instruction
word where the next fetch reads it. -/

namespace Sys2Proof.Machine

/-- What the step makes of an instruction's outcome: step 5 of rule R50 after a completed instruction; a stop stays. -/
def Result.advance : Result → Result
  | .next s => .next ⟨s.xlen, s.hart.pcAdvance⟩
  | .fault f => .fault f
  | .refused r => .refused r

/-- One machine step (rules R50, R53). -/
def step (s : State) : Host.Outcome State Fault Refusal :=
  match s.hart.fetch with
  | .error f => .fault f
  | .ok w =>
    match decodeWord s.xlen w with
    | .error _ => .fault (.unsupported w s)
    | .ok i => Result.advance (exec i s)

/-- `s` with the instruction word `w` of `nbits` bits at the pc, where `step` fetches it. DEDUCED, safe (log entry 8). -/
def State.withFetchWord (s : State) (nbits w : Nat) : State :=
  ⟨s.xlen, s.hart.placeWord (w % 2 ^ nbits)⟩

end Sys2Proof.Machine
end

