-- ==== Sys2Proof/Safety.lean ====
section
/-! DEFINITION. The terms claims are stated in: what one hart keeps of another (frames), the effect of each shape of
instruction as a relation between the hart before and the hart after, the invariant of every run, and what a safe run is.
Nothing here is used by the step; addresses and bit numbers are written out from the spec, not taken from the meanings. -/

namespace Sys2Proof.Machine

variable {xl : Xlen}

/-! ### Frames -/

/-- Every general register reads as before. -/
def Hart.SameRegs (h t : Hart xl) : Prop := ∀ r, t.getX r = h.getX r

/-- `rd` reads `v` and every other register as before; with rd = x0 nothing is written (rule R31). -/
def Hart.RegWritten (h t : Hart xl) (rd : Reg) (v : Word xl) : Prop :=
  ∀ r, t.getX r = if r = rd ∧ r ≠ 0 then v else h.getX r

/-- Every CSR cell reads as before. -/
def Hart.SameCsrs (h t : Hart xl) : Prop := ∀ a, t.csr a = h.csr a

/-- Every byte of memory reads as before. -/
def Hart.SameBytes (h t : Hart xl) : Prop := ∀ idx, t.mem.get idx = h.mem.get idx

/-- The three PC-advance flags are as before. -/
def Hart.SameFlags (h t : Hart xl) : Prop :=
  t.branchTaken = h.branchTaken ∧ t.jumpTaken = h.jumpTaken ∧ t.trapTaken = h.trapTaken

/-! ### Effects -/

/-- Nothing but `rd` changes: an integer instruction (40_integer.md) or a load (rule R231). -/
structure Hart.WritesReg (h t : Hart xl) (rd : Reg) (v : Word xl) : Prop where
  regs : h.RegWritten t rd v
  pc : t.pc = h.pc
  flags : h.SameFlags t
  priv : t.priv = h.priv
  csrs : h.SameCsrs t
  bytes : h.SameBytes t
  params : t.params = h.params

/-- A jump: `rd` gets the link, pc the target, jump_taken is set (rules R210, R211). -/
structure Hart.JumpsTo (h t : Hart xl) (rd : Reg) (link target : Word xl) : Prop where
  regs : h.RegWritten t rd link
  pc : t.pc = target
  jump : t.jumpTaken = true
  branch : t.branchTaken = h.branchTaken
  trap : t.trapTaken = h.trapTaken
  priv : t.priv = h.priv
  csrs : h.SameCsrs t
  bytes : h.SameBytes t
  params : t.params = h.params

/-- A branch: taken, it sets pc to pc + offset and branch_taken; not taken, it writes nothing (rule R212). -/
structure Hart.Branches (h t : Hart xl) (taken : Prop) (offset : Int) : Prop where
  target : taken → t.pc.toInt = (h.pc.toInt + offset).bmod (2 ^ xl.bits) ∧ t.branchTaken = true
  fallThrough : ¬ taken → t.pc = h.pc ∧ t.branchTaken = h.branchTaken
  jump : t.jumpTaken = h.jumpTaken
  trap : t.trapTaken = h.trapTaken
  regs : h.SameRegs t
  priv : t.priv = h.priv
  csrs : h.SameCsrs t
  bytes : h.SameBytes t
  params : t.params = h.params

/-- The little-endian value of the `n` bytes from index `idx`: the sum of rule R83. -/
def Hart.bytesValue (h : Hart xl) (idx n : Nat) : Nat :=
  ((List.range n).map fun k => (h.mem.get (idx + k)).toNat * 2 ^ (8 * k)).sum

/-- The `n` low bytes of `v` are stored from index `idx` on, low byte first, and nothing else changes (rules R84, R239). -/
structure Hart.Stores (h t : Hart xl) (idx n : Nat) (v : Word xl) : Prop where
  stored : ∀ k, k < n → t.mem.get (idx + k) = v.extractLsb' (8 * k) 8
  otherBytes : ∀ j, (j < idx ∨ idx + n ≤ j) → t.mem.get j = h.mem.get j
  regs : h.SameRegs t
  pc : t.pc = h.pc
  flags : h.SameFlags t
  priv : t.priv = h.priv
  csrs : h.SameCsrs t
  params : t.params = h.params

/-- `CSR[a]` becomes `new`, `rd` gets `old`, and nothing else changes (rule R260). -/
structure Hart.WritesCsr (h t : Hart xl) (rd : Reg) (old : Word xl) (a : CsrAddr) (new : Word xl) : Prop where
  regs : h.RegWritten t rd old
  csrs : ∀ b, t.csr b = if b = a then new else h.csr b
  pc : t.pc = h.pc
  flags : h.SameFlags t
  priv : t.priv = h.priv
  bytes : h.SameBytes t
  params : t.params = h.params

/-- Trap entry with `code`: mepc (0x341) gets pc, mcause (0x342) the code, in mstatus (0x300) MPIE (7) gets MIE (3), MIE
gets 0 and MPP (12:11) the old level, the privilege is Machine, pc is mtvec (0x305) with bits 1:0 cleared, trap_taken is
set, and nothing else changes (rules R306, R310, R311). -/
structure Hart.TakesTrap (h t : Hart xl) (code : Nat) : Prop where
  mepc : t.csr 0x341#12 = h.pc
  mcause : (t.csr 0x342#12).toNat = code
  mstatus : ∀ j, (t.csr 0x300#12).getLsbD j =
    if j = 7 then (h.csr 0x300#12).getLsbD 3
    else if j = 3 then false
    else if j = 11 then h.priv.bits.getLsbD 0
    else if j = 12 then h.priv.bits.getLsbD 1
    else (h.csr 0x300#12).getLsbD j
  otherCsrs : ∀ a, a ≠ 0x341#12 → a ≠ 0x342#12 → a ≠ 0x300#12 → t.csr a = h.csr a
  priv : t.priv = .machine
  pc : t.pc.toNat = (h.csr 0x305#12).toNat / 4 * 4
  trap : t.trapTaken = true
  branch : t.branchTaken = h.branchTaken
  jump : t.jumpTaken = h.jumpTaken
  regs : h.SameRegs t
  bytes : h.SameBytes t
  params : t.params = h.params

/-- MRET's transition to level `p`: MIE (3) gets MPIE (7), MPIE gets 1, MPP (12:11) and MPRV (17) get 0, pc is mepc
(0x341), trap_taken is set, and nothing else changes (rule R276). -/
structure Hart.ReturnsFromMachine (h t : Hart xl) (p : Priv) : Prop where
  mstatus : ∀ j, (t.csr 0x300#12).getLsbD j =
    if j = 3 then (h.csr 0x300#12).getLsbD 7
    else if j = 7 then true
    else if j = 11 ∨ j = 12 ∨ j = 17 then false
    else (h.csr 0x300#12).getLsbD j
  otherCsrs : ∀ a, a ≠ 0x300#12 → t.csr a = h.csr a
  priv : t.priv = p
  pc : t.pc = h.csr 0x341#12
  trap : t.trapTaken = true
  branch : t.branchTaken = h.branchTaken
  jump : t.jumpTaken = h.jumpTaken
  regs : h.SameRegs t
  bytes : h.SameBytes t
  params : t.params = h.params

/-- SRET's transition: SIE (1) gets SPIE (5), SPIE gets 1, SPP (8) and MPRV (17) get 0, the privilege is S or U as SPP
was 1 or 0, pc is sepc (0x141), trap_taken is set, and nothing else changes (rule R277). -/
structure Hart.ReturnsFromSupervisor (h t : Hart xl) : Prop where
  mstatus : ∀ j, (t.csr 0x300#12).getLsbD j =
    if j = 1 then (h.csr 0x300#12).getLsbD 5
    else if j = 5 then true
    else if j = 8 ∨ j = 17 then false
    else (h.csr 0x300#12).getLsbD j
  otherCsrs : ∀ a, a ≠ 0x300#12 → t.csr a = h.csr a
  priv : t.priv = if (h.csr 0x300#12).getLsbD 8 then .supervisor else .user
  pc : t.pc = h.csr 0x141#12
  trap : t.trapTaken = true
  branch : t.branchTaken = h.branchTaken
  jump : t.jumpTaken = h.jumpTaken
  regs : h.SameRegs t
  bytes : h.SameBytes t
  params : t.params = h.params

/-! ### Conditions -/

/-- The access lies in the array: index and length on unbounded integers (rules R80, R82). -/
def Hart.Fits (h : Hart xl) (addr : Word xl) (n : Nat) : Prop :=
  (addr - h.params.base).toNat + n ≤ h.params.memCapacity

/-- A watch is installed and its range meets the access (rule R90). -/
def Hart.Watches (h : Hart xl) (addr : Word xl) (n : Nat) : Prop :=
  ∃ wt, h.params.watch = some wt ∧
    ∃ b : Nat, addr.toNat ≤ b ∧ b < addr.toNat + n ∧ wt.addr.toNat ≤ b ∧ b < wt.addr.toNat + wt.len

/-- The level may access the CSR: the privilege field csr[9:8] is at most the level's ordinal (rules R37, R300). -/
def CsrAccessible (p : Priv) (a : CsrAddr) : Prop := a.toNat / 256 % 4 ≤ p.bits.toNat

/-- The CSR is read-only: csr[11:10] = 0b11 (rule R300). -/
def CsrReadOnly (a : CsrAddr) : Prop := a.toNat / 1024 = 3

end Sys2Proof.Machine

namespace Sys2Proof

/-! ### Classes of instructions -/

/-- The CSR an instruction writes when its checks pass: none for a form whose write is suppressed (rule R260). -/
def Instr.csrWritten : Instr → Option CsrAddr
  | .csrrw _ a _ | .csrrwi _ a _ => some a
  | .csrrs _ a r | .csrrc _ a r | .csrrsi _ a r | .csrrci _ a r => if r = 0 then none else some a
  | .lui _ _ | .auipc _ _ | .jal _ _ | .jalr _ _ _ => none
  | .beq _ _ _ | .bne _ _ _ | .blt _ _ _ | .bge _ _ _ | .bltu _ _ _ | .bgeu _ _ _ => none
  | .lb _ _ _ | .lh _ _ _ | .lw _ _ _ | .ld _ _ _ | .lbu _ _ _ | .lhu _ _ _ | .lwu _ _ _ => none
  | .sb _ _ _ | .sh _ _ _ | .sw _ _ _ | .sd _ _ _ => none
  | .addi _ _ _ | .slti _ _ _ | .sltiu _ _ _ | .xori _ _ _ | .ori _ _ _ | .andi _ _ _ => none
  | .slli _ _ _ | .srli _ _ _ | .srai _ _ _ => none
  | .add _ _ _ | .sub _ _ _ | .sll _ _ _ | .slt _ _ _ | .sltu _ _ _ => none
  | .xor _ _ _ | .srl _ _ _ | .sra _ _ _ | .or _ _ _ | .and _ _ _ => none
  | .addiw _ _ _ | .slliw _ _ _ | .srliw _ _ _ | .sraiw _ _ _ => none
  | .addw _ _ _ | .subw _ _ _ | .sllw _ _ _ | .srlw _ _ _ | .sraw _ _ _ => none
  | .fence _ _ _ | .fenceI | .ecall | .ebreak | .sret | .mret => none

/-- The SYSTEM instructions, whose behaviour the privilege level gates (rules R38, R325). -/
def Instr.isSystem : Instr → Bool
  | .csrrw _ _ _ | .csrrs _ _ _ | .csrrc _ _ _ | .csrrwi _ _ _ | .csrrsi _ _ _ | .csrrci _ _ _ => true
  | .ecall | .ebreak | .sret | .mret => true
  | .lui _ _ | .auipc _ _ | .jal _ _ | .jalr _ _ _ => false
  | .beq _ _ _ | .bne _ _ _ | .blt _ _ _ | .bge _ _ _ | .bltu _ _ _ | .bgeu _ _ _ => false
  | .lb _ _ _ | .lh _ _ _ | .lw _ _ _ | .ld _ _ _ | .lbu _ _ _ | .lhu _ _ _ | .lwu _ _ _ => false
  | .sb _ _ _ | .sh _ _ _ | .sw _ _ _ | .sd _ _ _ => false
  | .addi _ _ _ | .slti _ _ _ | .sltiu _ _ _ | .xori _ _ _ | .ori _ _ _ | .andi _ _ _ => false
  | .slli _ _ _ | .srli _ _ _ | .srai _ _ _ => false
  | .add _ _ _ | .sub _ _ _ | .sll _ _ _ | .slt _ _ _ | .sltu _ _ _ => false
  | .xor _ _ _ | .srl _ _ _ | .sra _ _ _ | .or _ _ _ | .and _ _ _ => false
  | .addiw _ _ _ | .slliw _ _ _ | .srliw _ _ _ | .sraiw _ _ _ => false
  | .addw _ _ _ | .subw _ _ _ | .sllw _ _ _ | .srlw _ _ _ | .sraw _ _ _ => false
  | .fence _ _ _ | .fenceI => false

/-- The instructions that write memory (rule R87). -/
def Instr.isStore : Instr → Bool
  | .sb _ _ _ | .sh _ _ _ | .sw _ _ _ | .sd _ _ _ => true
  | .csrrw _ _ _ | .csrrs _ _ _ | .csrrc _ _ _ | .csrrwi _ _ _ | .csrrsi _ _ _ | .csrrci _ _ _ => false
  | .ecall | .ebreak | .sret | .mret => false
  | .lui _ _ | .auipc _ _ | .jal _ _ | .jalr _ _ _ => false
  | .beq _ _ _ | .bne _ _ _ | .blt _ _ _ | .bge _ _ _ | .bltu _ _ _ | .bgeu _ _ _ => false
  | .lb _ _ _ | .lh _ _ _ | .lw _ _ _ | .ld _ _ _ | .lbu _ _ _ | .lhu _ _ _ | .lwu _ _ _ => false
  | .addi _ _ _ | .slti _ _ _ | .sltiu _ _ _ | .xori _ _ _ | .ori _ _ _ | .andi _ _ _ => false
  | .slli _ _ _ | .srli _ _ _ | .srai _ _ _ => false
  | .add _ _ _ | .sub _ _ _ | .sll _ _ _ | .slt _ _ _ | .sltu _ _ _ => false
  | .xor _ _ _ | .srl _ _ _ | .sra _ _ _ | .or _ _ _ | .and _ _ _ => false
  | .addiw _ _ _ | .slliw _ _ _ | .srliw _ _ _ | .sraiw _ _ _ => false
  | .addw _ _ _ | .subw _ _ _ | .sllw _ _ _ | .srlw _ _ _ | .sraw _ _ _ => false
  | .fence _ _ _ | .fenceI => false

end Sys2Proof

namespace Sys2Proof.Machine

/-! ### Watched accesses -/

/-- The load `i` of `n` bytes at `ea` asks the host with nothing written yet: on Continue it completes as an unwatched load
does, rd getting a value of which `value` holds; on Halt(code) the run ends in the state it started from (rules R83, R90, R91). -/
def Hart.LoadAsks (h : Hart xl) (i : Instr) (rd : Reg) (ea : Word xl) (n : Nat) (value : Word xl → Prop) : Prop :=
  ∃ v t, h.WritesReg t rd v ∧ value v ∧
    exec i ⟨xl, h⟩ =
      match Config.watchCallback ⟨xl, h⟩
        ⟨ea.toNat, n, .load, (List.range n).map fun k => h.mem.get ((ea - h.params.base).toNat + k)⟩ with
      | .cont => .next ⟨xl, t⟩
      | .halt code => .fault (.halted code ⟨xl, h⟩)

/-- The store `i` of the `n` low bytes of `v` at `ea` asks the host with its bytes stored: on Continue it completes as an
unwatched store does; on Halt(code) the run ends with the bytes stored (rules R84, R90, R91). -/
def Hart.StoreAsks (h : Hart xl) (i : Instr) (ea : Word xl) (n : Nat) (v : Word xl) : Prop :=
  ∃ t, h.Stores t (ea - h.params.base).toNat n v ∧
    exec i ⟨xl, h⟩ =
      match Config.watchCallback ⟨xl, t⟩
        ⟨ea.toNat, n, .store, (List.range n).map fun k => v.extractLsb' (8 * k) 8⟩ with
      | .cont => .next ⟨xl, t⟩
      | .halt code => .fault (.halted code ⟨xl, t⟩)

/-! ### Runs -/

/-- The state a stop carries. -/
def Fault.frozen : Fault → State
  | .unsupported _ s | .memOutOfRange _ _ s | .fetchMisaligned _ s => s
  | .ebreakUnmodelled _ s | .reservedPrivilege _ s | .halted _ s => s

/-- The same stop, for the same reason and with the same info, in another state. -/
def Fault.inState (s : State) : Fault → Fault
  | .unsupported w _ => .unsupported w s
  | .memOutOfRange addr n _ => .memOutOfRange addr n s
  | .fetchMisaligned pc _ => .fetchMisaligned pc s
  | .ebreakUnmodelled w _ => .ebreakUnmodelled w s
  | .reservedPrivilege w _ => .reservedPrivilege w s
  | .halted code _ => .halted code s

/-- The stop is Halted, not one of the Fatal reasons (rule R15). -/
def Fault.isHalted : Fault → Bool
  | .halted _ _ => true
  | .unsupported _ _ | .memOutOfRange _ _ _ | .fetchMisaligned _ _ => false
  | .ebreakUnmodelled _ _ | .reservedPrivilege _ _ => false

/-- The invariant of every run: memory and the CSR bank are in canonical form and inside their bounds (rules R40, R49),
the read-only CSRs read 0 (rule R48), and the three flags are 0 between instructions (rule R35). -/
structure State.Inv (s : State) : Prop where
  memory : s.hart.mem.wf
  memoryBound : ∀ c ∈ s.hart.mem.cells, c.1 < s.hart.params.memCapacity
  csrs : s.hart.csrs.wf
  csrsBound : ∀ c ∈ s.hart.csrs.cells, c.1 < 4096
  readOnlyZero : ∀ a, CsrReadOnly a → s.hart.csr a = 0
  flags : s.hart.branchTaken = false ∧ s.hart.jumpTaken = false ∧ s.hart.trapTaken = false

/-- A safe step: it answers a next state. -/
def State.StepsSafely (s : State) : Prop := ∃ t, step s = .next t

end Sys2Proof.Machine
end

