-- ==== Sys2Proof/Certificates/Slice0/Obligations.lean ====
section
/-! DEFINITION. The statements for the provers. Each docstring names the rules it formalises and, where a clause rests on
one of the spec's own decisions (D<n> of 92_eei_decisions.md), names it. All hold at both register widths unless the
width is written. -/

open Sys2Proof Sys2Proof.Machine

/-! ### Encoding -/

/-- Words written out from the spec's encodings decode to their instructions (rules R126 to R138; the words of R164, R174,
R176, R210, R262, R276 and, for SW and BEQ, the immediates table of 95_test_vectors.md); and an RV64-only word, ADDIW x2, x1, 0,
is Unsupported at XLEN = 32 (rule R139, decision D11; the word of 95_test_vectors.md). -/
def Obligations.SpecWordsDecode : Prop :=
  decodeWord .rv64 0x123452B7#32 = .ok (.lui 5 0x12345) ∧
  decodeWord .rv32 0x008000EF#32 = .ok (.jal 1 8) ∧
  decodeWord .rv64 0x80000063#32 = .ok (.beq 0 0 0x1000) ∧
  decodeWord .rv64 0x8020A023#32 = .ok (.sw 2 1 0x800) ∧
  decodeWord .rv32 0x402081B3#32 = .ok (.sub 3 1 2) ∧
  decodeWord .rv64 0x43F15093#32 = .ok (.srai 1 2 63) ∧
  decodeWord .rv64 0x305022F3#32 = .ok (.csrrs 5 0x305 0) ∧
  decodeWord .rv32 0x30200073#32 = .ok .mret ∧
  decodeWord .rv32 0x0000811B#32 = .error (.unsupported 0x0000811B#32)

/-- Decoding the word of a well-formed instruction gives the instruction back, at either width and with every operand at
every value its encoding admits (30_encoding.md sections 2 to 4). -/
def Obligations.DecodeOfEncode : Prop :=
  ∀ (xl : Xlen) (i : Instr), WellFormed xl i = true → decodeWord xl (encode i) = .ok i

/-- What decodes is well formed and encodes back to its word, so that no two words share an instruction and every bit of an
accepted word is accounted for (30_encoding.md sections 2 to 4). -/
def Obligations.EncodeOfDecode : Prop :=
  ∀ (xl : Xlen) (w : InstrWord) (i : Instr), decodeWord xl w = .ok i → WellFormed xl i = true ∧ encode i = w

/-- The decoder and the opcode table agree on every word: what decodes matches a row with the instruction's mnemonic and
format, and a word that a row accepts decodes to an instruction of that row (INDEX.md "Reading the opcode table"; rules R125, R140). -/
def Obligations.DecodeAgreesWithOpcodeTable : Prop :=
  ∀ (xl : Xlen) (w : InstrWord),
    (∀ i, decodeWord xl w = .ok i →
      ∃ row ∈ opcodeTable, row.mnemonic = i.mnemonic ∧ row.format = i.format ∧ row.accepts xl w = true) ∧
    (∀ row ∈ opcodeTable, row.accepts xl w = true →
      ∃ i, decodeWord xl w = .ok i ∧ row.mnemonic = i.mnemonic ∧ row.format = i.format)

/-- The immediates of the five formats come back from their encodings as the signed values they stand for, over each
format's whole range, and imm_U over the multiples of 4096 (rules R119 to R123, R141; R122 rests on decision D16). -/
def Obligations.ImmediateRoundTrip : Prop :=
  ∀ (xl : Xlen) (v : Int) (r1 r2 rd : Reg) (f3 : BitVec 3) (op : BitVec 7),
    (-2048 ≤ v ∧ v ≤ 2047 →
      ((fieldImmI (encodeI (BitVec.ofInt 12 v) r1 f3 rd op)).signExtend xl.bits).toInt = v ∧
      ((fieldImmS (encodeS (BitVec.ofInt 12 v) r2 r1 f3)).signExtend xl.bits).toInt = v) ∧
    (-4096 ≤ v ∧ v ≤ 4094 ∧ v % 2 = 0 →
      ((fieldImmB (encodeB (BitVec.ofInt 13 v) r2 r1 f3)).signExtend xl.bits).toInt = v) ∧
    (-1048576 ≤ v ∧ v ≤ 1048574 ∧ v % 2 = 0 →
      ((fieldImmJ (encodeJ (BitVec.ofInt 21 v) rd)).signExtend xl.bits).toInt = v) ∧
    (-2147483648 ≤ v ∧ v ≤ 2147479552 ∧ v % 4096 = 0 →
      (immU xl (fieldImmU (encodeU (BitVec.ofInt 20 (v / 4096)) rd op))).toInt = v)

/-- A word whose primary opcode is none of the thirteen is UNSUPPORTED at either width (rules R126, R127). -/
def Obligations.UnrecognisedOpcodesAreUnsupported : Prop :=
  ∀ (xl : Xlen) (w : InstrWord),
    w.toNat % 128 ∉ [0x03, 0x0F, 0x13, 0x17, 0x1B, 0x23, 0x33, 0x37, 0x3B, 0x63, 0x67, 0x6F, 0x73] →
      decodeWord xl w = .error (.unsupported w)

/-- What the decoder accepts at XLEN = 32 it accepts at XLEN = 64 as the same instruction; and at XLEN = 32 it rejects
OP-IMM-32, OP-32, LD, LWU, SD and every shift-immediate with w[25] = 1 (rule R139, decision D11). -/
def Obligations.Rv32RejectsRv64Words : Prop :=
  ∀ w : InstrWord,
    (∀ i, decodeWord .rv32 w = .ok i → decodeWord .rv64 w = .ok i) ∧
    ((w.toNat % 128 = 0x1B ∨ w.toNat % 128 = 0x3B ∨
        (w.toNat % 128 = 0x03 ∧ (w.toNat / 4096 % 8 = 3 ∨ w.toNat / 4096 % 8 = 6)) ∨
        (w.toNat % 128 = 0x23 ∧ w.toNat / 4096 % 8 = 3) ∨
        (w.toNat % 128 = 0x13 ∧ (w.toNat / 4096 % 8 = 1 ∨ w.toNat / 4096 % 8 = 5) ∧ w.toNat / 2 ^ 25 % 2 = 1)) →
      decodeWord .rv32 w = .error (.unsupported w))

/-! ### The step -/

/-- A step runs the decoded instruction: at an aligned pc whose four bytes lie in the array, when no watch stops the
fetch and the little-endian word there decodes to `i`, the step is `exec i` with the PC advance: a flag set keeps pc and all
flags are cleared, else pc + 4; a stop of `exec` is the step's (rule R50). -/
def Obligations.StepRunsTheDecodedInstruction : Prop :=
  ∀ (xl : Xlen) (h : Hart xl) (i : Instr),
    h.pc.toNat % 4 = 0 → h.Fits h.pc 4 → ¬ h.Watches h.pc 4 →
    decodeWord xl (BitVec.ofNat 32 (h.bytesValue (h.pc - h.params.base).toNat 4)) = .ok i →
    (∀ t : Hart xl, exec i ⟨xl, h⟩ = .next ⟨xl, t⟩ →
      step ⟨xl, h⟩ = .next ⟨xl,
        { t with
          pc := if t.branchTaken || t.jumpTaken || t.trapTaken then t.pc else t.pc + 4
          branchTaken := false, jumpTaken := false, trapTaken := false }⟩) ∧
    (∀ f, exec i ⟨xl, h⟩ = .fault f → step ⟨xl, h⟩ = .fault f)

/-- Where a step stops before it executes, in the order of rule R308: a misaligned pc; then a fetch outside the array; then
a word the decoder rejects. The state is frozen as it was (rules R15, R50, R82, R142; decisions D9, D19, D26). -/
def Obligations.StepStopsBeforeExecuting : Prop :=
  ∀ (xl : Xlen) (h : Hart xl),
    (h.pc.toNat % 4 ≠ 0 → step ⟨xl, h⟩ = .fault (.fetchMisaligned h.pc.toNat ⟨xl, h⟩)) ∧
    (h.pc.toNat % 4 = 0 → ¬ h.Fits h.pc 4 → step ⟨xl, h⟩ = .fault (.memOutOfRange h.pc.toNat 4 ⟨xl, h⟩)) ∧
    (∀ w, h.pc.toNat % 4 = 0 → h.Fits h.pc 4 → ¬ h.Watches h.pc 4 →
      w = BitVec.ofNat 32 (h.bytesValue (h.pc - h.params.base).toNat 4) →
      decodeWord xl w = .error (.unsupported w) →
      step ⟨xl, h⟩ = .fault (.unsupported w ⟨xl, h⟩))

/-- A fetch that a watch meets asks the host, with nothing written: Halt(code) ends the run there, Continue goes on to the
decode of the word and the instruction (rules R50, R83, R90, R91, R345; decision D15). -/
def Obligations.WatchedFetchAsksTheHost : Prop :=
  ∀ (xl : Xlen) (h : Hart xl) (w : InstrWord),
    h.pc.toNat % 4 = 0 → h.Fits h.pc 4 → h.Watches h.pc 4 →
    w = BitVec.ofNat 32 (h.bytesValue (h.pc - h.params.base).toNat 4) →
    step ⟨xl, h⟩ =
      match Config.watchCallback ⟨xl, h⟩
        ⟨h.pc.toNat, 4, .fetch, (List.range 4).map fun k => h.mem.get ((h.pc - h.params.base).toNat + k)⟩ with
      | .halt code => .fault (.halted code ⟨xl, h⟩)
      | .cont =>
        match decodeWord xl w with
        | .ok i => Result.advance (exec i ⟨xl, h⟩)
        | .error _ => .fault (.unsupported w ⟨xl, h⟩)

/-- After every step the three PC-advance flags are 0 (rules R35, R50). -/
def Obligations.FlagsAreClearAfterEveryStep : Prop :=
  ∀ s t : State, step s = .next t →
    t.hart.branchTaken = false ∧ t.hart.jumpTaken = false ∧ t.hart.trapTaken = false

/-- The invariant holds at reset (rules R35, R40, R48, R49, R340; the parameters of the reset state are log entries 1 to 4). -/
def Obligations.ResetMeetsTheInvariant : Prop := State.reset.Inv

/-- The invariant holds at the boot of every image a loader can place (rules R340, R342). -/
def Obligations.BootMeetsTheInvariant : Prop :=
  ∀ (xl : Xlen) (cap watchLen : Nat) (l : LoaderValue xl) (s : State), State.boot cap watchLen l = some s → s.Inv

/-- Every step keeps the invariant: memory and the CSR bank stay canonical and in bounds, the read-only CSRs keep reading 0
(rules R48, R330), the flags are 0 between instructions (rule R35). -/
def Obligations.StepKeepsTheInvariant : Prop :=
  ∀ s t : State, s.Inv → step s = .next t → t.Inv

/-- No step changes XLEN, BASE, MEM_CAPACITY or the watch (rules R6, R51, R54). -/
def Obligations.StepKeepsTheParameters : Prop :=
  ∀ (xl : Xlen) (h : Hart xl) (t : State), step ⟨xl, h⟩ = .next t →
    ∃ h' : Hart xl, t = ⟨xl, h'⟩ ∧ h'.params = h.params

/-- Neither an instruction nor a step is ever refused: each answers a next state or one of the spec's stops (rule R15). -/
def Obligations.NothingIsRefused : Prop :=
  (∀ (i : Instr) (s : State) (r : Refusal), exec i s ≠ .refused r) ∧ (∀ (s : State) (r : Refusal), step s ≠ .refused r)

/-- A Fatal stop freezes the state as it was before the step: no instruction writes anything before a check of its own fails
(rules R14, R50, R346). -/
def Obligations.FatalStopsLeaveTheStateUnchanged : Prop :=
  ∀ (s : State) (f : Fault), step s = .fault f → f.isHalted = false → f.frozen = s

/-- Only the SYSTEM instructions change the privilege level (rules R38, R326). -/
def Obligations.OnlySystemInstructionsChangePrivilege : Prop :=
  ∀ (xl : Xlen) (h t : Hart xl) (i : Instr), i.isSystem = false → exec i ⟨xl, h⟩ = .next ⟨xl, t⟩ → t.priv = h.priv

/-- Every other instruction behaves the same at all three levels: run at another level it makes the same changes and stops
for the same reason (rules R38, R325; no watch, since the host's callback may read the level). -/
def Obligations.PrivilegeGatesOnlySystemInstructions : Prop :=
  ∀ (xl : Xlen) (h : Hart xl) (p : Priv) (i : Instr), i.isSystem = false → h.params.watch = none →
    (∀ t : Hart xl, exec i ⟨xl, h⟩ = .next ⟨xl, t⟩ →
      exec i ⟨xl, { h with priv := p }⟩ = .next ⟨xl, { t with priv := p }⟩) ∧
    (∀ f, exec i ⟨xl, h⟩ = .fault f → exec i ⟨xl, { h with priv := p }⟩ = .fault (f.inState ⟨xl, { h with priv := p }⟩))

/-- Only the four stores change memory (rules R87, R89). -/
def Obligations.OnlyStoresChangeMemory : Prop :=
  ∀ (xl : Xlen) (h t : Hart xl) (i : Instr), i.isStore = false → exec i ⟨xl, h⟩ = .next ⟨xl, t⟩ → h.SameBytes t

/-- A CSR cell other than mstatus (0x300), mepc (0x341) and mcause (0x342) changes only by a CSR instruction that names it
with its write enabled: no hardware rule writes sepc or any other cell (rules R47, R48, R321). -/
def Obligations.OnlyCsrInstructionsWriteOtherCsrs : Prop :=
  ∀ (xl : Xlen) (h t : Hart xl) (i : Instr) (a : CsrAddr), a ≠ 0x300#12 → a ≠ 0x341#12 → a ≠ 0x342#12 →
    i.csrWritten ≠ some a → exec i ⟨xl, h⟩ = .next ⟨xl, t⟩ → t.csr a = h.csr a

/-- Boot: a state is created exactly when the image fits a positive capacity, and then it is the reset state of rule R340: pc
at ENTRY, every register and CSR 0, Machine level, the flags 0, the image from index 0 and 0 beyond, the watch installed
iff the loader resolved an address (rules R340 to R342; decisions D14, D35). -/
def Obligations.BootIsTheResetState : Prop :=
  ∀ (xl : Xlen) (cap watchLen : Nat) (l : LoaderValue xl),
    (State.boot cap watchLen l = none ↔ ¬ (0 < cap ∧ l.image.length ≤ cap)) ∧
    (∀ s, State.boot cap watchLen l = some s →
      ∃ h : Hart xl, s = ⟨xl, h⟩ ∧ h.pc = l.entry ∧ (∀ r, h.getX r = 0) ∧ (∀ a, h.csr a = 0) ∧ h.priv = .machine ∧
        h.branchTaken = false ∧ h.jumpTaken = false ∧ h.trapTaken = false ∧
        (∀ k, h.mem.get k = l.image.getD k 0) ∧
        h.params.base = l.base ∧ h.params.memCapacity = cap ∧
        h.params.watch = l.watchAddr.map fun a => ⟨a, watchLen⟩)

/-! ### Integer instructions -/

/-- LUI writes the 20 bits over 12 zero bits as a signed 32-bit value (rules R122, R164; decision D16); AUIPC adds it to its
own address modulo 2^XLEN (rule R165). Nothing else changes. -/
def Obligations.UpperImmediates : Prop :=
  ∀ (xl : Xlen) (h : Hart xl) (rd : Reg) (imm : BitVec 20),
    (∃ v t, exec (.lui rd imm) ⟨xl, h⟩ = .next ⟨xl, t⟩ ∧ h.WritesReg t rd v ∧ v.toInt = imm.toInt * 4096) ∧
    (∃ v t, exec (.auipc rd imm) ⟨xl, h⟩ = .next ⟨xl, t⟩ ∧ h.WritesReg t rd v ∧
      v.toInt = (h.pc.toInt + imm.toInt * 4096).bmod (2 ^ xl.bits))

/-- ADDI, ADD and SUB: the signed sum or difference wrapped to XLEN bits is written to rd, and nothing else changes
(rules R160, R166, R175, R176). -/
def Obligations.AddAndSubtract : Prop :=
  ∀ (xl : Xlen) (h : Hart xl) (rd rs1 rs2 : Reg) (imm : BitVec 12),
    (∃ v t, exec (.addi rd rs1 imm) ⟨xl, h⟩ = .next ⟨xl, t⟩ ∧ h.WritesReg t rd v ∧
      v.toInt = ((h.getX rs1).toInt + imm.toInt).bmod (2 ^ xl.bits)) ∧
    (∃ v t, exec (.add rd rs1 rs2) ⟨xl, h⟩ = .next ⟨xl, t⟩ ∧ h.WritesReg t rd v ∧
      v.toInt = ((h.getX rs1).toInt + (h.getX rs2).toInt).bmod (2 ^ xl.bits)) ∧
    (∃ v t, exec (.sub rd rs1 rs2) ⟨xl, h⟩ = .next ⟨xl, t⟩ ∧ h.WritesReg t rd v ∧
      v.toInt = ((h.getX rs1).toInt - (h.getX rs2).toInt).bmod (2 ^ xl.bits))

/-- SLTI, SLT and SLTU write 1 when the comparison holds, signed for the first two and unsigned for the third, else 0;
nothing else changes (rules R161, R167, R178, R179). -/
def Obligations.Comparisons : Prop :=
  ∀ (xl : Xlen) (h : Hart xl) (rd rs1 rs2 : Reg) (imm : BitVec 12),
    (∃ t, exec (.slti rd rs1 imm) ⟨xl, h⟩ = .next ⟨xl, t⟩ ∧
      h.WritesReg t rd (if (h.getX rs1).toInt < imm.toInt then 1 else 0)) ∧
    (∃ t, exec (.slt rd rs1 rs2) ⟨xl, h⟩ = .next ⟨xl, t⟩ ∧
      h.WritesReg t rd (if (h.getX rs1).toInt < (h.getX rs2).toInt then 1 else 0)) ∧
    (∃ t, exec (.sltu rd rs1 rs2) ⟨xl, h⟩ = .next ⟨xl, t⟩ ∧
      h.WritesReg t rd (if (h.getX rs1).toNat < (h.getX rs2).toNat then 1 else 0))

/-- SLTIU compares against the immediate sign-extended to XLEN and then read as unsigned; nothing else changes (rule R168,
whose order of the two the spec marks as general knowledge). -/
def Obligations.SetLessThanImmediateUnsigned : Prop :=
  ∀ (xl : Xlen) (h : Hart xl) (rd rs1 : Reg) (imm : BitVec 12),
    ∃ t, exec (.sltiu rd rs1 imm) ⟨xl, h⟩ = .next ⟨xl, t⟩ ∧
      h.WritesReg t rd (if ((h.getX rs1).toNat : Int) < imm.toInt % 2 ^ xl.bits then 1 else 0)

/-- XORI, ORI, ANDI, XOR, OR and AND, bit by bit; bits of an immediate above its 12 are copies of its bit 11; nothing but rd
changes (rules R169 to R171, R180, R183, R184). -/
def Obligations.BitwiseLogic : Prop :=
  ∀ (xl : Xlen) (h : Hart xl) (rd rs1 rs2 : Reg) (imm : BitVec 12),
    (∃ v t, exec (.xori rd rs1 imm) ⟨xl, h⟩ = .next ⟨xl, t⟩ ∧ h.WritesReg t rd v ∧
      ∀ j, j < xl.bits → v.getLsbD j = ((h.getX rs1).getLsbD j ^^ imm.getLsbD (min j 11))) ∧
    (∃ v t, exec (.ori rd rs1 imm) ⟨xl, h⟩ = .next ⟨xl, t⟩ ∧ h.WritesReg t rd v ∧
      ∀ j, j < xl.bits → v.getLsbD j = ((h.getX rs1).getLsbD j || imm.getLsbD (min j 11))) ∧
    (∃ v t, exec (.andi rd rs1 imm) ⟨xl, h⟩ = .next ⟨xl, t⟩ ∧ h.WritesReg t rd v ∧
      ∀ j, j < xl.bits → v.getLsbD j = ((h.getX rs1).getLsbD j && imm.getLsbD (min j 11))) ∧
    (∃ v t, exec (.xor rd rs1 rs2) ⟨xl, h⟩ = .next ⟨xl, t⟩ ∧ h.WritesReg t rd v ∧
      ∀ j, j < xl.bits → v.getLsbD j = ((h.getX rs1).getLsbD j ^^ (h.getX rs2).getLsbD j)) ∧
    (∃ v t, exec (.or rd rs1 rs2) ⟨xl, h⟩ = .next ⟨xl, t⟩ ∧ h.WritesReg t rd v ∧
      ∀ j, j < xl.bits → v.getLsbD j = ((h.getX rs1).getLsbD j || (h.getX rs2).getLsbD j)) ∧
    (∃ v t, exec (.and rd rs1 rs2) ⟨xl, h⟩ = .next ⟨xl, t⟩ ∧ h.WritesReg t rd v ∧
      ∀ j, j < xl.bits → v.getLsbD j = ((h.getX rs1).getLsbD j && (h.getX rs2).getLsbD j))

/-- SLLI, SRLI and SRAI by an amount below XLEN: multiplication by 2^shamt modulo 2^XLEN, division of the unsigned value,
floor division of the signed value; nothing but rd changes (rules R172 to R174). -/
def Obligations.ShiftImmediates : Prop :=
  ∀ (xl : Xlen) (h : Hart xl) (rd rs1 : Reg) (shamt : BitVec 6), shamt.toNat < xl.bits →
    (∃ v t, exec (.slli rd rs1 shamt) ⟨xl, h⟩ = .next ⟨xl, t⟩ ∧ h.WritesReg t rd v ∧
      v.toNat = (h.getX rs1).toNat * 2 ^ shamt.toNat % 2 ^ xl.bits) ∧
    (∃ v t, exec (.srli rd rs1 shamt) ⟨xl, h⟩ = .next ⟨xl, t⟩ ∧ h.WritesReg t rd v ∧
      v.toNat = (h.getX rs1).toNat / 2 ^ shamt.toNat) ∧
    (∃ v t, exec (.srai rd rs1 shamt) ⟨xl, h⟩ = .next ⟨xl, t⟩ ∧ h.WritesReg t rd v ∧
      v.toInt = (h.getX rs1).toInt / 2 ^ shamt.toNat)

/-- SLL, SRL and SRA shift by x[rs2] modulo XLEN (its low 5 or 6 bits), as the shift-immediates do; nothing but rd changes
(rules R162, R177, R181, R182). -/
def Obligations.RegisterShifts : Prop :=
  ∀ (xl : Xlen) (h : Hart xl) (rd rs1 rs2 : Reg),
    (∃ v t, exec (.sll rd rs1 rs2) ⟨xl, h⟩ = .next ⟨xl, t⟩ ∧ h.WritesReg t rd v ∧
      v.toNat = (h.getX rs1).toNat * 2 ^ ((h.getX rs2).toNat % xl.bits) % 2 ^ xl.bits) ∧
    (∃ v t, exec (.srl rd rs1 rs2) ⟨xl, h⟩ = .next ⟨xl, t⟩ ∧ h.WritesReg t rd v ∧
      v.toNat = (h.getX rs1).toNat / 2 ^ ((h.getX rs2).toNat % xl.bits)) ∧
    (∃ v t, exec (.sra rd rs1 rs2) ⟨xl, h⟩ = .next ⟨xl, t⟩ ∧ h.WritesReg t rd v ∧
      v.toInt = (h.getX rs1).toInt / 2 ^ ((h.getX rs2).toNat % xl.bits))

/-- ADDIW, ADDW and SUBW (XLEN = 64): the sum or difference wrapped to 32 bits and sign-extended; nothing but rd changes
(rules R160, R185, R189, R190). -/
def Obligations.WordAddAndSubtract : Prop :=
  ∀ (h : Hart .rv64) (rd rs1 rs2 : Reg) (imm : BitVec 12),
    (∃ v t, exec (.addiw rd rs1 imm) ⟨.rv64, h⟩ = .next ⟨.rv64, t⟩ ∧ h.WritesReg t rd v ∧
      v.toInt = ((h.getX rs1).toInt + imm.toInt).bmod (2 ^ 32)) ∧
    (∃ v t, exec (.addw rd rs1 rs2) ⟨.rv64, h⟩ = .next ⟨.rv64, t⟩ ∧ h.WritesReg t rd v ∧
      v.toInt = ((h.getX rs1).toInt + (h.getX rs2).toInt).bmod (2 ^ 32)) ∧
    (∃ v t, exec (.subw rd rs1 rs2) ⟨.rv64, h⟩ = .next ⟨.rv64, t⟩ ∧ h.WritesReg t rd v ∧
      v.toInt = ((h.getX rs1).toInt - (h.getX rs2).toInt).bmod (2 ^ 32))

/-- SLLIW, SRLIW, SRAIW, SLLW, SRLW and SRAW (XLEN = 64): the low word shifted in 32 bits by shamt or by x[rs2] modulo 32,
and sign-extended; nothing but rd changes (rules R162, R186 to R188, R191 to R193). -/
def Obligations.WordShifts : Prop :=
  ∀ (h : Hart .rv64) (rd rs1 rs2 : Reg) (shamt : BitVec 5),
    (∃ v t, exec (.slliw rd rs1 shamt) ⟨.rv64, h⟩ = .next ⟨.rv64, t⟩ ∧ h.WritesReg t rd v ∧
      v.toInt = ((h.getX rs1).toInt * 2 ^ shamt.toNat).bmod (2 ^ 32)) ∧
    (∃ v t, exec (.srliw rd rs1 shamt) ⟨.rv64, h⟩ = .next ⟨.rv64, t⟩ ∧ h.WritesReg t rd v ∧
      v.toInt = (((h.getX rs1).toNat % 2 ^ 32 / 2 ^ shamt.toNat : Nat) : Int).bmod (2 ^ 32)) ∧
    (∃ v t, exec (.sraiw rd rs1 shamt) ⟨.rv64, h⟩ = .next ⟨.rv64, t⟩ ∧ h.WritesReg t rd v ∧
      v.toInt = (h.getX rs1).toInt.bmod (2 ^ 32) / 2 ^ shamt.toNat) ∧
    (∃ v t, exec (.sllw rd rs1 rs2) ⟨.rv64, h⟩ = .next ⟨.rv64, t⟩ ∧ h.WritesReg t rd v ∧
      v.toInt = ((h.getX rs1).toInt * 2 ^ ((h.getX rs2).toNat % 32)).bmod (2 ^ 32)) ∧
    (∃ v t, exec (.srlw rd rs1 rs2) ⟨.rv64, h⟩ = .next ⟨.rv64, t⟩ ∧ h.WritesReg t rd v ∧
      v.toInt = (((h.getX rs1).toNat % 2 ^ 32 / 2 ^ ((h.getX rs2).toNat % 32) : Nat) : Int).bmod (2 ^ 32)) ∧
    (∃ v t, exec (.sraw rd rs1 rs2) ⟨.rv64, h⟩ = .next ⟨.rv64, t⟩ ∧ h.WritesReg t rd v ∧
      v.toInt = (h.getX rs1).toInt.bmod (2 ^ 32) / 2 ^ ((h.getX rs2).toNat % 32))

/-- At XLEN = 32 an RV64-only operation and a shift-immediate by 32 or more have no routine: they are `fatal Unsupported` of
their word, with the state unchanged (rules R16, R139; decision D11). -/
def Obligations.Rv64OperationsStopAtRv32 : Prop :=
  ∀ (h : Hart .rv32) (i : Instr),
    (i.needsRv64 = true ∨ ∃ rd rs1 shamt, 32 ≤ shamt.toNat ∧
      (i = .slli rd rs1 shamt ∨ i = .srli rd rs1 shamt ∨ i = .srai rd rs1 shamt)) →
    exec i ⟨.rv32, h⟩ = .fault (.unsupported (encode i) ⟨.rv32, h⟩)

/-! ### Control transfer -/

/-- JAL: rd gets pc + 4, pc becomes pc + offset, both modulo 2^XLEN, jump_taken is set, and nothing else changes
(rule R210). -/
def Obligations.JumpAndLink : Prop :=
  ∀ (xl : Xlen) (h : Hart xl) (rd : Reg) (offset : BitVec 21),
    ∃ link target t, exec (.jal rd offset) ⟨xl, h⟩ = .next ⟨xl, t⟩ ∧ h.JumpsTo t rd link target ∧
      link.toNat = (h.pc.toNat + 4) % 2 ^ xl.bits ∧
      target.toInt = (h.pc.toInt + offset.toInt).bmod (2 ^ xl.bits)

/-- JALR: rd gets pc + 4, pc becomes x[rs1] + imm with bit 0 cleared, x[rs1] the value before rd is written, jump_taken is
set, and nothing else changes (rule R211; the order also by decision D29). -/
def Obligations.JumpAndLinkRegister : Prop :=
  ∀ (xl : Xlen) (h : Hart xl) (rd rs1 : Reg) (imm : BitVec 12),
    ∃ link target t, exec (.jalr rd rs1 imm) ⟨xl, h⟩ = .next ⟨xl, t⟩ ∧ h.JumpsTo t rd link target ∧
      link.toNat = (h.pc.toNat + 4) % 2 ^ xl.bits ∧
      (target.toNat : Int) = ((h.getX rs1).toInt + imm.toInt) % 2 ^ xl.bits / 2 * 2

/-- The six branches: taken exactly when the two registers compare so, signed for BLT and BGE, unsigned for BLTU and BGEU; a
taken branch sets pc to pc + offset modulo 2^XLEN and branch_taken, one not taken writes nothing (rules R212 to R218). -/
def Obligations.ConditionalBranches : Prop :=
  ∀ (xl : Xlen) (h : Hart xl) (rs1 rs2 : Reg) (offset : BitVec 13),
    (∃ t, exec (.beq rs1 rs2 offset) ⟨xl, h⟩ = .next ⟨xl, t⟩ ∧
      h.Branches t (h.getX rs1 = h.getX rs2) offset.toInt) ∧
    (∃ t, exec (.bne rs1 rs2 offset) ⟨xl, h⟩ = .next ⟨xl, t⟩ ∧
      h.Branches t (h.getX rs1 ≠ h.getX rs2) offset.toInt) ∧
    (∃ t, exec (.blt rs1 rs2 offset) ⟨xl, h⟩ = .next ⟨xl, t⟩ ∧
      h.Branches t ((h.getX rs1).toInt < (h.getX rs2).toInt) offset.toInt) ∧
    (∃ t, exec (.bge rs1 rs2 offset) ⟨xl, h⟩ = .next ⟨xl, t⟩ ∧
      h.Branches t ((h.getX rs2).toInt ≤ (h.getX rs1).toInt) offset.toInt) ∧
    (∃ t, exec (.bltu rs1 rs2 offset) ⟨xl, h⟩ = .next ⟨xl, t⟩ ∧
      h.Branches t ((h.getX rs1).toNat < (h.getX rs2).toNat) offset.toInt) ∧
    (∃ t, exec (.bgeu rs1 rs2 offset) ⟨xl, h⟩ = .next ⟨xl, t⟩ ∧
      h.Branches t ((h.getX rs2).toNat ≤ (h.getX rs1).toNat) offset.toInt)

/-! ### Loads and stores -/

/-- LB, LH and LW at any alignment, and LD at XLEN = 64: the little-endian value of the bytes at x[rs1] + imm, sign-extended,
is written to rd, and nothing else changes, when the access lies in the array and no watch meets it (rules R80, R83, R85,
R231 to R235; decisions D10, D19, D20). -/
def Obligations.SignedLoads : Prop :=
  ∀ (xl : Xlen) (h : Hart xl) (rd rs1 : Reg) (imm : BitVec 12) (ea : Word xl),
    ea = h.getX rs1 + imm.signExtend xl.bits →
    (h.Fits ea 1 → ¬ h.Watches ea 1 → ∃ v t, exec (.lb rd rs1 imm) ⟨xl, h⟩ = .next ⟨xl, t⟩ ∧ h.WritesReg t rd v ∧
      v.toInt = (h.bytesValue (ea - h.params.base).toNat 1 : Int).bmod (2 ^ 8)) ∧
    (h.Fits ea 2 → ¬ h.Watches ea 2 → ∃ v t, exec (.lh rd rs1 imm) ⟨xl, h⟩ = .next ⟨xl, t⟩ ∧ h.WritesReg t rd v ∧
      v.toInt = (h.bytesValue (ea - h.params.base).toNat 2 : Int).bmod (2 ^ 16)) ∧
    (h.Fits ea 4 → ¬ h.Watches ea 4 → ∃ v t, exec (.lw rd rs1 imm) ⟨xl, h⟩ = .next ⟨xl, t⟩ ∧ h.WritesReg t rd v ∧
      v.toInt = (h.bytesValue (ea - h.params.base).toNat 4 : Int).bmod (2 ^ 32)) ∧
    (xl = .rv64 → h.Fits ea 8 → ¬ h.Watches ea 8 →
      ∃ v t, exec (.ld rd rs1 imm) ⟨xl, h⟩ = .next ⟨xl, t⟩ ∧ h.WritesReg t rd v ∧
        v.toNat = h.bytesValue (ea - h.params.base).toNat 8)

/-- LBU and LHU, and LWU at XLEN = 64, zero-extend; otherwise as the signed loads (rules R236 to R238). -/
def Obligations.UnsignedLoads : Prop :=
  ∀ (xl : Xlen) (h : Hart xl) (rd rs1 : Reg) (imm : BitVec 12) (ea : Word xl),
    ea = h.getX rs1 + imm.signExtend xl.bits →
    (h.Fits ea 1 → ¬ h.Watches ea 1 → ∃ v t, exec (.lbu rd rs1 imm) ⟨xl, h⟩ = .next ⟨xl, t⟩ ∧ h.WritesReg t rd v ∧
      v.toNat = h.bytesValue (ea - h.params.base).toNat 1) ∧
    (h.Fits ea 2 → ¬ h.Watches ea 2 → ∃ v t, exec (.lhu rd rs1 imm) ⟨xl, h⟩ = .next ⟨xl, t⟩ ∧ h.WritesReg t rd v ∧
      v.toNat = h.bytesValue (ea - h.params.base).toNat 2) ∧
    (xl = .rv64 → h.Fits ea 4 → ¬ h.Watches ea 4 →
      ∃ v t, exec (.lwu rd rs1 imm) ⟨xl, h⟩ = .next ⟨xl, t⟩ ∧ h.WritesReg t rd v ∧
        v.toNat = h.bytesValue (ea - h.params.base).toNat 4)

/-- SB, SH and SW at any alignment, and SD at XLEN = 64: the low bytes of x[rs2] are stored at x[rs1] + imm, low byte first,
and no other byte, register, CSR or flag changes, when the access lies in the array and no watch meets it (rules R80, R84,
R85, R239 to R243; decisions D10, D19, D20). -/
def Obligations.StoresWriteExactlyTheirBytes : Prop :=
  ∀ (xl : Xlen) (h : Hart xl) (rs2 rs1 : Reg) (imm : BitVec 12) (ea : Word xl),
    ea = h.getX rs1 + imm.signExtend xl.bits →
    (h.Fits ea 1 → ¬ h.Watches ea 1 → ∃ t, exec (.sb rs2 rs1 imm) ⟨xl, h⟩ = .next ⟨xl, t⟩ ∧
      h.Stores t (ea - h.params.base).toNat 1 (h.getX rs2)) ∧
    (h.Fits ea 2 → ¬ h.Watches ea 2 → ∃ t, exec (.sh rs2 rs1 imm) ⟨xl, h⟩ = .next ⟨xl, t⟩ ∧
      h.Stores t (ea - h.params.base).toNat 2 (h.getX rs2)) ∧
    (h.Fits ea 4 → ¬ h.Watches ea 4 → ∃ t, exec (.sw rs2 rs1 imm) ⟨xl, h⟩ = .next ⟨xl, t⟩ ∧
      h.Stores t (ea - h.params.base).toNat 4 (h.getX rs2)) ∧
    (xl = .rv64 → h.Fits ea 8 → ¬ h.Watches ea 8 → ∃ t, exec (.sd rs2 rs1 imm) ⟨xl, h⟩ = .next ⟨xl, t⟩ ∧
      h.Stores t (ea - h.params.base).toNat 8 (h.getX rs2))

/-- A load or store that does not lie in the array is `fatal MemOutOfRange` of its address and width, with no byte moved,
watched or not (rules R16, R82, R231, R239; decision D19). -/
def Obligations.AccessOutsideTheArrayStops : Prop :=
  ∀ (xl : Xlen) (h : Hart xl) (r rs1 : Reg) (imm : BitVec 12) (ea : Word xl),
    ea = h.getX rs1 + imm.signExtend xl.bits →
    (¬ h.Fits ea 1 → ∀ i ∈ [Instr.lb r rs1 imm, .lbu r rs1 imm, .sb r rs1 imm],
      exec i ⟨xl, h⟩ = .fault (.memOutOfRange ea.toNat 1 ⟨xl, h⟩)) ∧
    (¬ h.Fits ea 2 → ∀ i ∈ [Instr.lh r rs1 imm, .lhu r rs1 imm, .sh r rs1 imm],
      exec i ⟨xl, h⟩ = .fault (.memOutOfRange ea.toNat 2 ⟨xl, h⟩)) ∧
    (¬ h.Fits ea 4 → ∀ i ∈ [Instr.lw r rs1 imm, .sw r rs1 imm],
      exec i ⟨xl, h⟩ = .fault (.memOutOfRange ea.toNat 4 ⟨xl, h⟩)) ∧
    (xl = .rv64 → ¬ h.Fits ea 4 → exec (.lwu r rs1 imm) ⟨xl, h⟩ = .fault (.memOutOfRange ea.toNat 4 ⟨xl, h⟩)) ∧
    (xl = .rv64 → ¬ h.Fits ea 8 → ∀ i ∈ [Instr.ld r rs1 imm, .sd r rs1 imm],
      exec i ⟨xl, h⟩ = .fault (.memOutOfRange ea.toNat 8 ⟨xl, h⟩))

/-- A watched load asks the host with nothing written yet, and a watched store with its bytes stored; Continue completes the
instruction with the same value or bytes as unwatched, and Halt(code) ends the run in the state the host saw: every load and
store, at any alignment (rules R83, R84, R90, R91; decisions D10, D15, D20). -/
def Obligations.WatchedAccessAsksTheHost : Prop :=
  ∀ (xl : Xlen) (h : Hart xl) (r rs1 : Reg) (imm : BitVec 12) (ea : Word xl),
    ea = h.getX rs1 + imm.signExtend xl.bits →
    (h.Fits ea 1 → h.Watches ea 1 →
      h.LoadAsks (.lb r rs1 imm) r ea 1
        (fun v => v.toInt = (h.bytesValue (ea - h.params.base).toNat 1 : Int).bmod (2 ^ 8)) ∧
      h.LoadAsks (.lbu r rs1 imm) r ea 1 (fun v => v.toNat = h.bytesValue (ea - h.params.base).toNat 1) ∧
      h.StoreAsks (.sb r rs1 imm) ea 1 (h.getX r)) ∧
    (h.Fits ea 2 → h.Watches ea 2 →
      h.LoadAsks (.lh r rs1 imm) r ea 2
        (fun v => v.toInt = (h.bytesValue (ea - h.params.base).toNat 2 : Int).bmod (2 ^ 16)) ∧
      h.LoadAsks (.lhu r rs1 imm) r ea 2 (fun v => v.toNat = h.bytesValue (ea - h.params.base).toNat 2) ∧
      h.StoreAsks (.sh r rs1 imm) ea 2 (h.getX r)) ∧
    (h.Fits ea 4 → h.Watches ea 4 →
      h.LoadAsks (.lw r rs1 imm) r ea 4
        (fun v => v.toInt = (h.bytesValue (ea - h.params.base).toNat 4 : Int).bmod (2 ^ 32)) ∧
      (xl = .rv64 →
        h.LoadAsks (.lwu r rs1 imm) r ea 4 (fun v => v.toNat = h.bytesValue (ea - h.params.base).toNat 4)) ∧
      h.StoreAsks (.sw r rs1 imm) ea 4 (h.getX r)) ∧
    (xl = .rv64 → h.Fits ea 8 → h.Watches ea 8 →
      h.LoadAsks (.ld r rs1 imm) r ea 8 (fun v => v.toNat = h.bytesValue (ea - h.params.base).toNat 8) ∧
      h.StoreAsks (.sd r rs1 imm) ea 8 (h.getX r))

/-- A word stored by SW and loaded from the same address by LW comes back as its signed low 32 bits (the whole value at
XLEN = 32, sext_64 of it at XLEN = 64), and LBU at each of the four addresses gives its little-endian bytes (rules R85,
R234, R236, R242, R244; decision D20; no watch is installed). -/
def Obligations.StoreThenLoadRoundTrip : Prop :=
  ∀ (xl : Xlen) (h t : Hart xl) (rs2 rs1 rd : Reg) (imm : BitVec 12), h.params.watch = none →
    exec (.sw rs2 rs1 imm) ⟨xl, h⟩ = .next ⟨xl, t⟩ →
    (∃ v u, exec (.lw rd rs1 imm) ⟨xl, t⟩ = .next ⟨xl, u⟩ ∧ t.WritesReg u rd v ∧
      v.toInt = ((h.getX rs2).toInt).bmod (2 ^ 32)) ∧
    (∀ (k : Nat) (rb : Reg) (immb : BitVec 12), k < 4 →
      h.getX rb + immb.signExtend xl.bits = h.getX rs1 + imm.signExtend xl.bits + BitVec.ofNat xl.bits k →
      (h.getX rs1 + imm.signExtend xl.bits - h.params.base).toNat + 4 ≤ 2 ^ xl.bits →
      ∃ v u, exec (.lbu rd rb immb) ⟨xl, t⟩ = .next ⟨xl, u⟩ ∧ t.WritesReg u rd v ∧
        v.toNat = (h.getX rs2).toNat / 2 ^ (8 * k) % 256)

/-- A word stored over the next instruction is the one the next step executes, without a fence: after SW to pc + 4, the step
at pc + 4 is `exec` of what the stored word decodes to, with the PC advance (rules R97, R351; no watch is installed). -/
def Obligations.StoreIsSeenByTheNextFetch : Prop :=
  ∀ (xl : Xlen) (h t : Hart xl) (rs2 rs1 : Reg) (imm : BitVec 12) (i : Instr), h.params.watch = none →
    h.pc.toNat % 4 = 0 → h.getX rs1 + imm.signExtend xl.bits = h.pc + 4 →
    exec (.sw rs2 rs1 imm) ⟨xl, h⟩ = .next ⟨xl, t⟩ →
    decodeWord xl ((h.getX rs2).extractLsb' 0 32) = .ok i →
    step ⟨xl, { t with pc := t.pc + 4 }⟩ = Result.advance (exec i ⟨xl, { t with pc := t.pc + 4 }⟩)

/-- FENCE, whatever its fields, and FENCE.I complete and change nothing, so that between instructions, where the flags are 0,
the step of one advances pc by 4 and does nothing else (rules R35, R50, R250, R251; decision D12). -/
def Obligations.FencesChangeNothing : Prop :=
  ∀ (xl : Xlen) (h : Hart xl) (i : Instr), (i = .fenceI ∨ ∃ fm pred succ, i = .fence fm pred succ) →
    exec i ⟨xl, h⟩ = .next ⟨xl, h⟩ ∧
    (h.pc.toNat % 4 = 0 → h.Fits h.pc 4 → ¬ h.Watches h.pc 4 →
      decodeWord xl (BitVec.ofNat 32 (h.bytesValue (h.pc - h.params.base).toNat 4)) = .ok i →
      h.branchTaken = false → h.jumpTaken = false → h.trapTaken = false →
      step ⟨xl, h⟩ = .next ⟨xl, { h with pc := h.pc + 4 }⟩)

/-! ### CSR instructions -/

/-- CSRRW and CSRRWI at a level that may access a writable CSR: the CSR gets the old x[rs1] or zimm in full, rd gets the old
CSR, and nothing else changes (rules R260, R261, R264, R300, R301; decision D3 for the address fields). -/
def Obligations.CsrSwap : Prop :=
  ∀ (xl : Xlen) (h : Hart xl) (rd : Reg) (a : CsrAddr) (r : BitVec 5),
    CsrAccessible h.priv a → ¬ CsrReadOnly a →
    (∃ t, exec (.csrrw rd a r) ⟨xl, h⟩ = .next ⟨xl, t⟩ ∧ h.WritesCsr t rd (h.csr a) a (h.getX r)) ∧
    (∃ t, exec (.csrrwi rd a r) ⟨xl, h⟩ = .next ⟨xl, t⟩ ∧
      h.WritesCsr t rd (h.csr a) a (BitVec.ofNat xl.bits r.toNat))

/-- CSRRS, CSRRC, CSRRSI and CSRRCI with a nonzero index or zimm, at a level that may access a writable CSR: the bits of the
source are set or cleared, rd gets the old CSR, and nothing else changes (rules R260, R262, R263, R265, R266). -/
def Obligations.CsrSetAndClear : Prop :=
  ∀ (xl : Xlen) (h : Hart xl) (rd : Reg) (a : CsrAddr) (r : BitVec 5),
    CsrAccessible h.priv a → ¬ CsrReadOnly a → r ≠ 0 →
    (∃ new t, exec (.csrrs rd a r) ⟨xl, h⟩ = .next ⟨xl, t⟩ ∧ h.WritesCsr t rd (h.csr a) a new ∧
      ∀ j, new.getLsbD j = ((h.csr a).getLsbD j || (h.getX r).getLsbD j)) ∧
    (∃ new t, exec (.csrrc rd a r) ⟨xl, h⟩ = .next ⟨xl, t⟩ ∧ h.WritesCsr t rd (h.csr a) a new ∧
      ∀ j, new.getLsbD j = ((h.csr a).getLsbD j && !(h.getX r).getLsbD j)) ∧
    (∃ new t, exec (.csrrsi rd a r) ⟨xl, h⟩ = .next ⟨xl, t⟩ ∧ h.WritesCsr t rd (h.csr a) a new ∧
      ∀ j, new.getLsbD j = ((h.csr a).getLsbD j || r.getLsbD j)) ∧
    (∃ new t, exec (.csrrci rd a r) ⟨xl, h⟩ = .next ⟨xl, t⟩ ∧ h.WritesCsr t rd (h.csr a) a new ∧
      ∀ j, new.getLsbD j = ((h.csr a).getLsbD j && !r.getLsbD j))

/-- CSRRS, CSRRC, CSRRSI and CSRRCI with a zero index or zimm only read, read-only CSRs included: rd gets the CSR, and nothing
else changes (rules R260, R262, R263, R265, R266, R302). -/
def Obligations.CsrPureRead : Prop :=
  ∀ (xl : Xlen) (h : Hart xl) (rd : Reg) (a : CsrAddr), CsrAccessible h.priv a →
    ∀ i ∈ [Instr.csrrs rd a 0, .csrrc rd a 0, .csrrsi rd a 0, .csrrci rd a 0],
      ∃ t, exec i ⟨xl, h⟩ = .next ⟨xl, t⟩ ∧ h.WritesReg t rd (h.csr a)

/-- A CSR instruction at a level below the CSR's, and a write-enabled one on a read-only CSR, takes the illegal-instruction
trap, code 2, with its own writes not performed (rules R300 to R302, R305, R311; decisions D4, D5, D6). -/
def Obligations.IllegalCsrAccessTraps : Prop :=
  ∀ (xl : Xlen) (h : Hart xl) (rd : Reg) (a : CsrAddr) (r : BitVec 5),
    (¬ CsrAccessible h.priv a → ∀ i ∈ [Instr.csrrw rd a r, .csrrs rd a r, .csrrc rd a r, .csrrwi rd a r, .csrrsi rd a r,
        .csrrci rd a r], ∃ t, exec i ⟨xl, h⟩ = .next ⟨xl, t⟩ ∧ h.TakesTrap t 2) ∧
    (CsrReadOnly a → ∀ i ∈ [Instr.csrrw rd a r, .csrrwi rd a r],
        ∃ t, exec i ⟨xl, h⟩ = .next ⟨xl, t⟩ ∧ h.TakesTrap t 2) ∧
    (CsrReadOnly a → r ≠ 0 → ∀ i ∈ [Instr.csrrs rd a r, .csrrc rd a r, .csrrsi rd a r, .csrrci rd a r],
        ∃ t, exec i ⟨xl, h⟩ = .next ⟨xl, t⟩ ∧ h.TakesTrap t 2)

/-! ### Traps and returns -/

/-- ECALL takes the environment-call trap at every level: code 8 from User, 9 from Supervisor, 11 from Machine (rules R270,
R305, R306, R310, R311; decisions D5, D6). -/
def Obligations.EnvironmentCallTraps : Prop :=
  ∀ (xl : Xlen) (h : Hart xl),
    ∃ t, exec .ecall ⟨xl, h⟩ = .next ⟨xl, t⟩ ∧
      h.TakesTrap t (match h.priv with | .user => 8 | .supervisor => 9 | .machine => 11)

/-- EBREAK is `fatal EbreakUnmodelled` of its word in every state, with the state unchanged (rules R16, R271; decision D8). -/
def Obligations.EbreakStops : Prop :=
  ∀ s : State, exec .ebreak s = .fault (.ebreakUnmodelled 0x00100073#32 s)

/-- MRET in Machine mode with MPP a level returns from the trap to that level (rules R276, R313; decision D17). -/
def Obligations.MachineReturn : Prop :=
  ∀ (xl : Xlen) (h : Hart xl) (p : Priv), h.priv = .machine →
    p.bits.toNat = (h.csr 0x300#12).toNat / 2 ^ 11 % 4 →
    ∃ t, exec .mret ⟨xl, h⟩ = .next ⟨xl, t⟩ ∧ h.ReturnsFromMachine t p

/-- MRET in Machine mode with the reserved MPP = 0b10 is `fatal ReservedPrivilege` of its word, with the state unchanged
(rules R16, R276; decision D18). -/
def Obligations.MachineReturnToReservedLevelStops : Prop :=
  ∀ (xl : Xlen) (h : Hart xl), h.priv = .machine → (h.csr 0x300#12).toNat / 2 ^ 11 % 4 = 2 →
    exec .mret ⟨xl, h⟩ = .fault (.reservedPrivilege 0x30200073#32 ⟨xl, h⟩)

/-- SRET in Supervisor or Machine mode pops the supervisor stack once (rules R10, R277; decisions D7, D17, D27). -/
def Obligations.SupervisorReturn : Prop :=
  ∀ (xl : Xlen) (h : Hart xl), h.priv ≠ .user →
    ∃ t, exec .sret ⟨xl, h⟩ = .next ⟨xl, t⟩ ∧ h.ReturnsFromSupervisor t

/-- MRET below Machine and SRET in User take the illegal-instruction trap, code 2, and perform none of their own writes
(rules R276, R277, R305, R307; decisions D4, D5, D6). -/
def Obligations.IllegalReturnTraps : Prop :=
  ∀ (xl : Xlen) (h : Hart xl),
    (h.priv ≠ .machine → ∃ t, exec .mret ⟨xl, h⟩ = .next ⟨xl, t⟩ ∧ h.TakesTrap t 2) ∧
    (h.priv = .user → ∃ t, exec .sret ⟨xl, h⟩ = .next ⟨xl, t⟩ ∧ h.TakesTrap t 2)

/-- A trap followed by MRET with no write between goes back to the trapping instruction at its own level: pc and the
privilege level are restored, every register and byte is as before, and MIE is as before; MPIE is 1, MPP is User and MPRV is
0 (rules R270, R310, R313). -/
def Obligations.ReturnUndoesEnvironmentCall : Prop :=
  ∀ (xl : Xlen) (h t : Hart xl), exec .ecall ⟨xl, h⟩ = .next ⟨xl, t⟩ →
    ∃ u, exec .mret ⟨xl, t⟩ = .next ⟨xl, u⟩ ∧ u.pc = h.pc ∧ u.priv = h.priv ∧ h.SameRegs u ∧ h.SameBytes u ∧
      ∀ j, (u.csr 0x300#12).getLsbD j =
        if j = 7 then true else if j = 11 ∨ j = 12 ∨ j = 17 then false else (h.csr 0x300#12).getLsbD j

/-- JAL with offset 0 and rd = x0 is a step from the state to itself (rules R50, R210, R346; no watch meets the fetch, and the
flags are 0 as between instructions). -/
def Obligations.SelfJumpStepsToItself : Prop :=
  ∀ (xl : Xlen) (h : Hart xl), h.pc.toNat % 4 = 0 → h.Fits h.pc 4 → ¬ h.Watches h.pc 4 →
    h.bytesValue (h.pc - h.params.base).toNat 4 = 0x0000006F →
    h.branchTaken = false → h.jumpTaken = false → h.trapTaken = false →
    step ⟨xl, h⟩ = .next ⟨xl, h⟩
end

