-- ==== Sys2Proof/Laws/Cells.lean ====
section
/-! SUPPORT. The laws of listed cells: reading after a write, and the canonical form kept by every write. -/

namespace Sys2Proof.Machine

variable {w : Nat}

@[simp] theorem Cells.get_nil (k : Nat) : Cells.get ([] : List (Nat × BitVec w)) k = 0 := rfl

theorem Cells.get_filter_ne (cells : List (Nat × BitVec w)) (k j : Nat) :
    Cells.get (cells.filter (fun c => c.1 != k)) j = if j = k then 0 else Cells.get cells j := by
  induction cells with
  | nil => simp
  | cons c rest ih =>
    by_cases hc : c.1 = k
    · simp only [List.filter_cons, hc, bne_self_eq_false, Bool.false_eq_true, if_false, ih, Cells.get]
      by_cases hj : j = k
      · simp [hj]
      · simp [hj, Ne.symm hj]
    · simp only [List.filter_cons, bne_iff_ne, ne_eq, hc, not_false_eq_true, if_true, Cells.get, ih]
      by_cases hj : j = k
      · subst hj; simp [hc]
      · simp [hj]

theorem Cells.get_insert (cells : List (Nat × BitVec w)) (k j : Nat) (v : BitVec w)
    (hk : ∀ c ∈ cells, c.1 ≠ k) :
    Cells.get (Cells.insert k v cells) j = if j = k then v else Cells.get cells j := by
  induction cells with
  | nil => simp [Cells.insert, Cells.get, eq_comm]
  | cons c rest ih =>
    have hc : c.1 ≠ k := hk c (by simp)
    have hr : ∀ d ∈ rest, d.1 ≠ k := fun d hd => hk d (by simp [hd])
    unfold Cells.insert
    split
    · simp [Cells.get, eq_comm]
    · simp only [Cells.get, ih hr]
      by_cases hj : j = k
      · subst hj; simp [hc]
      · simp [hj]

/-- Reading after a write: the value at the key written, every other key as before. -/
@[simp] theorem Cells.get_set (cells : List (Nat × BitVec w)) (k j : Nat) (v : BitVec w) :
    Cells.get (Cells.set cells k v) j = if j = k then v else Cells.get cells j := by
  unfold Cells.set
  have hf : ∀ c ∈ cells.filter (fun c => c.1 != k), c.1 ≠ k := fun c hc => by simpa using (List.mem_filter.1 hc).2
  by_cases hv : v = Config.unwritten
  · simp [hv, Cells.get_filter_ne]
  · simp only [hv, if_false, Cells.get_insert _ _ _ _ hf, Cells.get_filter_ne]
    by_cases hj : j = k <;> simp [hj]

theorem Cells.mem_insert {cells : List (Nat × BitVec w)} {k : Nat} {v : BitVec w} {c : Nat × BitVec w} :
    c ∈ Cells.insert k v cells ↔ c = (k, v) ∨ c ∈ cells := by
  induction cells with
  | nil => simp [Cells.insert]
  | cons d rest ih =>
    unfold Cells.insert
    split
    · simp
    · simp only [List.mem_cons, ih]; tauto

theorem Cells.mem_set {cells : List (Nat × BitVec w)} {k : Nat} {v : BitVec w} {c : Nat × BitVec w}
    (h : c ∈ Cells.set cells k v) : c = (k, v) ∨ c ∈ cells := by
  unfold Cells.set at h
  by_cases hv : v = Config.unwritten
  · simp only [hv, if_true] at h
    exact .inr (List.mem_filter.1 h).1
  · simp only [hv, if_false, Cells.mem_insert] at h
    exact h.imp id fun h => (List.mem_filter.1 h).1

theorem Cells.pairwise_insert {cells : List (Nat × BitVec w)} {k : Nat} {v : BitVec w}
    (hs : cells.Pairwise (fun a b => a.1 < b.1)) (hk : ∀ c ∈ cells, c.1 ≠ k) :
    (Cells.insert k v cells).Pairwise (fun a b => a.1 < b.1) := by
  induction cells with
  | nil => simp [Cells.insert]
  | cons d rest ih =>
    have hd : d.1 ≠ k := hk d (by simp)
    obtain ⟨h1, h2⟩ := List.pairwise_cons.1 hs
    unfold Cells.insert
    split
    · next hlt =>
      refine List.pairwise_cons.2 ⟨fun c hc => ?_, hs⟩
      rcases List.mem_cons.1 hc with rfl | hc
      · exact hlt
      · exact Nat.lt_trans hlt (h1 c hc)
    · next hlt =>
      refine List.pairwise_cons.2 ⟨fun c hc => ?_, ih h2 fun c hc => hk c (by simp [hc])⟩
      rcases Cells.mem_insert.1 hc with rfl | hc
      · simp only; omega
      · exact h1 c hc

/-- A write keeps the canonical form. -/
theorem Cells.wf_set {cells : List (Nat × BitVec w)} (h : Cells.wf cells) (k : Nat) (v : BitVec w) :
    Cells.wf (Cells.set cells k v) := by
  have hf : ∀ c ∈ cells.filter (fun c => c.1 != k), c.1 ≠ k := fun c hc => by simpa using (List.mem_filter.1 hc).2
  have hs := h.1.filter (fun c => c.1 != k)
  have hn : ∀ c ∈ cells.filter (fun c => c.1 != k), c.2 ≠ Config.unwritten := fun c hc => h.2 c (List.mem_filter.1 hc).1
  unfold Cells.set
  by_cases hv : v = Config.unwritten
  · simpa only [hv, if_true] using ⟨hs, hn⟩
  · simp only [hv, if_false]
    refine ⟨Cells.pairwise_insert hs hf, fun c hc => ?_⟩
    rcases Cells.mem_insert.1 hc with rfl | hc
    · exact hv
    · exact hn c hc

/-- A write under a bound keeps every key under it. -/
theorem Cells.bound_set {cells : List (Nat × BitVec w)} {n : Nat} (h : ∀ c ∈ cells, c.1 < n) {k : Nat} (hk : k < n)
    (v : BitVec w) : ∀ c ∈ Cells.set cells k v, c.1 < n := fun c hc => by
  rcases Cells.mem_set hc with rfl | hc
  · exact hk
  · exact h c hc

/-- Canonical lists that read alike are equal. -/
theorem Cells.ext {a b : List (Nat × BitVec w)} (ha : Cells.wf a) (hb : Cells.wf b)
    (h : ∀ k, Cells.get a k = Cells.get b k) : a = b := by
  have absent : ∀ {l : List (Nat × BitVec w)} {k : Nat}, (∀ c ∈ l, k < c.1) → Cells.get l k = 0 := by
    intro l k hl
    induction l with
    | nil => rfl
    | cons c rest ih =>
      have := hl c (by simp)
      simp only [Cells.get, show c.1 ≠ k by omega, if_false]
      exact ih fun d hd => hl d (by simp [hd])
  induction a generalizing b with
  | nil =>
    cases b with
    | nil => rfl
    | cons c rest => exact absurd (by simpa [Cells.get] using (h c.1).symm) (hb.2 c (by simp))
  | cons c rest ih =>
    cases b with
    | nil => exact absurd (by simpa [Cells.get] using h c.1) (ha.2 c (by simp))
    | cons d rest' =>
      obtain ⟨a1, a2⟩ := List.pairwise_cons.1 ha.1
      obtain ⟨b1, b2⟩ := List.pairwise_cons.1 hb.1
      have hcd : c.1 = d.1 := by
        rcases Nat.lt_trichotomy c.1 d.1 with hlt | heq | hlt
        · refine absurd ?_ (ha.2 c (by simp))
          have := h c.1
          rw [absent (l := d :: rest') (by
            intro e he
            rcases List.mem_cons.1 he with rfl | he
            · exact hlt
            · exact Nat.lt_trans hlt (b1 e he))] at this
          simpa [Cells.get] using this
        · exact heq
        · refine absurd ?_ (hb.2 d (by simp))
          have := (h d.1).symm
          rw [absent (l := c :: rest) (by
            intro e he
            rcases List.mem_cons.1 he with rfl | he
            · exact hlt
            · exact Nat.lt_trans hlt (a1 e he))] at this
          simpa [Cells.get] using this
      have hv : c.2 = d.2 := by
        have := h c.1
        simpa [Cells.get, hcd] using this
      have hcd' : c = d := Prod.ext hcd hv
      subst hcd'
      refine congrArg (c :: ·) (ih ⟨a2, fun e he => ha.2 e (by simp [he])⟩ ⟨b2, fun e he => hb.2 e (by simp [he])⟩ ?_)
      intro k
      by_cases hk : c.1 = k
      · subst hk
        rw [absent a1, absent b1]
      · have := h k
        simpa [Cells.get, hk] using this

end Sys2Proof.Machine
end

