-- ==== Sys2Proof/Laws/Decode.lean ====
section
/-! SUPPORT. Every field of every format read back from the encoder's word, and what a mask of the opcode table tests. -/

namespace Sys2Proof

/-! ### Fields of encoded words (rules R112 to R117) -/

@[simp] theorem fieldOpcode_encodeR (f7 : BitVec 7) (rs2 rs1 : Reg) (f3 : BitVec 3) (rd : Reg) (op : BitVec 7) :
    fieldOpcode (encodeR f7 rs2 rs1 f3 rd op) = op := by
  apply BitVec.eq_of_getLsbD_eq
  intro j hj
  simp only [fieldOpcode, encodeR, BitVec.getLsbD_extractLsb', BitVec.getLsbD_append]
  interval_cases j <;> simp

@[simp] theorem fieldRd_encodeR (f7 : BitVec 7) (rs2 rs1 : Reg) (f3 : BitVec 3) (rd : Reg) (op : BitVec 7) :
    fieldRd (encodeR f7 rs2 rs1 f3 rd op) = rd := by
  apply BitVec.eq_of_getLsbD_eq
  intro j hj
  simp only [fieldRd, encodeR, BitVec.getLsbD_extractLsb', BitVec.getLsbD_append]
  interval_cases j <;> simp

@[simp] theorem fieldFunct3_encodeR (f7 : BitVec 7) (rs2 rs1 : Reg) (f3 : BitVec 3) (rd : Reg) (op : BitVec 7) :
    fieldFunct3 (encodeR f7 rs2 rs1 f3 rd op) = f3 := by
  apply BitVec.eq_of_getLsbD_eq
  intro j hj
  simp only [fieldFunct3, encodeR, BitVec.getLsbD_extractLsb', BitVec.getLsbD_append]
  interval_cases j <;> simp

@[simp] theorem fieldRs1_encodeR (f7 : BitVec 7) (rs2 rs1 : Reg) (f3 : BitVec 3) (rd : Reg) (op : BitVec 7) :
    fieldRs1 (encodeR f7 rs2 rs1 f3 rd op) = rs1 := by
  apply BitVec.eq_of_getLsbD_eq
  intro j hj
  simp only [fieldRs1, encodeR, BitVec.getLsbD_extractLsb', BitVec.getLsbD_append]
  interval_cases j <;> simp

@[simp] theorem fieldRs2_encodeR (f7 : BitVec 7) (rs2 rs1 : Reg) (f3 : BitVec 3) (rd : Reg) (op : BitVec 7) :
    fieldRs2 (encodeR f7 rs2 rs1 f3 rd op) = rs2 := by
  apply BitVec.eq_of_getLsbD_eq
  intro j hj
  simp only [fieldRs2, encodeR, BitVec.getLsbD_extractLsb', BitVec.getLsbD_append]
  interval_cases j <;> simp

@[simp] theorem fieldFunct7_encodeR (f7 : BitVec 7) (rs2 rs1 : Reg) (f3 : BitVec 3) (rd : Reg) (op : BitVec 7) :
    fieldFunct7 (encodeR f7 rs2 rs1 f3 rd op) = f7 := by
  apply BitVec.eq_of_getLsbD_eq
  intro j hj
  simp only [fieldFunct7, encodeR, BitVec.getLsbD_extractLsb', BitVec.getLsbD_append]
  interval_cases j <;> simp

@[simp] theorem fieldOpcode_encodeI (imm : BitVec 12) (rs1 : Reg) (f3 : BitVec 3) (rd : Reg) (op : BitVec 7) :
    fieldOpcode (encodeI imm rs1 f3 rd op) = op := by
  apply BitVec.eq_of_getLsbD_eq
  intro j hj
  simp only [fieldOpcode, encodeI, BitVec.getLsbD_extractLsb', BitVec.getLsbD_append]
  interval_cases j <;> simp

@[simp] theorem fieldRd_encodeI (imm : BitVec 12) (rs1 : Reg) (f3 : BitVec 3) (rd : Reg) (op : BitVec 7) :
    fieldRd (encodeI imm rs1 f3 rd op) = rd := by
  apply BitVec.eq_of_getLsbD_eq
  intro j hj
  simp only [fieldRd, encodeI, BitVec.getLsbD_extractLsb', BitVec.getLsbD_append]
  interval_cases j <;> simp

@[simp] theorem fieldFunct3_encodeI (imm : BitVec 12) (rs1 : Reg) (f3 : BitVec 3) (rd : Reg) (op : BitVec 7) :
    fieldFunct3 (encodeI imm rs1 f3 rd op) = f3 := by
  apply BitVec.eq_of_getLsbD_eq
  intro j hj
  simp only [fieldFunct3, encodeI, BitVec.getLsbD_extractLsb', BitVec.getLsbD_append]
  interval_cases j <;> simp

@[simp] theorem fieldRs1_encodeI (imm : BitVec 12) (rs1 : Reg) (f3 : BitVec 3) (rd : Reg) (op : BitVec 7) :
    fieldRs1 (encodeI imm rs1 f3 rd op) = rs1 := by
  apply BitVec.eq_of_getLsbD_eq
  intro j hj
  simp only [fieldRs1, encodeI, BitVec.getLsbD_extractLsb', BitVec.getLsbD_append]
  interval_cases j <;> simp

@[simp] theorem fieldImmI_encodeI (imm : BitVec 12) (rs1 : Reg) (f3 : BitVec 3) (rd : Reg) (op : BitVec 7) :
    fieldImmI (encodeI imm rs1 f3 rd op) = imm := by
  apply BitVec.eq_of_getLsbD_eq
  intro j hj
  simp only [fieldImmI, encodeI, BitVec.getLsbD_extractLsb', BitVec.getLsbD_append]
  interval_cases j <;> simp

@[simp] theorem fieldCsr_encodeI (imm : BitVec 12) (rs1 : Reg) (f3 : BitVec 3) (rd : Reg) (op : BitVec 7) :
    fieldCsr (encodeI imm rs1 f3 rd op) = imm := by
  apply BitVec.eq_of_getLsbD_eq
  intro j hj
  simp only [fieldCsr, encodeI, BitVec.getLsbD_extractLsb', BitVec.getLsbD_append]
  interval_cases j <;> simp

@[simp] theorem fieldOpcode_encodeShift (f6 shamt : BitVec 6) (rs1 : Reg) (f3 : BitVec 3) (rd : Reg) :
    fieldOpcode (encodeShift f6 shamt rs1 f3 rd) = 0x13#7 := by
  apply BitVec.eq_of_getLsbD_eq
  intro j hj
  simp only [fieldOpcode, encodeShift, BitVec.getLsbD_extractLsb', BitVec.getLsbD_append]
  interval_cases j <;> simp

@[simp] theorem fieldRd_encodeShift (f6 shamt : BitVec 6) (rs1 : Reg) (f3 : BitVec 3) (rd : Reg) :
    fieldRd (encodeShift f6 shamt rs1 f3 rd) = rd := by
  apply BitVec.eq_of_getLsbD_eq
  intro j hj
  simp only [fieldRd, encodeShift, BitVec.getLsbD_extractLsb', BitVec.getLsbD_append]
  interval_cases j <;> simp

@[simp] theorem fieldFunct3_encodeShift (f6 shamt : BitVec 6) (rs1 : Reg) (f3 : BitVec 3) (rd : Reg) :
    fieldFunct3 (encodeShift f6 shamt rs1 f3 rd) = f3 := by
  apply BitVec.eq_of_getLsbD_eq
  intro j hj
  simp only [fieldFunct3, encodeShift, BitVec.getLsbD_extractLsb', BitVec.getLsbD_append]
  interval_cases j <;> simp

@[simp] theorem fieldRs1_encodeShift (f6 shamt : BitVec 6) (rs1 : Reg) (f3 : BitVec 3) (rd : Reg) :
    fieldRs1 (encodeShift f6 shamt rs1 f3 rd) = rs1 := by
  apply BitVec.eq_of_getLsbD_eq
  intro j hj
  simp only [fieldRs1, encodeShift, BitVec.getLsbD_extractLsb', BitVec.getLsbD_append]
  interval_cases j <;> simp

@[simp] theorem fieldShamt_encodeShift (f6 shamt : BitVec 6) (rs1 : Reg) (f3 : BitVec 3) (rd : Reg) :
    fieldShamt (encodeShift f6 shamt rs1 f3 rd) = shamt := by
  apply BitVec.eq_of_getLsbD_eq
  intro j hj
  simp only [fieldShamt, encodeShift, BitVec.getLsbD_extractLsb', BitVec.getLsbD_append]
  interval_cases j <;> simp

@[simp] theorem fieldFunct6_encodeShift (f6 shamt : BitVec 6) (rs1 : Reg) (f3 : BitVec 3) (rd : Reg) :
    fieldFunct6 (encodeShift f6 shamt rs1 f3 rd) = f6 := by
  apply BitVec.eq_of_getLsbD_eq
  intro j hj
  simp only [fieldFunct6, encodeShift, BitVec.getLsbD_extractLsb', BitVec.getLsbD_append]
  interval_cases j <;> simp

@[simp] theorem fieldOpcode_encodeS (imm : BitVec 12) (rs2 rs1 : Reg) (f3 : BitVec 3) :
    fieldOpcode (encodeS imm rs2 rs1 f3) = 0x23#7 := by
  apply BitVec.eq_of_getLsbD_eq
  intro j hj
  simp only [fieldOpcode, encodeS, BitVec.getLsbD_extractLsb', BitVec.getLsbD_append]
  interval_cases j <;> simp

@[simp] theorem fieldFunct3_encodeS (imm : BitVec 12) (rs2 rs1 : Reg) (f3 : BitVec 3) :
    fieldFunct3 (encodeS imm rs2 rs1 f3) = f3 := by
  apply BitVec.eq_of_getLsbD_eq
  intro j hj
  simp only [fieldFunct3, encodeS, BitVec.getLsbD_extractLsb', BitVec.getLsbD_append]
  interval_cases j <;> simp

@[simp] theorem fieldRs1_encodeS (imm : BitVec 12) (rs2 rs1 : Reg) (f3 : BitVec 3) :
    fieldRs1 (encodeS imm rs2 rs1 f3) = rs1 := by
  apply BitVec.eq_of_getLsbD_eq
  intro j hj
  simp only [fieldRs1, encodeS, BitVec.getLsbD_extractLsb', BitVec.getLsbD_append]
  interval_cases j <;> simp

@[simp] theorem fieldRs2_encodeS (imm : BitVec 12) (rs2 rs1 : Reg) (f3 : BitVec 3) :
    fieldRs2 (encodeS imm rs2 rs1 f3) = rs2 := by
  apply BitVec.eq_of_getLsbD_eq
  intro j hj
  simp only [fieldRs2, encodeS, BitVec.getLsbD_extractLsb', BitVec.getLsbD_append]
  interval_cases j <;> simp

@[simp] theorem fieldImmS_encodeS (imm : BitVec 12) (rs2 rs1 : Reg) (f3 : BitVec 3) :
    fieldImmS (encodeS imm rs2 rs1 f3) = imm := by
  apply BitVec.eq_of_getLsbD_eq
  intro j hj
  simp only [fieldImmS, encodeS, BitVec.getLsbD_extractLsb', BitVec.getLsbD_append]
  interval_cases j <;> simp

@[simp] theorem fieldOpcode_encodeB (imm : BitVec 13) (rs2 rs1 : Reg) (f3 : BitVec 3) :
    fieldOpcode (encodeB imm rs2 rs1 f3) = 0x63#7 := by
  apply BitVec.eq_of_getLsbD_eq
  intro j hj
  simp only [fieldOpcode, encodeB, BitVec.getLsbD_extractLsb', BitVec.getLsbD_append]
  interval_cases j <;> simp

@[simp] theorem fieldFunct3_encodeB (imm : BitVec 13) (rs2 rs1 : Reg) (f3 : BitVec 3) :
    fieldFunct3 (encodeB imm rs2 rs1 f3) = f3 := by
  apply BitVec.eq_of_getLsbD_eq
  intro j hj
  simp only [fieldFunct3, encodeB, BitVec.getLsbD_extractLsb', BitVec.getLsbD_append]
  interval_cases j <;> simp

@[simp] theorem fieldRs1_encodeB (imm : BitVec 13) (rs2 rs1 : Reg) (f3 : BitVec 3) :
    fieldRs1 (encodeB imm rs2 rs1 f3) = rs1 := by
  apply BitVec.eq_of_getLsbD_eq
  intro j hj
  simp only [fieldRs1, encodeB, BitVec.getLsbD_extractLsb', BitVec.getLsbD_append]
  interval_cases j <;> simp

@[simp] theorem fieldRs2_encodeB (imm : BitVec 13) (rs2 rs1 : Reg) (f3 : BitVec 3) :
    fieldRs2 (encodeB imm rs2 rs1 f3) = rs2 := by
  apply BitVec.eq_of_getLsbD_eq
  intro j hj
  simp only [fieldRs2, encodeB, BitVec.getLsbD_extractLsb', BitVec.getLsbD_append]
  interval_cases j <;> simp

@[simp] theorem fieldOpcode_encodeU (imm : BitVec 20) (rd : Reg) (op : BitVec 7) :
    fieldOpcode (encodeU imm rd op) = op := by
  apply BitVec.eq_of_getLsbD_eq
  intro j hj
  simp only [fieldOpcode, encodeU, BitVec.getLsbD_extractLsb', BitVec.getLsbD_append]
  interval_cases j <;> simp

@[simp] theorem fieldRd_encodeU (imm : BitVec 20) (rd : Reg) (op : BitVec 7) :
    fieldRd (encodeU imm rd op) = rd := by
  apply BitVec.eq_of_getLsbD_eq
  intro j hj
  simp only [fieldRd, encodeU, BitVec.getLsbD_extractLsb', BitVec.getLsbD_append]
  interval_cases j <;> simp

@[simp] theorem fieldImmU_encodeU (imm : BitVec 20) (rd : Reg) (op : BitVec 7) :
    fieldImmU (encodeU imm rd op) = imm := by
  apply BitVec.eq_of_getLsbD_eq
  intro j hj
  simp only [fieldImmU, encodeU, BitVec.getLsbD_extractLsb', BitVec.getLsbD_append]
  interval_cases j <;> simp

@[simp] theorem fieldOpcode_encodeJ (imm : BitVec 21) (rd : Reg) :
    fieldOpcode (encodeJ imm rd) = 0x6F#7 := by
  apply BitVec.eq_of_getLsbD_eq
  intro j hj
  simp only [fieldOpcode, encodeJ, BitVec.getLsbD_extractLsb', BitVec.getLsbD_append]
  interval_cases j <;> simp

@[simp] theorem fieldRd_encodeJ (imm : BitVec 21) (rd : Reg) :
    fieldRd (encodeJ imm rd) = rd := by
  apply BitVec.eq_of_getLsbD_eq
  intro j hj
  simp only [fieldRd, encodeJ, BitVec.getLsbD_extractLsb', BitVec.getLsbD_append]
  interval_cases j <;> simp

/-- The offset comes back when its bit 0, which is not encoded, is 0. -/
theorem fieldImmB_encodeB (imm : BitVec 13) (rs2 rs1 : Reg) (f3 : BitVec 3) (h : evenOffset imm = true) :
    fieldImmB (encodeB imm rs2 rs1 f3) = imm := by
  have h0 : imm.getLsbD 0 = false := by simpa [evenOffset] using h
  apply BitVec.eq_of_getLsbD_eq
  intro j hj
  simp only [fieldImmB, encodeB, BitVec.getLsbD_extractLsb', BitVec.getLsbD_append]
  interval_cases j <;> simp_all

/-- The offset comes back when its bit 0, which is not encoded, is 0. -/
theorem fieldImmJ_encodeJ (imm : BitVec 21) (rd : Reg) (h : evenOffset imm = true) :
    fieldImmJ (encodeJ imm rd) = imm := by
  have h0 : imm.getLsbD 0 = false := by simpa [evenOffset] using h
  apply BitVec.eq_of_getLsbD_eq
  intro j hj
  simp only [fieldImmJ, encodeJ, BitVec.getLsbD_extractLsb', BitVec.getLsbD_append]
  interval_cases j <;> simp_all

/-- w[25] of a shift-immediate is bit 5 of its amount. -/
@[simp] theorem bit25_encodeShift (f6 shamt : BitVec 6) (rs1 : Reg) (f3 : BitVec 3) (rd : Reg) :
    (encodeShift f6 shamt rs1 f3 rd).getLsbD 25 = shamt.getLsbD 5 := by
  simp only [encodeShift, BitVec.getLsbD_append]
  simp

@[simp] theorem getElem25_encodeShift (f6 shamt : BitVec 6) (rs1 : Reg) (f3 : BitVec 3) (rd : Reg) :
    (encodeShift f6 shamt rs1 f3 rd)[25] = shamt.getLsbD 5 := by
  rw [← BitVec.getLsbD_eq_getElem, bit25_encodeShift]

/-- At an amount below 32 the function field of a shift-immediate reads as a funct7 with a 0 under it (rule R113). -/
theorem fieldFunct7_encodeShift (f6 shamt : BitVec 6) (rs1 : Reg) (f3 : BitVec 3) (rd : Reg)
    (h : shamt.getLsbD 5 = false) : fieldFunct7 (encodeShift f6 shamt rs1 f3 rd) = f6 ++ 0#1 := by
  apply BitVec.eq_of_getLsbD_eq
  intro j hj
  simp only [fieldFunct7, encodeShift, BitVec.getLsbD_extractLsb', BitVec.getLsbD_append]
  interval_cases j <;> simp_all

/-- A shift amount fits XLEN = 32 exactly when its bit 5 is 0 (rule R139). -/
theorem shamtFits_rv32 (shamt : BitVec 6) : shamtFits .rv32 shamt = !shamt.getLsbD 5 := by
  revert shamt; decide

/-- Every shift amount fits XLEN = 64 (rule R124). -/
@[simp] theorem shamtFits_rv64 (shamt : BitVec 6) : shamtFits .rv64 shamt = true := by
  revert shamt; decide

/-! ### Words rebuilt from their fields (rules R112 to R117) -/

theorem encodeR_fields (w : InstrWord) :
    encodeR (fieldFunct7 w) (fieldRs2 w) (fieldRs1 w) (fieldFunct3 w) (fieldRd w) (fieldOpcode w) = w := by
  apply BitVec.eq_of_getLsbD_eq
  intro j hj
  simp only [encodeR, fieldFunct7, fieldRs2, fieldRs1, fieldFunct3, fieldRd, fieldOpcode, BitVec.getLsbD_append,
    BitVec.getLsbD_extractLsb']
  interval_cases j <;> simp

theorem encodeI_fields (w : InstrWord) :
    encodeI (fieldImmI w) (fieldRs1 w) (fieldFunct3 w) (fieldRd w) (fieldOpcode w) = w := by
  apply BitVec.eq_of_getLsbD_eq
  intro j hj
  simp only [encodeI, fieldImmI, fieldRs1, fieldFunct3, fieldRd, fieldOpcode, BitVec.getLsbD_append,
    BitVec.getLsbD_extractLsb']
  interval_cases j <;> simp

theorem encodeShift_fields (w : InstrWord) (h : fieldOpcode w = 0x13#7) :
    encodeShift (fieldFunct6 w) (fieldShamt w) (fieldRs1 w) (fieldFunct3 w) (fieldRd w) = w := by
  unfold encodeShift
  rw [← h]
  apply BitVec.eq_of_getLsbD_eq
  intro j hj
  simp only [fieldFunct6, fieldShamt, fieldRs1, fieldFunct3, fieldRd, fieldOpcode, BitVec.getLsbD_append,
    BitVec.getLsbD_extractLsb']
  interval_cases j <;> simp

theorem encodeS_fields (w : InstrWord) (h : fieldOpcode w = 0x23#7) :
    encodeS (fieldImmS w) (fieldRs2 w) (fieldRs1 w) (fieldFunct3 w) = w := by
  unfold encodeS
  rw [← h]
  apply BitVec.eq_of_getLsbD_eq
  intro j hj
  simp only [fieldImmS, fieldRs2, fieldRs1, fieldFunct3, fieldOpcode, BitVec.getLsbD_append,
    BitVec.getLsbD_extractLsb']
  interval_cases j <;> simp

theorem encodeB_fields (w : InstrWord) (h : fieldOpcode w = 0x63#7) :
    encodeB (fieldImmB w) (fieldRs2 w) (fieldRs1 w) (fieldFunct3 w) = w := by
  unfold encodeB
  rw [← h]
  apply BitVec.eq_of_getLsbD_eq
  intro j hj
  simp only [fieldImmB, fieldRs2, fieldRs1, fieldFunct3, fieldOpcode, BitVec.getLsbD_append,
    BitVec.getLsbD_extractLsb']
  interval_cases j <;> simp

theorem encodeU_fields (w : InstrWord) : encodeU (fieldImmU w) (fieldRd w) (fieldOpcode w) = w := by
  apply BitVec.eq_of_getLsbD_eq
  intro j hj
  simp only [encodeU, fieldImmU, fieldRd, fieldOpcode, BitVec.getLsbD_append, BitVec.getLsbD_extractLsb']
  interval_cases j <;> simp

theorem encodeJ_fields (w : InstrWord) (h : fieldOpcode w = 0x6F#7) : encodeJ (fieldImmJ w) (fieldRd w) = w := by
  unfold encodeJ
  rw [← h]
  apply BitVec.eq_of_getLsbD_eq
  intro j hj
  simp only [fieldImmJ, fieldRd, fieldOpcode, BitVec.getLsbD_append, BitVec.getLsbD_extractLsb']
  interval_cases j <;> simp

/-- A decoded branch offset is even (rule R121). -/
theorem evenOffset_fieldImmB (w : InstrWord) : evenOffset (fieldImmB w) = true := by
  simp only [evenOffset, fieldImmB, BitVec.getLsbD_append]
  simp

/-- A decoded JAL offset is even (rule R123). -/
theorem evenOffset_fieldImmJ (w : InstrWord) : evenOffset (fieldImmJ w) = true := by
  simp only [evenOffset, fieldImmJ, BitVec.getLsbD_append]
  simp

/-- A decoded shift amount is below XLEN when w[25] is 0 at XLEN = 32 (rule R139). -/
theorem shamtFits_fieldShamt {xl : Xlen} {w : InstrWord} (h : xl = .rv64 ∨ w.getLsbD 25 = false) :
    shamtFits xl (fieldShamt w) = true := by
  cases xl
  · rcases h with h | h
    · cases h
    · rw [shamtFits_rv32]; simpa [fieldShamt, BitVec.getLsbD_extractLsb'] using h
  · exact shamtFits_rv64 _

/-! ### What the masks of the table test -/

/-- A bit of a field of an instruction word. -/
theorem getLsbD_of_extractLsb'_eq {w p : InstrWord} {lo n : Nat} (h : w.extractLsb' lo n = p.extractLsb' lo n) {j : Nat}
    (h1 : lo ≤ j) (h2 : j < lo + n) : w.getLsbD j = p.getLsbD j := by
  have := congrArg (fun v => v.getLsbD (j - lo)) h
  simpa [BitVec.getLsbD_extractLsb', show j - lo < n by omega, show lo + (j - lo) = j by omega] using this

/-- The mask 0x0000007F tests fieldOpcode. -/
theorem mask_opcode (w p : InstrWord) (hp : p &&& 0x0000007F#32 = p) :
    w &&& 0x0000007F#32 = p ↔ fieldOpcode w = fieldOpcode p := by
  have k0 : fieldOpcode (w &&& 0x0000007F#32) = fieldOpcode w := by
    apply BitVec.eq_of_getLsbD_eq
    intro j hj
    simp only [fieldOpcode, BitVec.getLsbD_extractLsb', BitVec.getLsbD_and]
    interval_cases j <;> simp
  constructor
  · intro h
    exact by rw [← k0, h]
  · rintro e0
    rw [← hp]
    apply BitVec.eq_of_getLsbD_eq
    intro j hj
    simp only [BitVec.getLsbD_and]
    by_cases hm : (0x0000007F#32).getLsbD j = true
    · congr 1
      interval_cases j <;> first
        | exact absurd hm (by decide)
        | exact getLsbD_of_extractLsb'_eq e0 (by omega) (by omega)
    · simp [hm]

/-- The mask 0x0000707F tests fieldOpcode, fieldFunct3. -/
theorem mask_funct3 (w p : InstrWord) (hp : p &&& 0x0000707F#32 = p) :
    w &&& 0x0000707F#32 = p ↔ fieldOpcode w = fieldOpcode p ∧ fieldFunct3 w = fieldFunct3 p := by
  have k0 : fieldOpcode (w &&& 0x0000707F#32) = fieldOpcode w := by
    apply BitVec.eq_of_getLsbD_eq
    intro j hj
    simp only [fieldOpcode, BitVec.getLsbD_extractLsb', BitVec.getLsbD_and]
    interval_cases j <;> simp
  have k1 : fieldFunct3 (w &&& 0x0000707F#32) = fieldFunct3 w := by
    apply BitVec.eq_of_getLsbD_eq
    intro j hj
    simp only [fieldFunct3, BitVec.getLsbD_extractLsb', BitVec.getLsbD_and]
    interval_cases j <;> simp
  constructor
  · intro h
    exact ⟨by rw [← k0, h], by rw [← k1, h]⟩
  · rintro ⟨e0, e1⟩
    rw [← hp]
    apply BitVec.eq_of_getLsbD_eq
    intro j hj
    simp only [BitVec.getLsbD_and]
    by_cases hm : (0x0000707F#32).getLsbD j = true
    · congr 1
      interval_cases j <;> first
        | exact absurd hm (by decide)
        | exact getLsbD_of_extractLsb'_eq e0 (by omega) (by omega)
        | exact getLsbD_of_extractLsb'_eq e1 (by omega) (by omega)
    · simp [hm]

/-- The mask 0xFE00707F tests fieldOpcode, fieldFunct3, fieldFunct7. -/
theorem mask_funct7 (w p : InstrWord) (hp : p &&& 0xFE00707F#32 = p) :
    w &&& 0xFE00707F#32 = p ↔ fieldOpcode w = fieldOpcode p ∧ fieldFunct3 w = fieldFunct3 p ∧ fieldFunct7 w = fieldFunct7 p := by
  have k0 : fieldOpcode (w &&& 0xFE00707F#32) = fieldOpcode w := by
    apply BitVec.eq_of_getLsbD_eq
    intro j hj
    simp only [fieldOpcode, BitVec.getLsbD_extractLsb', BitVec.getLsbD_and]
    interval_cases j <;> simp
  have k1 : fieldFunct3 (w &&& 0xFE00707F#32) = fieldFunct3 w := by
    apply BitVec.eq_of_getLsbD_eq
    intro j hj
    simp only [fieldFunct3, BitVec.getLsbD_extractLsb', BitVec.getLsbD_and]
    interval_cases j <;> simp
  have k2 : fieldFunct7 (w &&& 0xFE00707F#32) = fieldFunct7 w := by
    apply BitVec.eq_of_getLsbD_eq
    intro j hj
    simp only [fieldFunct7, BitVec.getLsbD_extractLsb', BitVec.getLsbD_and]
    interval_cases j <;> simp
  constructor
  · intro h
    exact ⟨by rw [← k0, h], by rw [← k1, h], by rw [← k2, h]⟩
  · rintro ⟨e0, e1, e2⟩
    rw [← hp]
    apply BitVec.eq_of_getLsbD_eq
    intro j hj
    simp only [BitVec.getLsbD_and]
    by_cases hm : (0xFE00707F#32).getLsbD j = true
    · congr 1
      interval_cases j <;> first
        | exact absurd hm (by decide)
        | exact getLsbD_of_extractLsb'_eq e0 (by omega) (by omega)
        | exact getLsbD_of_extractLsb'_eq e1 (by omega) (by omega)
        | exact getLsbD_of_extractLsb'_eq e2 (by omega) (by omega)
    · simp [hm]

/-- The mask 0xFC00707F tests fieldOpcode, fieldFunct3, fieldFunct6. -/
theorem mask_funct6 (w p : InstrWord) (hp : p &&& 0xFC00707F#32 = p) :
    w &&& 0xFC00707F#32 = p ↔ fieldOpcode w = fieldOpcode p ∧ fieldFunct3 w = fieldFunct3 p ∧ fieldFunct6 w = fieldFunct6 p := by
  have k0 : fieldOpcode (w &&& 0xFC00707F#32) = fieldOpcode w := by
    apply BitVec.eq_of_getLsbD_eq
    intro j hj
    simp only [fieldOpcode, BitVec.getLsbD_extractLsb', BitVec.getLsbD_and]
    interval_cases j <;> simp
  have k1 : fieldFunct3 (w &&& 0xFC00707F#32) = fieldFunct3 w := by
    apply BitVec.eq_of_getLsbD_eq
    intro j hj
    simp only [fieldFunct3, BitVec.getLsbD_extractLsb', BitVec.getLsbD_and]
    interval_cases j <;> simp
  have k2 : fieldFunct6 (w &&& 0xFC00707F#32) = fieldFunct6 w := by
    apply BitVec.eq_of_getLsbD_eq
    intro j hj
    simp only [fieldFunct6, BitVec.getLsbD_extractLsb', BitVec.getLsbD_and]
    interval_cases j <;> simp
  constructor
  · intro h
    exact ⟨by rw [← k0, h], by rw [← k1, h], by rw [← k2, h]⟩
  · rintro ⟨e0, e1, e2⟩
    rw [← hp]
    apply BitVec.eq_of_getLsbD_eq
    intro j hj
    simp only [BitVec.getLsbD_and]
    by_cases hm : (0xFC00707F#32).getLsbD j = true
    · congr 1
      interval_cases j <;> first
        | exact absurd hm (by decide)
        | exact getLsbD_of_extractLsb'_eq e0 (by omega) (by omega)
        | exact getLsbD_of_extractLsb'_eq e1 (by omega) (by omega)
        | exact getLsbD_of_extractLsb'_eq e2 (by omega) (by omega)
    · simp [hm]

/-- The mask 0x000FFFFF tests fieldOpcode, fieldRd, fieldFunct3, fieldRs1. -/
theorem mask_low20 (w p : InstrWord) (hp : p &&& 0x000FFFFF#32 = p) :
    w &&& 0x000FFFFF#32 = p ↔ fieldOpcode w = fieldOpcode p ∧ fieldRd w = fieldRd p ∧ fieldFunct3 w = fieldFunct3 p ∧ fieldRs1 w = fieldRs1 p := by
  have k0 : fieldOpcode (w &&& 0x000FFFFF#32) = fieldOpcode w := by
    apply BitVec.eq_of_getLsbD_eq
    intro j hj
    simp only [fieldOpcode, BitVec.getLsbD_extractLsb', BitVec.getLsbD_and]
    interval_cases j <;> simp
  have k1 : fieldRd (w &&& 0x000FFFFF#32) = fieldRd w := by
    apply BitVec.eq_of_getLsbD_eq
    intro j hj
    simp only [fieldRd, BitVec.getLsbD_extractLsb', BitVec.getLsbD_and]
    interval_cases j <;> simp
  have k2 : fieldFunct3 (w &&& 0x000FFFFF#32) = fieldFunct3 w := by
    apply BitVec.eq_of_getLsbD_eq
    intro j hj
    simp only [fieldFunct3, BitVec.getLsbD_extractLsb', BitVec.getLsbD_and]
    interval_cases j <;> simp
  have k3 : fieldRs1 (w &&& 0x000FFFFF#32) = fieldRs1 w := by
    apply BitVec.eq_of_getLsbD_eq
    intro j hj
    simp only [fieldRs1, BitVec.getLsbD_extractLsb', BitVec.getLsbD_and]
    interval_cases j <;> simp
  constructor
  · intro h
    exact ⟨by rw [← k0, h], by rw [← k1, h], by rw [← k2, h], by rw [← k3, h]⟩
  · rintro ⟨e0, e1, e2, e3⟩
    rw [← hp]
    apply BitVec.eq_of_getLsbD_eq
    intro j hj
    simp only [BitVec.getLsbD_and]
    by_cases hm : (0x000FFFFF#32).getLsbD j = true
    · congr 1
      interval_cases j <;> first
        | exact absurd hm (by decide)
        | exact getLsbD_of_extractLsb'_eq e0 (by omega) (by omega)
        | exact getLsbD_of_extractLsb'_eq e1 (by omega) (by omega)
        | exact getLsbD_of_extractLsb'_eq e2 (by omega) (by omega)
        | exact getLsbD_of_extractLsb'_eq e3 (by omega) (by omega)
    · simp [hm]

end Sys2Proof
end

