-- ==== Sys2Proof/Laws/Flags.lean ====
section
/-! SUPPORT. The bits of a field replacement and of what trap entry and the returns make of mstatus, and the privilege
levels as 2-bit values. -/

namespace Sys2Proof.Machine

/-- The bits after a field is replaced. -/
theorem getLsbD_setBits {w len : Nat} (v : BitVec w) (lo : Nat) (f : BitVec len) (j : Nat) :
    (setBits v lo f).getLsbD j =
      if lo ≤ j ∧ j < lo + len ∧ j < w then f.getLsbD (j - lo) else v.getLsbD j := by
  unfold setBits
  simp only [BitVec.getLsbD_or, BitVec.getLsbD_and, BitVec.getLsbD_not, BitVec.getLsbD_shiftLeft,
    BitVec.getLsbD_setWidth, BitVec.getLsbD_allOnes]
  by_cases hw : j < w
  · by_cases h1 : lo ≤ j
    · by_cases h2 : j < lo + len
      · have h3 : j - lo < len := by omega
        have h4 : j - lo < w := by omega
        simp [hw, h1, h2, h3, h4, show ¬ j < lo by omega]
      · have h3 : ¬ j - lo < len := by omega
        have h5 : f.getLsbD (j - lo) = false := BitVec.getLsbD_of_ge _ _ (by omega)
        simp [hw, h1, h2, h3, h5]
    · simp [hw, h1, show j < lo by omega]
  · have : v.getLsbD j = false := BitVec.getLsbD_of_ge _ _ (by omega)
    simp [hw, this]

theorem Priv.ofBits_bits (p : Priv) : Priv.ofBits p.bits = some p := by cases p <;> rfl

theorem Priv.ofBits_eq_none {b : BitVec 2} : Priv.ofBits b = none ↔ b = 0b10#2 := by
  revert b; decide

theorem Priv.ofBits_eq_some {b : BitVec 2} {p : Priv} : Priv.ofBits b = some p ↔ b = p.bits := by
  revert b; cases p <;> decide

/-- mstatus after trap entry, bit by bit (rule R310). -/
theorem Mstatus.getLsbD_pushTrap {w : Nat} (hw : 32 ≤ w) (v : BitVec w) (p : Priv) (j : Nat) :
    (Mstatus.pushTrap v p).getLsbD j =
      if j = 7 then v.getLsbD 3
      else if j = 3 then false
      else if j = 11 then p.bits.getLsbD 0
      else if j = 12 then p.bits.getLsbD 1
      else v.getLsbD j := by
  by_cases c7 : j = 7
  · subst c7
    simp only [Mstatus.pushTrap, Mstatus.setMpp, Mstatus.setMie, Mstatus.setMpie, Mstatus.mie, getLsbD_setBits, BitVec.getLsbD_extractLsb']
    simp [show 7 < w by omega]
  by_cases c3 : j = 3
  · subst c3
    simp only [Mstatus.pushTrap, Mstatus.setMpp, Mstatus.setMie, getLsbD_setBits]
    simp [show 3 < w by omega]
  by_cases c11 : j = 11
  · subst c11
    simp only [Mstatus.pushTrap, Mstatus.setMpp, getLsbD_setBits]
    simp [show 11 < w by omega]
  by_cases c12 : j = 12
  · subst c12
    simp only [Mstatus.pushTrap, Mstatus.setMpp, getLsbD_setBits]
    simp [show 12 < w by omega]
  have n1 : ¬ (11 ≤ j ∧ j < 11 + 2 ∧ j < w) := by omega
  have n2 : ¬ (3 ≤ j ∧ j < 3 + 1 ∧ j < w) := by omega
  have n3 : ¬ (7 ≤ j ∧ j < 7 + 1 ∧ j < w) := by omega
  simp only [Mstatus.pushTrap, Mstatus.setMpp, Mstatus.setMie, Mstatus.setMpie, getLsbD_setBits, n1, n2, n3, c7, c3, c11,
    c12, if_false]

/-- mstatus after MRET, bit by bit (rule R276). -/
theorem Mstatus.getLsbD_popMachine {w : Nat} (hw : 32 ≤ w) (v : BitVec w) (j : Nat) :
    (Mstatus.popMachine v).getLsbD j =
      if j = 3 then v.getLsbD 7
      else if j = 7 then true
      else if j = 11 ∨ j = 12 ∨ j = 17 then false
      else v.getLsbD j := by
  by_cases c3 : j = 3
  · subst c3
    simp only [Mstatus.popMachine, Mstatus.setMprv, Mstatus.setMpp, Mstatus.setMpie, Mstatus.setMie, Mstatus.mpie, getLsbD_setBits, BitVec.getLsbD_extractLsb']
    simp [show 3 < w by omega]
  by_cases c7 : j = 7
  · subst c7
    simp only [Mstatus.popMachine, Mstatus.setMprv, Mstatus.setMpp, Mstatus.setMpie, getLsbD_setBits]
    simp [show 7 < w by omega]
  by_cases c11 : j = 11
  · subst c11
    simp only [Mstatus.popMachine, Mstatus.setMprv, Mstatus.setMpp, getLsbD_setBits]
    simp [show 11 < w by omega]
  by_cases c12 : j = 12
  · subst c12
    simp only [Mstatus.popMachine, Mstatus.setMprv, Mstatus.setMpp, getLsbD_setBits]
    simp [show 12 < w by omega]
  by_cases c17 : j = 17
  · subst c17
    simp only [Mstatus.popMachine, Mstatus.setMprv, getLsbD_setBits]
    simp [show 17 < w by omega]
  have n1 : ¬ (11 ≤ j ∧ j < 11 + 2 ∧ j < w) := by omega
  have n2 : ¬ (3 ≤ j ∧ j < 3 + 1 ∧ j < w) := by omega
  have n3 : ¬ (7 ≤ j ∧ j < 7 + 1 ∧ j < w) := by omega
  have n4 : ¬ (17 ≤ j ∧ j < 17 + 1 ∧ j < w) := by omega
  simp only [Mstatus.popMachine, Mstatus.setMprv, Mstatus.setMpp, Mstatus.setMie, Mstatus.setMpie, getLsbD_setBits, n1,
    n2, n3, n4, c7, c3, c11, c12, c17, or_self, if_false]

/-- mstatus after SRET, bit by bit (rule R277). -/
theorem Mstatus.getLsbD_popSupervisor {w : Nat} (hw : 32 ≤ w) (v : BitVec w) (j : Nat) :
    (Mstatus.popSupervisor v).getLsbD j =
      if j = 1 then v.getLsbD 5
      else if j = 5 then true
      else if j = 8 ∨ j = 17 then false
      else v.getLsbD j := by
  by_cases c1 : j = 1
  · subst c1
    simp only [Mstatus.popSupervisor, Mstatus.setMprv, Mstatus.setSpp, Mstatus.setSpie, Mstatus.setSie, Mstatus.spie, getLsbD_setBits, BitVec.getLsbD_extractLsb']
    simp [show 1 < w by omega]
  by_cases c5 : j = 5
  · subst c5
    simp only [Mstatus.popSupervisor, Mstatus.setMprv, Mstatus.setSpp, Mstatus.setSpie, getLsbD_setBits]
    simp [show 5 < w by omega]
  by_cases c8 : j = 8
  · subst c8
    simp only [Mstatus.popSupervisor, Mstatus.setMprv, Mstatus.setSpp, getLsbD_setBits]
    simp [show 8 < w by omega]
  by_cases c17 : j = 17
  · subst c17
    simp only [Mstatus.popSupervisor, Mstatus.setMprv, getLsbD_setBits]
    simp [show 17 < w by omega]
  have n1 : ¬ (1 ≤ j ∧ j < 1 + 1 ∧ j < w) := by omega
  have n2 : ¬ (5 ≤ j ∧ j < 5 + 1 ∧ j < w) := by omega
  have n3 : ¬ (8 ≤ j ∧ j < 8 + 1 ∧ j < w) := by omega
  have n4 : ¬ (17 ≤ j ∧ j < 17 + 1 ∧ j < w) := by omega
  simp only [Mstatus.popSupervisor, Mstatus.setMprv, Mstatus.setSpp, Mstatus.setSpie, Mstatus.setSie, getLsbD_setBits, n1,
    n2, n3, n4, c1, c5, c8, c17, or_self, if_false]

end Sys2Proof.Machine
end

