-- ==== Sys2Proof/Laws/State.lean ====
section
/-! SUPPORT. One lemma per field per update, and the accessors over updates of fields they do not read: no later proof
unfolds a record update. -/

namespace Sys2Proof.Machine

variable {xl : Xlen}

/-! ### Writing a register -/

@[simp] theorem Hart.setX_pc (h : Hart xl) (r : Reg) (v : Word xl) : (h.setX r v).pc = h.pc := by
  unfold Hart.setX; split <;> rfl
@[simp] theorem Hart.setX_branchTaken (h : Hart xl) (r : Reg) (v : Word xl) : (h.setX r v).branchTaken = h.branchTaken := by
  unfold Hart.setX; split <;> rfl
@[simp] theorem Hart.setX_jumpTaken (h : Hart xl) (r : Reg) (v : Word xl) : (h.setX r v).jumpTaken = h.jumpTaken := by
  unfold Hart.setX; split <;> rfl
@[simp] theorem Hart.setX_trapTaken (h : Hart xl) (r : Reg) (v : Word xl) : (h.setX r v).trapTaken = h.trapTaken := by
  unfold Hart.setX; split <;> rfl
@[simp] theorem Hart.setX_priv (h : Hart xl) (r : Reg) (v : Word xl) : (h.setX r v).priv = h.priv := by
  unfold Hart.setX; split <;> rfl
@[simp] theorem Hart.setX_csrs (h : Hart xl) (r : Reg) (v : Word xl) : (h.setX r v).csrs = h.csrs := by
  unfold Hart.setX; split <;> rfl
@[simp] theorem Hart.setX_mem (h : Hart xl) (r : Reg) (v : Word xl) : (h.setX r v).mem = h.mem := by
  unfold Hart.setX; split <;> rfl
@[simp] theorem Hart.setX_params (h : Hart xl) (r : Reg) (v : Word xl) : (h.setX r v).params = h.params := by
  unfold Hart.setX; split <;> rfl

@[simp] theorem Hart.getX_zero (h : Hart xl) : h.getX 0#5 = 0 := by simp [Hart.getX]

/-- Reading a register after a write: the value at `r` unless `r` is x0, every other register as before (rule R31). -/
theorem Hart.getX_setX (h : Hart xl) (r q : Reg) (v : Word xl) :
    (h.setX r v).getX q = if q = r ∧ q ≠ 0 then v else h.getX q := by
  by_cases hr : r = 0
  · subst hr
    simp only [Hart.setX, dite_true]
    split
    · rename_i hq; exact absurd hq.1 hq.2
    · rfl
  · by_cases hq : q = 0
    · subst hq; simp
    · simp only [Hart.getX, Hart.setX, hr, hq, dite_false, ne_eq, not_false_eq_true, and_true]
      by_cases e : q = r
      · subst e; simp
      · have hne : q.toNat ≠ r.toNat := fun h => e (BitVec.eq_of_toNat_eq h)
        have h0 : ∀ p : Reg, p ≠ 0 → p.toNat ≠ 0 := fun p hp h => hp (BitVec.eq_of_toNat_eq (by simpa using h))
        have := h0 q hq
        have := h0 r hr
        simp only [e, if_false]
        exact Vector.getElem_set_ne (by omega) (by omega) (by omega)

/-! ### Writing a CSR cell -/

@[simp] theorem Hart.setCsr_x (h : Hart xl) (a : CsrAddr) (v : Word xl) : (h.setCsr a v).x = h.x := rfl
@[simp] theorem Hart.setCsr_pc (h : Hart xl) (a : CsrAddr) (v : Word xl) : (h.setCsr a v).pc = h.pc := rfl
@[simp] theorem Hart.setCsr_branchTaken (h : Hart xl) (a : CsrAddr) (v : Word xl) : (h.setCsr a v).branchTaken = h.branchTaken := rfl
@[simp] theorem Hart.setCsr_jumpTaken (h : Hart xl) (a : CsrAddr) (v : Word xl) : (h.setCsr a v).jumpTaken = h.jumpTaken := rfl
@[simp] theorem Hart.setCsr_trapTaken (h : Hart xl) (a : CsrAddr) (v : Word xl) : (h.setCsr a v).trapTaken = h.trapTaken := rfl
@[simp] theorem Hart.setCsr_priv (h : Hart xl) (a : CsrAddr) (v : Word xl) : (h.setCsr a v).priv = h.priv := rfl
@[simp] theorem Hart.setCsr_mem (h : Hart xl) (a : CsrAddr) (v : Word xl) : (h.setCsr a v).mem = h.mem := rfl
@[simp] theorem Hart.setCsr_params (h : Hart xl) (a : CsrAddr) (v : Word xl) : (h.setCsr a v).params = h.params := rfl
@[simp] theorem Hart.getX_setCsr (h : Hart xl) (a : CsrAddr) (v : Word xl) (r : Reg) :
    (h.setCsr a v).getX r = h.getX r := rfl
@[simp] theorem Hart.csr_setX (h : Hart xl) (r : Reg) (v : Word xl) (a : CsrAddr) :
    (h.setX r v).csr a = h.csr a := by simp [Hart.csr]

/-- Reading a cell after a write: the full value at the cell, every other cell as before (rule R41). -/
theorem Hart.csr_setCsr (h : Hart xl) (a b : CsrAddr) (v : Word xl) :
    (h.setCsr a v).csr b = if b = a then v else h.csr b := by
  simp [Hart.csr, Hart.setCsr, BitVec.toNat_inj]

/-! ### Accessors over a rebuilt hart -/

@[simp] theorem Hart.getX_mk (h : Hart xl) (pc : Word xl) (b j t : Bool) (p : Priv) (c : CsrBank xl) (m : Memory)
    (q : Params xl) (r : Reg) : (Hart.mk h.x pc b j t p c m q).getX r = h.getX r := rfl
@[simp] theorem Hart.csr_mk (h : Hart xl) (x : Vector (Word xl) 31) (pc : Word xl) (b j t : Bool) (p : Priv) (m : Memory)
    (q : Params xl) (a : CsrAddr) : (Hart.mk x pc b j t p h.csrs m q).csr a = h.csr a := rfl
@[simp] theorem Hart.index_mk (h : Hart xl) (x : Vector (Word xl) 31) (pc : Word xl) (b j t : Bool) (p : Priv)
    (c : CsrBank xl) (m : Memory) (a : Word xl) : (Hart.mk x pc b j t p c m h.params).index a = h.index a := rfl
@[simp] theorem Hart.inRange_mk (h : Hart xl) (x : Vector (Word xl) 31) (pc : Word xl) (b j t : Bool) (p : Priv)
    (c : CsrBank xl) (m : Memory) (a : Word xl) (n : Nat) :
    (Hart.mk x pc b j t p c m h.params).inRange a n = h.inRange a n := rfl
@[simp] theorem Hart.watched_mk (h : Hart xl) (x : Vector (Word xl) 31) (pc : Word xl) (b j t : Bool) (p : Priv)
    (c : CsrBank xl) (m : Memory) (a : Word xl) (n : Nat) :
    (Hart.mk x pc b j t p c m h.params).watched a n = h.watched a n := rfl
@[simp] theorem Hart.index_setX (h : Hart xl) (r : Reg) (v : Word xl) (a : Word xl) :
    (h.setX r v).index a = h.index a := by simp [Hart.index]

/-! ### The flags -/

@[simp] theorem Hart.clearFlags_x (h : Hart xl) : h.clearFlags.x = h.x := rfl
@[simp] theorem Hart.clearFlags_pc (h : Hart xl) : h.clearFlags.pc = h.pc := rfl
@[simp] theorem Hart.clearFlags_priv (h : Hart xl) : h.clearFlags.priv = h.priv := rfl
@[simp] theorem Hart.clearFlags_csrs (h : Hart xl) : h.clearFlags.csrs = h.csrs := rfl
@[simp] theorem Hart.clearFlags_mem (h : Hart xl) : h.clearFlags.mem = h.mem := rfl
@[simp] theorem Hart.clearFlags_params (h : Hart xl) : h.clearFlags.params = h.params := rfl
@[simp] theorem Hart.clearFlags_branchTaken (h : Hart xl) : h.clearFlags.branchTaken = false := rfl
@[simp] theorem Hart.clearFlags_jumpTaken (h : Hart xl) : h.clearFlags.jumpTaken = false := rfl
@[simp] theorem Hart.clearFlags_trapTaken (h : Hart xl) : h.clearFlags.trapTaken = false := rfl
@[simp] theorem Hart.getX_clearFlags (h : Hart xl) (r : Reg) : h.clearFlags.getX r = h.getX r := rfl
@[simp] theorem Hart.csr_clearFlags (h : Hart xl) (a : CsrAddr) : h.clearFlags.csr a = h.csr a := rfl

/-! ### Trap entry -/

@[simp] theorem Hart.trap_x (h : Hart xl) (code : Nat) : (h.trap code).x = h.x := rfl
@[simp] theorem Hart.trap_branchTaken (h : Hart xl) (code : Nat) : (h.trap code).branchTaken = h.branchTaken := rfl
@[simp] theorem Hart.trap_jumpTaken (h : Hart xl) (code : Nat) : (h.trap code).jumpTaken = h.jumpTaken := rfl
@[simp] theorem Hart.trap_trapTaken (h : Hart xl) (code : Nat) : (h.trap code).trapTaken = true := rfl
@[simp] theorem Hart.trap_priv (h : Hart xl) (code : Nat) : (h.trap code).priv = .machine := rfl
@[simp] theorem Hart.trap_mem (h : Hart xl) (code : Nat) : (h.trap code).mem = h.mem := rfl
@[simp] theorem Hart.trap_params (h : Hart xl) (code : Nat) : (h.trap code).params = h.params := rfl
@[simp] theorem Hart.trap_pc (h : Hart xl) (code : Nat) :
    (h.trap code).pc = h.csr Csr.mtvec &&& ~~~(3 : Word xl) := rfl
@[simp] theorem Hart.getX_trap (h : Hart xl) (code : Nat) (r : Reg) : (h.trap code).getX r = h.getX r := rfl

/-- The CSR cells after trap entry (rule R310). -/
theorem Hart.csr_trap (h : Hart xl) (code : Nat) (a : CsrAddr) :
    (h.trap code).csr a =
      if a = Csr.mstatus then Mstatus.pushTrap (h.csr Csr.mstatus) h.priv
      else if a = Csr.mcause then BitVec.ofNat xl.bits code
      else if a = Csr.mepc then h.pc
      else h.csr a := by
  show (((h.setCsr Csr.mepc h.pc).setCsr Csr.mcause (BitVec.ofNat xl.bits code)).setCsr Csr.mstatus
    (Mstatus.pushTrap (h.csr Csr.mstatus) h.priv)).csr a = _
  simp only [Hart.csr_setCsr]

/-! ### From harts to states -/

@[simp] theorem State.apply_mk (h : Hart xl) (f : Hart xl → Hart xl) :
    State.apply ⟨xl, h⟩ f = .next ⟨xl, f h⟩ := rfl
theorem State.attempt_mk (h : Hart xl) (f : Hart xl → Except Fault (Hart xl)) :
    State.attempt ⟨xl, h⟩ f = match f h with | .ok t => .next ⟨xl, t⟩ | .error e => .fault e := by
  unfold State.attempt; cases f h <;> rfl
@[simp] theorem State.rv64Only_rv64 (h : Hart .rv64) (i : Instr) (r : Result) :
    State.rv64Only ⟨.rv64, h⟩ i r = r := rfl
@[simp] theorem State.rv64Only_rv32 (h : Hart .rv32) (i : Instr) (r : Result) :
    State.rv64Only ⟨.rv32, h⟩ i r = .fault (.unsupported (encode i) ⟨.rv32, h⟩) := rfl
@[simp] theorem State.existsIf_true (s : State) (i : Instr) (r : Result) : s.existsIf true i r = r := rfl
@[simp] theorem State.existsIf_false (s : State) (i : Instr) (r : Result) :
    s.existsIf false i r = .fault (.unsupported (encode i) s) := rfl

end Sys2Proof.Machine
end

