-- ==== Sys2Proof/Laws/Memory.lean ====
section
/-! SUPPORT. The laws of memory: bytes and numbers, reading after a write, the canonical form, and what a checked read or
write can answer. -/

namespace Sys2Proof.Machine

variable {xl : Xlen}

/-! ### Bytes and numbers -/

@[simp] theorem leBytes_length (n v : Nat) : (leBytes n v).length = n := by
  induction n generalizing v with
  | zero => rfl
  | succ n ih => simp [leBytes, ih]

/-- The bytes of a number compose to the number, cut to that many bytes. -/
theorem leNat_leBytes (n v : Nat) : leNat (leBytes n v) = v % 256 ^ n := by
  induction n generalizing v with
  | zero => simp [leBytes, leNat, Nat.mod_one]
  | succ n ih =>
    simp only [leBytes, leNat, ih, BitVec.toNat_ofNat]
    rw [show (2 : Nat) ^ 8 = 256 from rfl, Nat.pow_succ, Nat.mul_comm (256 ^ n) 256, Nat.mod_mul]

theorem leNat_lt (bs : List Byte) : leNat bs < 256 ^ bs.length := by
  induction bs with
  | nil => simp [leNat]
  | cons b bs ih =>
    have := b.isLt
    simp only [leNat, List.length_cons, Nat.pow_succ]
    omega

/-- Byte `k` of a number. -/
theorem leBytes_getElem (n v k : Nat) (hk : k < (leBytes n v).length) :
    (leBytes n v)[k] = BitVec.ofNat 8 (v / 256 ^ k) := by
  induction n generalizing v k with
  | zero => simp [leBytes] at hk
  | succ n ih =>
    cases k with
    | zero => simp [leBytes]
    | succ k =>
      simp only [leBytes, List.getElem_cons_succ]
      rw [ih _ _ (by simpa [leBytes] using hk), Nat.div_div_eq_div_mul, Nat.pow_succ, Nat.mul_comm 256]

/-! ### Single bytes -/

@[simp] theorem Memory.get_empty (idx : Nat) : (Memory.mk []).get idx = 0 := rfl

/-- A byte after a write. -/
theorem Memory.get_set (m : Memory) (i j : Nat) (b : Byte) : (m.set i b).get j = if j = i then b else m.get j := by
  simp [Memory.get, Memory.set]

theorem Memory.wf_set {m : Memory} (h : m.wf) (i : Nat) (b : Byte) : (m.set i b).wf := Cells.wf_set h i b

/-! ### Runs of bytes -/

@[simp] theorem Memory.readBytes_length (m : Memory) (idx n : Nat) : (m.readBytes idx n).length = n := by
  induction n generalizing idx with
  | zero => rfl
  | succ n ih => simp [Memory.readBytes, ih]

theorem Memory.readBytes_getElem (m : Memory) (idx n k : Nat) (hk : k < (m.readBytes idx n).length) :
    (m.readBytes idx n)[k] = m.get (idx + k) := by
  induction n generalizing idx k with
  | zero => simp [Memory.readBytes] at hk
  | succ n ih =>
    cases k with
    | zero => simp [Memory.readBytes]
    | succ k =>
      simp only [Memory.readBytes, List.getElem_cons_succ]
      rw [ih _ _ (by simpa [Memory.readBytes] using hk)]
      congr 1; omega

/-- Reading a run depends on its bytes alone. -/
theorem Memory.readBytes_congr {m m' : Memory} {idx n : Nat}
    (h : ∀ k, k < n → m.get (idx + k) = m'.get (idx + k)) : m.readBytes idx n = m'.readBytes idx n := by
  induction n generalizing idx with
  | zero => rfl
  | succ n ih =>
    simp only [Memory.readBytes]
    rw [show m.get idx = m'.get idx from h 0 (by omega)]
    congr 1
    exact ih fun k hk => by simpa [Nat.add_assoc, Nat.add_comm 1] using h (k + 1) (by omega)

/-- A byte after a run is written: the run's byte inside, the old byte outside. -/
theorem Memory.get_writeBytes (m : Memory) (idx : Nat) (bs : List Byte) (j : Nat) :
    (m.writeBytes idx bs).get j =
      if h : idx ≤ j ∧ j - idx < bs.length then bs[j - idx]'h.2 else m.get j := by
  induction bs generalizing m idx with
  | nil => simp [Memory.writeBytes]
  | cons b bs ih =>
    simp only [Memory.writeBytes, ih, Memory.get_set, List.length_cons]
    by_cases hj : j = idx
    · subst hj; simp
    · by_cases hle : idx + 1 ≤ j
      · obtain ⟨k, rfl⟩ : ∃ k, j = idx + 1 + k := ⟨j - (idx + 1), by omega⟩
        have e : idx + 1 + k - idx = k + 1 := by omega
        simp [e, show idx ≤ idx + 1 + k by omega, show ¬ idx + 1 + k = idx by omega]
      · simp [hle, hj, show ¬ idx ≤ j by omega]

theorem Memory.wf_writeBytes {m : Memory} (h : m.wf) (idx : Nat) (bs : List Byte) : (m.writeBytes idx bs).wf := by
  induction bs generalizing m idx with
  | nil => exact h
  | cons b bs ih => exact ih (m.wf_set h idx b) (idx + 1)

theorem Memory.bound_writeBytes {m : Memory} {cap idx : Nat} (h : ∀ c ∈ m.cells, c.1 < cap) (bs : List Byte)
    (hb : idx + bs.length ≤ cap) : ∀ c ∈ (m.writeBytes idx bs).cells, c.1 < cap := by
  induction bs generalizing m idx with
  | nil => exact h
  | cons b bs ih =>
    simp only [List.length_cons] at hb
    exact ih (Cells.bound_set h (by omega) b) (by omega)

/-- Reading a run that has just been written gives it back (rule R89). -/
theorem Memory.readBytes_writeBytes (m : Memory) (idx : Nat) (bs : List Byte) :
    (m.writeBytes idx bs).readBytes idx bs.length = bs := by
  apply List.ext_getElem (by simp)
  intro k h1 h2
  rw [Memory.readBytes_getElem, Memory.get_writeBytes]
  simp [show idx + k - idx = k by omega, h2]

/-- Equal canonical memories are equal data. -/
theorem Memory.ext_of_wf {m m' : Memory} (h : m.wf) (h' : m'.wf) (he : ∀ i, m.get i = m'.get i) : m = m' := by
  cases m; cases m'; exact congrArg Memory.mk (Cells.ext h h' he)

/-! ### The watch check and the checked accesses -/

/-- The model's overlap test is the intersection of the two integer ranges (rule R90). -/
theorem Watch.covers_iff (wt : Watch xl) (addr : Word xl) (n : Nat) :
    wt.covers addr n = true ↔
      ∃ b : Nat, addr.toNat ≤ b ∧ b < addr.toNat + n ∧ wt.addr.toNat ≤ b ∧ b < wt.addr.toNat + wt.len := by
  unfold Watch.covers
  rw [decide_eq_true_iff]
  constructor
  · intro h
    exact ⟨max addr.toNat wt.addr.toNat, by omega, by omega, by omega, by omega⟩
  · rintro ⟨b, h1, h2, h3, h4⟩
    omega

/-- An access no watch is triggered by passes the watch check. -/
theorem Hart.watchCheck_unwatched {h : Hart xl} {addr : Word xl} {bytes : List Byte} {k : AccessKind}
    (hw : h.watched addr bytes.length = false) : h.watchCheck k addr bytes = .ok () := by
  simp [Hart.watchCheck, hw]

/-- What a watch check can answer. -/
theorem Hart.watchCheck_cases (h : Hart xl) (k : AccessKind) (addr : Word xl) (bytes : List Byte) :
    h.watchCheck k addr bytes = .ok () ∨
      ∃ code, h.watched addr bytes.length = true ∧ h.watchCheck k addr bytes = .error (.halted code ⟨xl, h⟩) := by
  unfold Hart.watchCheck
  split
  · split
    · exact .inl rfl
    · next code _ => exact .inr ⟨code, by assumption, rfl⟩
  · exact .inl rfl

/-- What a checked read can answer: the little-endian value of bytes in range, a range stop, or Halted (rule R83). -/
theorem Hart.memRead_cases (h : Hart xl) (k : AccessKind) (addr : Word xl) (n : Nat) :
    (h.inRange addr n = true ∧
      h.memRead k addr n = .ok (BitVec.ofNat (8 * n) (leNat (h.mem.readBytes (h.index addr) n)))) ∨
    (h.inRange addr n = false ∧ h.memRead k addr n = .error (.memOutOfRange addr.toNat n ⟨xl, h⟩)) ∨
    (h.inRange addr n = true ∧ h.watched addr n = true ∧
      ∃ code, h.memRead k addr n = .error (.halted code ⟨xl, h⟩)) := by
  unfold Hart.memRead
  by_cases hr : h.inRange addr n = true
  · rcases h.watchCheck_cases k addr (h.mem.readBytes (h.index addr) n) with hc | ⟨code, hw, hc⟩
    · exact .inl ⟨hr, by simp only [hr, if_true, hc]⟩
    · exact .inr (.inr ⟨hr, by simpa using hw, code, by simp only [hr, if_true, hc]⟩)
  · exact .inr (.inl ⟨by simpa using hr, by simp [hr]⟩)

/-- The hart with the `n` low bytes of `v` stored at `addr`. -/
def Hart.withStored (h : Hart xl) (addr : Word xl) (n v : Nat) : Hart xl :=
  { h with mem := h.mem.writeBytes (h.index addr) (leBytes n v) }

/-- What a checked write can answer: the bytes stored, a range stop, or Halted with the bytes stored (rule R84). -/
theorem Hart.memWrite_cases (h : Hart xl) (addr : Word xl) (n : Nat) (v : BitVec (8 * n)) :
    (h.inRange addr n = true ∧ h.memWrite addr n v = .ok (h.withStored addr n v.toNat)) ∨
    (h.inRange addr n = false ∧ h.memWrite addr n v = .error (.memOutOfRange addr.toNat n ⟨xl, h⟩)) ∨
    (h.inRange addr n = true ∧ h.watched addr n = true ∧
      ∃ code, h.memWrite addr n v = .error (.halted code ⟨xl, h.withStored addr n v.toNat⟩)) := by
  unfold Hart.memWrite
  by_cases hr : h.inRange addr n = true
  · rcases (h.withStored addr n v.toNat).watchCheck_cases .store addr (leBytes n v.toNat) with hc | ⟨code, hw, hc⟩
    · refine .inl ⟨hr, ?_⟩
      simp only [hr, if_true]
      unfold Hart.withStored at hc ⊢
      rw [hc]
    · refine .inr (.inr ⟨hr, by simpa [Hart.withStored] using hw, code, ?_⟩)
      simp only [hr, if_true]
      unfold Hart.withStored at hc ⊢
      rw [hc]
  · exact .inr (.inl ⟨by simpa using hr, by simp [hr]⟩)

/-- An unwatched read in range completes. -/
theorem Hart.memRead_ok {h : Hart xl} {k : AccessKind} {addr : Word xl} {n : Nat} (hr : h.inRange addr n = true)
    (hw : h.watched addr n = false) :
    h.memRead k addr n = .ok (BitVec.ofNat (8 * n) (leNat (h.mem.readBytes (h.index addr) n))) := by
  rcases h.memRead_cases k addr n with ⟨_, e⟩ | ⟨e, _⟩ | ⟨_, e, _⟩
  · exact e
  · simp [hr] at e
  · simp [hw] at e

/-- An unwatched write in range completes. -/
theorem Hart.memWrite_ok {h : Hart xl} {addr : Word xl} {n : Nat} {v : BitVec (8 * n)} (hr : h.inRange addr n = true)
    (hw : h.watched addr n = false) : h.memWrite addr n v = .ok (h.withStored addr n v.toNat) := by
  rcases h.memWrite_cases addr n v with ⟨_, e⟩ | ⟨e, _⟩ | ⟨_, e, _⟩
  · exact e
  · simp [hr] at e
  · simp [hw] at e

end Sys2Proof.Machine
end

