-- ==== Sys2Proof/Laws/Effects.lean ====
section
/-! SUPPORT. One lemma per shared operation that says everything it can do, in the terms of Safety.lean: a proof about an
instruction cites these and unfolds no operation. -/

namespace Sys2Proof.Machine

variable {xl : Xlen}

/-- Either width has at least 32 bits (rule R6). -/
theorem bits_ge (xl : Xlen) : 32 ≤ xl.bits := by cases xl <;> decide

/-! ### The model's tests are the spec's conditions -/

/-- The model's range test is `Fits` (rule R82). -/
theorem Hart.inRange_iff {h : Hart xl} {addr : Word xl} {n : Nat} : h.inRange addr n = true ↔ h.Fits addr n := by
  rw [Hart.inRange, decide_eq_true_iff]; rfl

theorem Hart.inRange_eq_false_iff {h : Hart xl} {addr : Word xl} {n : Nat} :
    h.inRange addr n = false ↔ ¬ h.Fits addr n := by
  rw [← Hart.inRange_iff]; simp

/-- The model's watch test is `Watches` (rule R90). -/
theorem Hart.watched_iff {h : Hart xl} {addr : Word xl} {n : Nat} : h.watched addr n = true ↔ h.Watches addr n := by
  unfold Hart.watched Hart.Watches
  cases h.params.watch with
  | none => simp
  | some wt => simp [Watch.covers_iff]

theorem Hart.watched_eq_false_iff {h : Hart xl} {addr : Word xl} {n : Nat} :
    h.watched addr n = false ↔ ¬ h.Watches addr n := by
  rw [← Hart.watched_iff]; simp

theorem Hart.not_watches_of_none {h : Hart xl} (hn : h.params.watch = none) (addr : Word xl) (n : Nat) :
    ¬ h.Watches addr n := by
  simp [Hart.Watches, hn]

/-- The model's privilege test is `CsrAccessible` (rule R300). -/
theorem csrAllowed_iff {p : Priv} {a : CsrAddr} : csrAllowed p a = true ↔ CsrAccessible p a := by
  simp [csrAllowed, csrPrivilege, CsrAccessible, BitVec.le_def, BitVec.extractLsb'_toNat, Nat.shiftRight_eq_div_pow]

/-- The model's read-only test is `CsrReadOnly` (rule R300). -/
theorem csrReadOnly_iff {a : CsrAddr} : csrReadOnly a = true ↔ CsrReadOnly a := by
  have := a.isLt
  simp only [csrReadOnly, CsrReadOnly, beq_iff_eq, ← BitVec.toNat_inj, BitVec.extractLsb'_toNat,
    Nat.shiftRight_eq_div_pow]
  norm_num
  omega

/-! ### Bytes read and written -/

/-- The model's composition of a run of bytes is the spec's sum (rule R83). -/
theorem Hart.leNat_readBytes (h : Hart xl) (idx n : Nat) : leNat (h.mem.readBytes idx n) = h.bytesValue idx n := by
  unfold Hart.bytesValue
  induction n generalizing idx with
  | zero => simp [Memory.readBytes, leNat]
  | succ n ih =>
    rw [Memory.readBytes, leNat, ih, List.range_succ_eq_map, List.map_cons, List.map_map, List.sum_cons,
      ← List.sum_map_mul_left]
    simp only [Nat.add_zero, Nat.mul_zero, Nat.pow_zero, Nat.mul_one]
    congr 2
    apply List.map_congr_left
    intro k _
    simp only [Function.comp_apply, show idx + 1 + k = idx + k.succ by omega]
    rw [show 8 * k.succ = 8 * k + 8 by omega, Nat.pow_add]
    ring

theorem Hart.bytesValue_lt (h : Hart xl) (idx n : Nat) : h.bytesValue idx n < 2 ^ (8 * n) := by
  have := leNat_lt (h.mem.readBytes idx n)
  rwa [Hart.leNat_readBytes, Memory.readBytes_length, show (256 : Nat) = 2 ^ 8 from rfl, ← Nat.pow_mul] at this

/-- The bytes of a run, one by one. -/
theorem Memory.readBytes_eq_map (m : Memory) (idx n : Nat) :
    m.readBytes idx n = (List.range n).map fun k => m.get (idx + k) := by
  apply List.ext_getElem (by simp)
  intro k h1 h2
  simp [Memory.readBytes_getElem]

/-- The low bytes of a number, one by one. -/
theorem leBytes_eq_map {w : Nat} (n : Nat) (v : BitVec w) :
    leBytes n (v.setWidth (8 * n)).toNat = (List.range n).map fun k => v.extractLsb' (8 * k) 8 := by
  apply List.ext_getElem (by simp)
  intro k h1 h2
  have hk : k < n := by simpa using h1
  rw [leBytes_getElem]
  simp only [List.getElem_map, List.getElem_range]
  apply BitVec.eq_of_toNat_eq
  rw [BitVec.toNat_ofNat, BitVec.toNat_setWidth, BitVec.extractLsb'_toNat, Nat.shiftRight_eq_div_pow,
    show (256 : Nat) = 2 ^ 8 from rfl, ← Nat.pow_mul, show 8 * n = 8 * k + (8 * n - 8 * k) by omega, Nat.pow_add,
    Nat.mod_mul_right_div_self, Nat.mod_mod_of_dvd]
  exact Nat.pow_dvd_pow 2 (by omega)

/-! ### Registers -/

/-- Writing a register changes nothing else. -/
theorem Hart.writesReg_setX (h : Hart xl) (rd : Reg) (v : Word xl) : h.WritesReg (h.setX rd v) rd v where
  regs := fun r => h.getX_setX rd r v
  pc := h.setX_pc rd v
  flags := ⟨h.setX_branchTaken rd v, h.setX_jumpTaken rd v, h.setX_trapTaken rd v⟩
  priv := h.setX_priv rd v
  csrs := fun a => h.csr_setX rd v a
  bytes := fun idx => by rw [h.setX_mem rd v]
  params := h.setX_params rd v

/-! ### Jumps and branches -/

/-- A jump writes the link, the pc and its flag, and nothing else (rules R210, R211). -/
theorem Hart.jumpsTo_jump (h : Hart xl) (rd : Reg) (target : Word xl) :
    h.JumpsTo (h.jump rd target) rd (h.pc + 4) target where
  regs := fun r => h.getX_setX rd r (h.pc + 4)
  pc := rfl
  jump := rfl
  branch := h.setX_branchTaken rd _
  trap := h.setX_trapTaken rd _
  priv := h.setX_priv rd _
  csrs := fun a => h.csr_setX rd (h.pc + 4) a
  bytes := fun idx => congrArg (·.get idx) (h.setX_mem rd (h.pc + 4))
  params := h.setX_params rd _

/-- A branch on a condition that stands for `taken` (rule R212). -/
theorem Hart.branches_branch (h : Hart xl) {cond : Bool} {taken : Prop} (hc : cond = true ↔ taken) (offset : BitVec 13) :
    h.Branches (h.branch cond offset) taken offset.toInt := by
  have hw : (offset.signExtend xl.bits).toInt = offset.toInt :=
    BitVec.toInt_signExtend_of_le (by cases xl <;> decide)
  cases cond with
  | true =>
    exact
      { target := fun _ => ⟨by simp only [Hart.branch, immB, sext, if_true, BitVec.toInt_add, hw], rfl⟩
        fallThrough := fun hn => absurd (hc.1 rfl) hn
        jump := rfl, trap := rfl, regs := fun _ => rfl, priv := rfl, csrs := fun _ => rfl, bytes := fun _ => rfl
        params := rfl }
  | false =>
    exact
      { target := fun ht => absurd (hc.2 ht) (by simp)
        fallThrough := fun _ => ⟨rfl, rfl⟩
        jump := rfl, trap := rfl, regs := fun _ => rfl, priv := rfl, csrs := fun _ => rfl, bytes := fun _ => rfl
        params := rfl }

/-! ### Loads and stores -/

/-- What a load can answer: its register written, a range stop, or Halted, the last two with nothing written (rule R231). -/
theorem Hart.load_cases (h : Hart xl) (rd rs1 : Reg) (imm : BitVec 12) (n : Nat) (ext : BitVec (8 * n) → Word xl) :
    (h.Fits (h.ea rs1 imm) n ∧ h.load rd rs1 imm n ext =
      .ok (h.setX rd (ext (BitVec.ofNat (8 * n) (h.bytesValue (h.index (h.ea rs1 imm)) n))))) ∨
    (¬ h.Fits (h.ea rs1 imm) n ∧ h.load rd rs1 imm n ext =
      .error (.memOutOfRange (h.ea rs1 imm).toNat n ⟨xl, h⟩)) ∨
    (h.Fits (h.ea rs1 imm) n ∧ h.Watches (h.ea rs1 imm) n ∧
      ∃ code, h.load rd rs1 imm n ext = .error (.halted code ⟨xl, h⟩)) := by
  rcases h.memRead_cases .load (h.ea rs1 imm) n with ⟨hr, e⟩ | ⟨hr, e⟩ | ⟨hr, hw, code, e⟩
  · exact .inl ⟨Hart.inRange_iff.1 hr, by rw [Hart.load, e, Hart.leNat_readBytes]⟩
  · exact .inr (.inl ⟨Hart.inRange_eq_false_iff.1 hr, by rw [Hart.load, e]⟩)
  · exact .inr (.inr ⟨Hart.inRange_iff.1 hr, Hart.watched_iff.1 hw, code, by rw [Hart.load, e]⟩)

/-- The hart after a store of the low `n` bytes of `v` at `addr`. -/
def Hart.stored (h : Hart xl) (addr : Word xl) (n : Nat) (v : Word xl) : Hart xl :=
  h.withStored addr n (v.setWidth (8 * n)).toNat

/-- A store changes exactly its bytes (rules R84, R239). -/
theorem Hart.stores_stored (h : Hart xl) (addr : Word xl) (n : Nat) (v : Word xl) :
    h.Stores (h.stored addr n v) (h.index addr) n v where
  stored := fun k hk => by
    show (h.mem.writeBytes _ _).get _ = _
    rw [Memory.get_writeBytes, leBytes_eq_map]
    simp [hk]
  otherBytes := fun j hj => by
    show (h.mem.writeBytes _ _).get _ = _
    rw [Memory.get_writeBytes, dif_neg]
    simp only [leBytes_length]
    omega
  regs := fun _ => rfl
  pc := rfl
  flags := ⟨rfl, rfl, rfl⟩
  priv := rfl
  csrs := fun _ => rfl
  params := rfl

/-- What a store can answer: its bytes stored, a range stop with nothing stored, or Halted with its bytes stored
(rules R84, R239). -/
theorem Hart.store_cases (h : Hart xl) (rs2 rs1 : Reg) (imm : BitVec 12) (n : Nat) :
    (h.Fits (h.ea rs1 imm) n ∧ h.store rs2 rs1 imm n = .ok (h.stored (h.ea rs1 imm) n (h.getX rs2))) ∨
    (¬ h.Fits (h.ea rs1 imm) n ∧ h.store rs2 rs1 imm n = .error (.memOutOfRange (h.ea rs1 imm).toNat n ⟨xl, h⟩)) ∨
    (h.Fits (h.ea rs1 imm) n ∧ h.Watches (h.ea rs1 imm) n ∧
      ∃ code, h.store rs2 rs1 imm n = .error (.halted code ⟨xl, h.stored (h.ea rs1 imm) n (h.getX rs2)⟩)) := by
  rcases h.memWrite_cases (h.ea rs1 imm) n ((h.getX rs2).setWidth (8 * n)) with ⟨hr, e⟩ | ⟨hr, e⟩ | ⟨hr, hw, code, e⟩
  · exact .inl ⟨Hart.inRange_iff.1 hr, e⟩
  · exact .inr (.inl ⟨Hart.inRange_eq_false_iff.1 hr, e⟩)
  · exact .inr (.inr ⟨Hart.inRange_iff.1 hr, Hart.watched_iff.1 hw, code, e⟩)

/-- A watched load in range does what the host answers, with nothing written before it is asked (rules R83, R90, R91). -/
theorem Hart.load_watched (h : Hart xl) (rd rs1 : Reg) (imm : BitVec 12) (n : Nat) (ext : BitVec (8 * n) → Word xl)
    (hr : h.Fits (h.ea rs1 imm) n) (hw : h.Watches (h.ea rs1 imm) n) :
    h.load rd rs1 imm n ext =
      match Config.watchCallback ⟨xl, h⟩ ⟨(h.ea rs1 imm).toNat, n, .load,
        (List.range n).map fun k => h.mem.get (h.index (h.ea rs1 imm) + k)⟩ with
      | .cont => .ok (h.setX rd (ext (BitVec.ofNat (8 * n) (h.bytesValue (h.index (h.ea rs1 imm)) n))))
      | .halt code => .error (.halted code ⟨xl, h⟩) := by
  unfold Hart.load Hart.memRead Hart.watchCheck watchVerdict
  rw [if_pos (Hart.inRange_iff.2 hr)]
  simp only [Memory.readBytes_length, if_pos (Hart.watched_iff.2 hw)]
  rw [← Memory.readBytes_eq_map, Hart.leNat_readBytes]
  cases Config.watchCallback _ _ <;> rfl

/-- A watched store in range does what the host answers, with its bytes stored before it is asked (rules R84, R90, R91). -/
theorem Hart.store_watched (h : Hart xl) (rs2 rs1 : Reg) (imm : BitVec 12) (n : Nat)
    (hr : h.Fits (h.ea rs1 imm) n) (hw : h.Watches (h.ea rs1 imm) n) :
    h.store rs2 rs1 imm n =
      match Config.watchCallback ⟨xl, h.stored (h.ea rs1 imm) n (h.getX rs2)⟩ ⟨(h.ea rs1 imm).toNat, n, .store,
        (List.range n).map fun k => (h.getX rs2).extractLsb' (8 * k) 8⟩ with
      | .cont => .ok (h.stored (h.ea rs1 imm) n (h.getX rs2))
      | .halt code => .error (.halted code ⟨xl, h.stored (h.ea rs1 imm) n (h.getX rs2)⟩) := by
  unfold Hart.store Hart.memWrite Hart.watchCheck watchVerdict
  rw [if_pos (Hart.inRange_iff.2 hr)]
  simp only [leBytes_length]
  rw [if_pos (by simpa using Hart.watched_iff.2 hw), leBytes_eq_map]
  unfold Hart.stored Hart.withStored
  rw [leBytes_eq_map]
  cases Config.watchCallback _ _ <;> rfl

/-- A watched load asks the host: what each load instruction does, once for all of them. -/
theorem Hart.loadAsks (h : Hart xl) {i : Instr} (rd rs1 : Reg) (imm : BitVec 12) (n : Nat)
    (ext : BitVec (8 * n) → Word xl) {value : Word xl → Prop}
    (hi : exec i ⟨xl, h⟩ = State.attempt ⟨xl, h⟩ fun h => h.load rd rs1 imm n ext)
    (hr : h.Fits (h.ea rs1 imm) n) (hw : h.Watches (h.ea rs1 imm) n)
    (hv : value (ext (BitVec.ofNat (8 * n) (h.bytesValue (h.index (h.ea rs1 imm)) n)))) :
    h.LoadAsks i rd (h.ea rs1 imm) n value := by
  refine ⟨_, _, h.writesReg_setX _ _, hv, ?_⟩
  rw [hi, State.attempt_mk, h.load_watched rd rs1 imm n ext hr hw]
  show _ = match Config.watchCallback ⟨xl, h⟩ ⟨(h.ea rs1 imm).toNat, n, .load,
      (List.range n).map fun k => h.mem.get (h.index (h.ea rs1 imm) + k)⟩ with
    | .cont => _
    | .halt code => _
  cases Config.watchCallback _ _ <;> rfl

/-- A watched store asks the host: what each store instruction does, once for all of them. -/
theorem Hart.storeAsks (h : Hart xl) {i : Instr} (rs2 rs1 : Reg) (imm : BitVec 12) (n : Nat)
    (hi : exec i ⟨xl, h⟩ = State.attempt ⟨xl, h⟩ fun h => h.store rs2 rs1 imm n)
    (hr : h.Fits (h.ea rs1 imm) n) (hw : h.Watches (h.ea rs1 imm) n) :
    h.StoreAsks i (h.ea rs1 imm) n (h.getX rs2) := by
  refine ⟨_, h.stores_stored _ _ _, ?_⟩
  rw [hi, State.attempt_mk, h.store_watched rs2 rs1 imm n hr hw]
  cases Config.watchCallback _ _ <;> rfl

/-! ### Traps and returns -/

/-- Trap entry, whole (rules R310, R311). -/
theorem Hart.takesTrap_trap (h : Hart xl) {code : Nat} (hc : code < 2 ^ 32) : h.TakesTrap (h.trap code) code where
  mepc := by rw [Hart.csr_trap]; rfl
  mcause := by
    rw [Hart.csr_trap, if_neg (by decide), if_pos (by rfl), BitVec.toNat_ofNat]
    exact Nat.mod_eq_of_lt (Nat.lt_of_lt_of_le hc (Nat.pow_le_pow_right (by decide) (bits_ge xl)))
  mstatus := fun j => by
    rw [Hart.csr_trap, if_pos (by rfl)]
    exact Mstatus.getLsbD_pushTrap (bits_ge xl) _ _ j
  otherCsrs := fun a h1 h2 h3 => by
    rw [Hart.csr_trap, if_neg (show ¬ a = Csr.mstatus from h3), if_neg (show ¬ a = Csr.mcause from h2),
      if_neg (show ¬ a = Csr.mepc from h1)]
  priv := rfl
  pc := by
    rw [Hart.trap_pc]
    show (h.csr Csr.mtvec &&& ~~~(3 : Word xl)).toNat = (h.csr Csr.mtvec).toNat / 4 * 4
    generalize h.csr Csr.mtvec = v
    have : v &&& ~~~(3 : Word xl) = (v >>> 2) <<< 2 := by
      apply BitVec.eq_of_getLsbD_eq
      intro j hj
      have e3 : (3 : Word xl).getLsbD j = decide (j < 2) := by
        show (BitVec.ofNat xl.bits 3).getLsbD j = _
        rw [BitVec.getLsbD_ofNat]
        have : Nat.testBit 3 j = decide (j < 2) := by
          rcases j with _ | _ | j
          · decide
          · decide
          · simp [Nat.testBit_succ]
        rw [this]; simp [hj]
      rw [BitVec.getLsbD_and, BitVec.getLsbD_not, e3, BitVec.getLsbD_shiftLeft, BitVec.getLsbD_ushiftRight]
      by_cases h2 : j < 2
      · simp [h2]
      · simp [h2, hj, show 2 + (j - 2) = j by omega]
    rw [this, BitVec.toNat_shiftLeft, BitVec.toNat_ushiftRight, Nat.shiftRight_eq_div_pow, Nat.shiftLeft_eq]
    exact Nat.mod_eq_of_lt (by have := v.isLt; omega)
  trap := rfl
  branch := rfl
  jump := rfl
  regs := fun _ => rfl
  bytes := fun _ => rfl
  params := rfl

/-- What MRET can do: trap below Machine, stop at the reserved level, or return (rule R276). -/
theorem Hart.returnMachine_cases (h : Hart xl) (w : InstrWord) :
    (h.priv ≠ .machine ∧ h.returnMachine w = .ok (h.trap 2)) ∨
    (h.priv = .machine ∧ (h.csr 0x300#12).toNat / 2 ^ 11 % 4 = 2 ∧
      h.returnMachine w = .error (.reservedPrivilege w ⟨xl, h⟩)) ∨
    (h.priv = .machine ∧ ∃ p t, p.bits.toNat = (h.csr 0x300#12).toNat / 2 ^ 11 % 4 ∧
      h.returnMachine w = .ok t ∧ h.ReturnsFromMachine t p) := by
  by_cases hp : h.priv = .machine
  · have hm : (Mstatus.mpp (h.csr Csr.mstatus)).toNat = (h.csr 0x300#12).toNat / 2 ^ 11 % 4 := by
      simp [Mstatus.mpp, Csr.mstatus, BitVec.extractLsb'_toNat, Nat.shiftRight_eq_div_pow]
    rw [← hm]
    unfold Hart.returnMachine
    cases hb : Priv.ofBits (Mstatus.mpp (h.csr Csr.mstatus)) with
    | none =>
      refine .inr (.inl ⟨hp, ?_, by simp [hp]⟩)
      rw [Priv.ofBits_eq_none.1 hb]; rfl
    | some p =>
      refine .inr (.inr ⟨hp, p, _, by rw [Priv.ofBits_eq_some.1 hb], by simp only [hp, ne_eq, not_true_eq_false, if_false]; rfl, ?_⟩)
      exact
        { mstatus := fun j => by
            show ((h.setCsr Csr.mstatus _).csr _).getLsbD j = _
            rw [Hart.csr_setCsr, if_pos (by rfl)]
            exact Mstatus.getLsbD_popMachine (bits_ge xl) _ j
          otherCsrs := fun a ha => by
            show (h.setCsr Csr.mstatus _).csr _ = _
            rw [Hart.csr_setCsr, if_neg (show ¬ a = Csr.mstatus from ha)]
          priv := rfl, pc := rfl, trap := rfl, branch := rfl, jump := rfl
          regs := fun _ => rfl, bytes := fun _ => rfl, params := rfl }
  · exact .inl ⟨hp, by unfold Hart.returnMachine; rw [if_pos hp]; rfl⟩

/-- What SRET can do: trap in User, or return (rule R277). -/
theorem Hart.returnSupervisor_cases (h : Hart xl) :
    (h.priv = .user ∧ h.returnSupervisor = h.trap 2) ∨
    (h.priv ≠ .user ∧ h.ReturnsFromSupervisor h.returnSupervisor) := by
  by_cases hp : h.priv = .user
  · exact .inl ⟨hp, by unfold Hart.returnSupervisor; rw [if_pos hp]; rfl⟩
  · refine .inr ⟨hp, ?_⟩
    unfold Hart.returnSupervisor
    rw [if_neg hp]
    exact
      { mstatus := fun j => by
          show ((h.setCsr Csr.mstatus _).csr _).getLsbD j = _
          rw [Hart.csr_setCsr, if_pos (by rfl)]
          exact Mstatus.getLsbD_popSupervisor (bits_ge xl) _ j
        otherCsrs := fun a ha => by
          show (h.setCsr Csr.mstatus _).csr _ = _
          rw [Hart.csr_setCsr, if_neg (show ¬ a = Csr.mstatus from ha)]
        priv := by
          show Priv.ofSpp (BitVec.extractLsb' 8 1 (h.csr 0x300#12)) = _
          unfold Priv.ofSpp
          have : (BitVec.extractLsb' 8 1 (h.csr 0x300#12) = 1#1) ↔ (h.csr 0x300#12).getLsbD 8 = true := by
            constructor
            · intro e
              simpa using congrArg (fun b => b.getLsbD 0) e
            · intro e
              apply BitVec.eq_of_getLsbD_eq
              intro j hj
              obtain rfl : j = 0 := by omega
              simpa using e
          by_cases hs : (h.csr 0x300#12).getLsbD 8 = true
          · rw [if_pos (this.2 hs), if_pos hs]
          · rw [if_neg (fun e => hs (this.1 e)), if_neg hs]
        pc := rfl, trap := rfl, branch := rfl, jump := rfl
        regs := fun _ => rfl, bytes := fun _ => rfl, params := rfl }

/-! ### CSR instructions -/

/-- What a CSR instruction can do: trap on a failed check, write the cell and rd, or only rd (rules R260, R300 to R302). -/
theorem Hart.csrAccess_cases (h : Hart xl) (rd : Reg) (a : CsrAddr) (we : Bool) (new : Word xl → Word xl) :
    ((¬ CsrAccessible h.priv a ∨ we = true ∧ CsrReadOnly a) ∧ h.csrAccess rd a we new = h.trap 2) ∨
    (CsrAccessible h.priv a ∧ we = true ∧ ¬ CsrReadOnly a ∧
      h.csrAccess rd a we new = (h.setCsr a (new (h.csr a))).setX rd (h.csr a)) ∨
    (CsrAccessible h.priv a ∧ we = false ∧ h.csrAccess rd a we new = h.setX rd (h.csr a)) := by
  rw [← csrAllowed_iff, ← csrReadOnly_iff]
  unfold Hart.csrAccess Hart.csrRead Hart.csrWrite
  by_cases ha : csrAllowed h.priv a = true
  · cases we with
    | false => exact .inr (.inr ⟨ha, rfl, by simp [ha]⟩)
    | true =>
      by_cases hr : csrReadOnly a = true
      · exact .inl ⟨.inr ⟨rfl, hr⟩, by simp [ha, hr]; rfl⟩
      · exact .inr (.inl ⟨ha, rfl, hr, by simp [ha, hr]⟩)
  · exact .inl ⟨.inl ha, by simp [ha]; rfl⟩

/-- Writing a CSR and then rd (rule R260). -/
theorem Hart.writesCsr_setX_setCsr (h : Hart xl) (rd : Reg) (old : Word xl) (a : CsrAddr) (new : Word xl) :
    h.WritesCsr ((h.setCsr a new).setX rd old) rd old a new where
  regs := fun r => (h.setCsr a new).getX_setX rd r old
  csrs := fun b => by rw [Hart.csr_setX, Hart.csr_setCsr]
  pc := (h.setCsr a new).setX_pc rd old
  flags := ⟨(h.setCsr a new).setX_branchTaken rd old, (h.setCsr a new).setX_jumpTaken rd old,
    (h.setCsr a new).setX_trapTaken rd old⟩
  priv := (h.setCsr a new).setX_priv rd old
  bytes := fun idx => by rw [Hart.setX_mem]; rfl
  params := (h.setCsr a new).setX_params rd old

/-! ### The step's own operations -/

/-- pc[1:0] is 0 exactly when pc is a multiple of 4 (rules R34, R50). -/
theorem pc_aligned_iff {pc : Word xl} : pc.extractLsb' 0 2 = 0#2 ↔ pc.toNat % 4 = 0 := by
  rw [← BitVec.toNat_inj]
  simp [BitVec.extractLsb'_toNat]

/-- What a fetch can answer (rules R50, R82, R83). -/
theorem Hart.fetch_cases (h : Hart xl) :
    (h.pc.toNat % 4 ≠ 0 ∧ h.fetch = .error (.fetchMisaligned h.pc.toNat ⟨xl, h⟩)) ∨
    (h.pc.toNat % 4 = 0 ∧ ¬ h.Fits h.pc 4 ∧ h.fetch = .error (.memOutOfRange h.pc.toNat 4 ⟨xl, h⟩)) ∨
    (h.pc.toNat % 4 = 0 ∧ h.Fits h.pc 4 ∧ h.Watches h.pc 4 ∧ ∃ code, h.fetch = .error (.halted code ⟨xl, h⟩)) ∨
    (h.pc.toNat % 4 = 0 ∧ h.Fits h.pc 4 ∧
      h.fetch = .ok (BitVec.ofNat 32 (h.bytesValue (h.pc - h.params.base).toNat 4))) := by
  unfold Hart.fetch
  by_cases ha : h.pc.toNat % 4 = 0
  · rw [if_neg (by simpa using pc_aligned_iff.2 ha)]
    rcases h.memRead_cases .fetch h.pc 4 with ⟨hr, e⟩ | ⟨hr, e⟩ | ⟨hr, hw, code, e⟩
    · exact .inr (.inr (.inr ⟨ha, Hart.inRange_iff.1 hr, by rw [e, Hart.leNat_readBytes]; rfl⟩))
    · exact .inr (.inl ⟨ha, Hart.inRange_eq_false_iff.1 hr, e⟩)
    · exact .inr (.inr (.inl ⟨ha, Hart.inRange_iff.1 hr, Hart.watched_iff.1 hw, code, e⟩))
  · exact .inl ⟨ha, by rw [if_pos (fun e => ha (pc_aligned_iff.1 e))]⟩

/-- A watched fetch does what the host answers (rules R50, R90, R91). -/
theorem Hart.fetch_watched (h : Hart xl) (ha : h.pc.toNat % 4 = 0) (hr : h.Fits h.pc 4) (hw : h.Watches h.pc 4) :
    h.fetch =
      match Config.watchCallback ⟨xl, h⟩ ⟨h.pc.toNat, 4, .fetch,
        (List.range 4).map fun k => h.mem.get (h.index h.pc + k)⟩ with
      | .cont => .ok (BitVec.ofNat 32 (h.bytesValue (h.index h.pc) 4))
      | .halt code => .error (.halted code ⟨xl, h⟩) := by
  unfold Hart.fetch
  rw [if_neg (by simpa using pc_aligned_iff.2 ha)]
  unfold Hart.memRead Hart.watchCheck watchVerdict
  rw [if_pos (Hart.inRange_iff.2 hr)]
  simp only [Memory.readBytes_length, if_pos (Hart.watched_iff.2 hw)]
  rw [← Memory.readBytes_eq_map, Hart.leNat_readBytes]
  cases Config.watchCallback _ _ <;> rfl

end Sys2Proof.Machine
end

