-- ==== Sys2Proof/Laws/Exec.lean ====
section
/-! SUPPORT. What an instruction can do, once for all instructions (`exec_next`, `exec_fault`), and what a step can do
(`step_next`, `step_fault`): a proof about every instruction or every step is a case analysis over these. -/

namespace Sys2Proof.Machine

variable {xl : Xlen}

/-- The ways an instruction completes. -/
inductive Completes (i : Instr) (h t : Hart xl) : Prop where
  /-- Nothing changes (the fences). -/
  | same (e : t = h)
  /-- A register is written (integer instructions, loads, and the CSR instructions that only read). -/
  | reg (rd : Reg) (v : Word xl) (e : t = h.setX rd v)
  | jump (rd : Reg) (target : Word xl) (e : t = h.jump rd target)
  | branch (cond : Bool) (offset : BitVec 13) (e : t = h.branch cond offset)
  | store (addr : Word xl) (n : Nat) (v : Word xl) (hi : i.isStore = true) (hf : h.Fits addr n)
      (e : t = h.stored addr n v)
  | csr (rd : Reg) (a : CsrAddr) (new : Word xl) (hi : i.isSystem = true) (ha : i.csrWritten = some a)
      (hw : ¬ CsrReadOnly a) (e : t = (h.setCsr a new).setX rd (h.csr a))
  | trap (code : Nat) (hi : i.isSystem = true) (hc : code < 16) (e : t = h.trap code)
  | mret (w : InstrWord) (hi : i = .mret) (hp : h.priv = .machine) (e : h.returnMachine w = .ok t)
  | sret (hi : i = .sret) (hp : h.priv ≠ .user) (e : t = h.returnSupervisor)

/-- The ways an instruction stops: with nothing written but for a store the host halted. -/
inductive Stops (i : Instr) (h : Hart xl) : Fault → Prop where
  | noRoutine : Stops i h (.unsupported (encode i) ⟨xl, h⟩)
  | outOfRange (addr : Word xl) (n : Nat) (hf : ¬ h.Fits addr n) : Stops i h (.memOutOfRange addr.toNat n ⟨xl, h⟩)
  | haltedLoad (addr : Word xl) (n code : Nat) (hw : h.Watches addr n) : Stops i h (.halted code ⟨xl, h⟩)
  | haltedStore (addr : Word xl) (n code : Nat) (v : Word xl) (hi : i.isStore = true) (hf : h.Fits addr n)
      (hw : h.Watches addr n) : Stops i h (.halted code ⟨xl, h.stored addr n v⟩)
  | ebreak (hi : i = .ebreak) : Stops i h (.ebreakUnmodelled 0x00100073#32 ⟨xl, h⟩)
  | reserved (hi : i = .mret) (hp : h.priv = .machine) : Stops i h (.reservedPrivilege 0x30200073#32 ⟨xl, h⟩)

/-- An outcome of an instruction is one of the two, and never a refusal. -/
def Outcome (i : Instr) (h : Hart xl) (r : Result) : Prop :=
  (∃ t : Hart xl, r = .next ⟨xl, t⟩ ∧ Completes i h t) ∨ ∃ f, r = .fault f ∧ Stops i h f

theorem outcome_next {i : Instr} {h t : Hart xl} (hc : Completes i h t) : Outcome i h (.next ⟨xl, t⟩) :=
  .inl ⟨t, rfl, hc⟩

/-! ### The outcome of each shape -/

theorem outcome_existsIf {i : Instr} {h : Hart xl} {r : Result} (c : Bool) (hr : Outcome i h r) :
    Outcome i h (State.existsIf ⟨xl, h⟩ c i r) := by
  cases c with
  | true => exact hr
  | false => exact .inr ⟨_, rfl, .noRoutine⟩

theorem outcome_load (i : Instr) (h : Hart xl) (rd rs1 : Reg) (imm : BitVec 12) (n : Nat)
    (ext : BitVec (8 * n) → Word xl) :
    Outcome i h (State.attempt ⟨xl, h⟩ fun h => h.load rd rs1 imm n ext) := by
  rw [State.attempt_mk]
  rcases h.load_cases rd rs1 imm n ext with ⟨_, e⟩ | ⟨hf, e⟩ | ⟨_, hw, code, e⟩ <;> rw [e]
  · exact .inl ⟨_, rfl, .reg rd _ rfl⟩
  · exact .inr ⟨_, rfl, .outOfRange _ _ hf⟩
  · exact .inr ⟨_, rfl, .haltedLoad _ _ code hw⟩

theorem outcome_store {i : Instr} (hi : i.isStore = true) (h : Hart xl) (rs2 rs1 : Reg) (imm : BitVec 12) (n : Nat) :
    Outcome i h (State.attempt ⟨xl, h⟩ fun h => h.store rs2 rs1 imm n) := by
  rw [State.attempt_mk]
  rcases h.store_cases rs2 rs1 imm n with ⟨hf, e⟩ | ⟨hf, e⟩ | ⟨hf, hw, code, e⟩ <;> rw [e]
  · exact .inl ⟨_, rfl, .store _ n _ hi hf rfl⟩
  · exact .inr ⟨_, rfl, .outOfRange _ _ hf⟩
  · exact .inr ⟨_, rfl, .haltedStore _ n code _ hi hf hw⟩

theorem outcome_csr {i : Instr} (hi : i.isSystem = true) (h : Hart xl) (rd : Reg) (a : CsrAddr) (we : Bool)
    (new : Word xl → Word xl) (ha : we = true → i.csrWritten = some a) :
    Outcome i h (State.apply ⟨xl, h⟩ fun h => h.csrAccess rd a we new) := by
  refine outcome_next ?_
  rcases h.csrAccess_cases rd a we new with ⟨_, e⟩ | ⟨_, hw, hr, e⟩ | ⟨_, _, e⟩
  · exact .trap 2 hi (by omega) e
  · exact .csr rd a _ hi (ha hw) hr e
  · exact .reg rd _ e

/-- Every instruction completes or stops in one of the listed ways. -/
theorem exec_outcome (i : Instr) (h : Hart xl) : Outcome i h (exec i ⟨xl, h⟩) := by
  cases i with
  | lui rd imm => exact outcome_next (.reg rd _ rfl)
  | auipc rd imm => exact outcome_next (.reg rd _ rfl)
  | jal rd offset => exact outcome_next (.jump rd _ rfl)
  | jalr rd rs1 imm => exact outcome_next (.jump rd _ rfl)
  | beq rs1 rs2 offset => exact outcome_next (.branch _ offset rfl)
  | bne rs1 rs2 offset => exact outcome_next (.branch _ offset rfl)
  | blt rs1 rs2 offset => exact outcome_next (.branch _ offset rfl)
  | bge rs1 rs2 offset => exact outcome_next (.branch _ offset rfl)
  | bltu rs1 rs2 offset => exact outcome_next (.branch _ offset rfl)
  | bgeu rs1 rs2 offset => exact outcome_next (.branch _ offset rfl)
  | lb rd rs1 imm => exact outcome_load _ h rd rs1 imm 1 _
  | lh rd rs1 imm => exact outcome_load _ h rd rs1 imm 2 _
  | lw rd rs1 imm => exact outcome_load _ h rd rs1 imm 4 _
  | ld rd rs1 imm => exact outcome_existsIf _ (outcome_load _ h rd rs1 imm 8 _)
  | lbu rd rs1 imm => exact outcome_load _ h rd rs1 imm 1 _
  | lhu rd rs1 imm => exact outcome_load _ h rd rs1 imm 2 _
  | lwu rd rs1 imm => exact outcome_existsIf _ (outcome_load _ h rd rs1 imm 4 _)
  | sb rs2 rs1 imm => exact outcome_store rfl h rs2 rs1 imm 1
  | sh rs2 rs1 imm => exact outcome_store rfl h rs2 rs1 imm 2
  | sw rs2 rs1 imm => exact outcome_store rfl h rs2 rs1 imm 4
  | sd rs2 rs1 imm => exact outcome_existsIf _ (outcome_store rfl h rs2 rs1 imm 8)
  | addi rd rs1 imm => exact outcome_next (.reg rd _ rfl)
  | slti rd rs1 imm => exact outcome_next (.reg rd _ rfl)
  | sltiu rd rs1 imm => exact outcome_next (.reg rd _ rfl)
  | xori rd rs1 imm => exact outcome_next (.reg rd _ rfl)
  | ori rd rs1 imm => exact outcome_next (.reg rd _ rfl)
  | andi rd rs1 imm => exact outcome_next (.reg rd _ rfl)
  | slli rd rs1 shamt => exact outcome_existsIf _ (outcome_next (.reg rd _ rfl))
  | srli rd rs1 shamt => exact outcome_existsIf _ (outcome_next (.reg rd _ rfl))
  | srai rd rs1 shamt => exact outcome_existsIf _ (outcome_next (.reg rd _ rfl))
  | add rd rs1 rs2 => exact outcome_next (.reg rd _ rfl)
  | sub rd rs1 rs2 => exact outcome_next (.reg rd _ rfl)
  | sll rd rs1 rs2 => exact outcome_next (.reg rd _ rfl)
  | slt rd rs1 rs2 => exact outcome_next (.reg rd _ rfl)
  | sltu rd rs1 rs2 => exact outcome_next (.reg rd _ rfl)
  | xor rd rs1 rs2 => exact outcome_next (.reg rd _ rfl)
  | srl rd rs1 rs2 => exact outcome_next (.reg rd _ rfl)
  | sra rd rs1 rs2 => exact outcome_next (.reg rd _ rfl)
  | or rd rs1 rs2 => exact outcome_next (.reg rd _ rfl)
  | and rd rs1 rs2 => exact outcome_next (.reg rd _ rfl)
  | addiw rd rs1 imm => exact outcome_existsIf _ (outcome_next (.reg rd _ rfl))
  | slliw rd rs1 shamt => exact outcome_existsIf _ (outcome_next (.reg rd _ rfl))
  | srliw rd rs1 shamt => exact outcome_existsIf _ (outcome_next (.reg rd _ rfl))
  | sraiw rd rs1 shamt => exact outcome_existsIf _ (outcome_next (.reg rd _ rfl))
  | addw rd rs1 rs2 => exact outcome_existsIf _ (outcome_next (.reg rd _ rfl))
  | subw rd rs1 rs2 => exact outcome_existsIf _ (outcome_next (.reg rd _ rfl))
  | sllw rd rs1 rs2 => exact outcome_existsIf _ (outcome_next (.reg rd _ rfl))
  | srlw rd rs1 rs2 => exact outcome_existsIf _ (outcome_next (.reg rd _ rfl))
  | sraw rd rs1 rs2 => exact outcome_existsIf _ (outcome_next (.reg rd _ rfl))
  | fence fm pred succ => exact outcome_next (.same rfl)
  | fenceI => exact outcome_next (.same rfl)
  | csrrw rd a rs1 => exact outcome_csr rfl h rd a true _ fun _ => rfl
  | csrrs rd a rs1 => exact outcome_csr rfl h rd a _ _ fun hw => if_neg (by simpa using hw)
  | csrrc rd a rs1 => exact outcome_csr rfl h rd a _ _ fun hw => if_neg (by simpa using hw)
  | csrrwi rd a zimm => exact outcome_csr rfl h rd a true _ fun _ => rfl
  | csrrsi rd a zimm => exact outcome_csr rfl h rd a _ _ fun hw => if_neg (by simpa using hw)
  | csrrci rd a zimm => exact outcome_csr rfl h rd a _ _ fun hw => if_neg (by simpa using hw)
  | ecall => exact outcome_next (.trap _ rfl (by cases h.priv <;> decide) rfl)
  | ebreak => exact .inr ⟨_, rfl, .ebreak rfl⟩
  | sret =>
    refine outcome_next ?_
    rcases h.returnSupervisor_cases with ⟨_, e⟩ | ⟨hp, _⟩
    · exact .trap 2 rfl (by omega) e
    · exact .sret rfl hp rfl
  | mret =>
    show Outcome _ h (State.attempt ⟨xl, h⟩ fun h => h.returnMachine (encode .mret))
    rw [State.attempt_mk]
    rcases h.returnMachine_cases (encode .mret) with ⟨_, e⟩ | ⟨hp, _, e⟩ | ⟨hp, p, t, _, e, _⟩ <;> rw [e]
    · exact .inl ⟨_, rfl, .trap 2 rfl (by omega) rfl⟩
    · exact .inr ⟨_, rfl, .reserved rfl hp⟩
    · exact .inl ⟨_, rfl, .mret _ rfl hp e⟩

/-- An instruction that completes did it in one of the listed ways. -/
theorem exec_next {i : Instr} {h : Hart xl} {s : State} (e : exec i ⟨xl, h⟩ = .next s) :
    ∃ t : Hart xl, s = ⟨xl, t⟩ ∧ Completes i h t := by
  rcases exec_outcome i h with ⟨t, e', c⟩ | ⟨f, e', _⟩ <;> rw [e] at e' <;> cases e'
  exact ⟨t, rfl, c⟩

/-- An instruction that stops did it in one of the listed ways. -/
theorem exec_fault {i : Instr} {h : Hart xl} {f : Fault} (e : exec i ⟨xl, h⟩ = .fault f) : Stops i h f := by
  rcases exec_outcome i h with ⟨t, e', _⟩ | ⟨f, e', c⟩ <;> rw [e] at e' <;> cases e'
  exact c

/-- No instruction changes the parameters (rule R54). -/
theorem Completes.params {i : Instr} {h t : Hart xl} (c : Completes i h t) : t.params = h.params := by
  cases c with
  | same e => rw [e]
  | reg rd v e => rw [e]; exact (h.writesReg_setX rd v).params
  | jump rd target e => rw [e]; exact (h.jumpsTo_jump rd target).params
  | branch cond offset e => rw [e]; exact (h.branches_branch (cond := cond) Iff.rfl offset).params
  | store addr n v _ _ e => rw [e]; rfl
  | csr rd a new _ _ _ e => rw [e]; exact (h.writesCsr_setX_setCsr rd _ a new).params
  | trap code _ _ e => rw [e]; rfl
  | mret w _ _ e =>
    rcases h.returnMachine_cases w with ⟨_, e'⟩ | ⟨_, _, e'⟩ | ⟨_, p, t', _, e', r⟩ <;> rw [e] at e' <;> cases e'
    · rfl
    · exact r.params
  | sret _ hp e =>
    rcases h.returnSupervisor_cases with ⟨hu, _⟩ | ⟨_, r⟩
    · exact absurd hu hp
    · rw [e]; exact r.params

/-! ### The step -/

/-- The step as a case split on its fetch and its decode (rule R50). -/
theorem step_mk (h : Hart xl) : step ⟨xl, h⟩ =
    match h.fetch with
    | .error f => .fault f
    | .ok w => match decodeWord xl w with
      | .error _ => .fault (.unsupported w ⟨xl, h⟩)
      | .ok i => Result.advance (exec i ⟨xl, h⟩) := rfl

/-- A step whose fetch stops. -/
theorem step_of_error {h : Hart xl} {f : Fault} (ef : h.fetch = .error f) : step ⟨xl, h⟩ = .fault f := by
  rw [step_mk, ef]

/-- A step whose word the decoder rejects. -/
theorem step_of_reject {h : Hart xl} {w : InstrWord} {e : DecodeError} (ef : h.fetch = .ok w)
    (hd : decodeWord xl w = .error e) : step ⟨xl, h⟩ = .fault (.unsupported w ⟨xl, h⟩) := by
  rw [step_mk, ef]
  dsimp only
  rw [hd]

/-- A step whose word decodes. -/
theorem step_of_decode {h : Hart xl} {w : InstrWord} {i : Instr} (ef : h.fetch = .ok w)
    (hd : decodeWord xl w = .ok i) : step ⟨xl, h⟩ = Result.advance (exec i ⟨xl, h⟩) := by
  rw [step_mk, ef]
  dsimp only
  rw [hd]

/-- The step at an aligned pc whose four bytes are fetched unwatched. -/
theorem fetch_ok {h : Hart xl} (ha : h.pc.toNat % 4 = 0) (hf : h.Fits h.pc 4) (hw : ¬ h.Watches h.pc 4) :
    h.fetch = .ok (BitVec.ofNat 32 (h.bytesValue (h.pc - h.params.base).toNat 4)) := by
  rcases h.fetch_cases with ⟨ha', _⟩ | ⟨_, hf', _⟩ | ⟨_, _, hw', _⟩ | ⟨_, _, ef⟩
  · exact absurd ha ha'
  · exact absurd hf hf'
  · exact absurd hw' hw
  · exact ef

/-- What a step can do: stop at its fetch, stop at its decode, or advance the outcome of the decoded instruction. -/
theorem step_cases (h : Hart xl) :
    (∃ f, h.fetch = .error f ∧ step ⟨xl, h⟩ = .fault f) ∨
    (∃ w, h.fetch = .ok w ∧ step ⟨xl, h⟩ = .fault (.unsupported w ⟨xl, h⟩)) ∨
    (∃ w i, h.fetch = .ok w ∧ decodeWord xl w = .ok i ∧ step ⟨xl, h⟩ = Result.advance (exec i ⟨xl, h⟩)) := by
  cases ef : h.fetch with
  | error f => exact .inl ⟨f, rfl, step_of_error ef⟩
  | ok w =>
    cases hd : decodeWord xl w with
    | error e => exact .inr (.inl ⟨w, rfl, step_of_reject ef hd⟩)
    | ok i => exact .inr (.inr ⟨w, i, rfl, hd, step_of_decode ef hd⟩)

/-- The step of an outcome. -/
theorem advance_outcome {i : Instr} {h : Hart xl} {r : Result} (o : Outcome i h r) :
    (∃ t, r.advance = .next ⟨xl, t.pcAdvance⟩ ∧ Completes i h t) ∨ ∃ f, r.advance = .fault f ∧ Stops i h f := by
  rcases o with ⟨t, rfl, c⟩ | ⟨f, rfl, c⟩
  · exact .inl ⟨t, rfl, c⟩
  · exact .inr ⟨f, rfl, c⟩

/-- A step that answers a next state decoded an instruction, completed it and advanced. -/
theorem step_next {h : Hart xl} {s : State} (e : step ⟨xl, h⟩ = .next s) :
    ∃ (w : InstrWord) (i : Instr) (t : Hart xl), h.fetch = .ok w ∧ decodeWord xl w = .ok i ∧ Completes i h t ∧
      s = ⟨xl, t.pcAdvance⟩ := by
  rcases step_cases h with ⟨f, _, es⟩ | ⟨w, _, es⟩ | ⟨w, i, ef, hd, es⟩ <;> rw [es] at e
  · exact absurd e (by simp)
  · exact absurd e (by simp)
  · rcases advance_outcome (exec_outcome i h) with ⟨t, ea, c⟩ | ⟨f, ea, _⟩ <;> rw [ea] at e
    · exact ⟨w, i, t, ef, hd, c, (Host.Outcome.next.inj e).symm⟩
    · exact absurd e (by simp)

/-- A step that stops did it at its fetch or its decode, or its instruction stopped. -/
theorem step_fault {h : Hart xl} {f : Fault} (e : step ⟨xl, h⟩ = .fault f) :
    h.fetch = .error f ∨ (∃ w, f = .unsupported w ⟨xl, h⟩) ∨ ∃ i, Stops i h f := by
  rcases step_cases h with ⟨f', ef, es⟩ | ⟨w, _, es⟩ | ⟨w, i, ef, hd, es⟩ <;> rw [es] at e
  · exact .inl (by rw [ef, Host.Outcome.fault.inj e])
  · exact .inr (.inl ⟨w, (Host.Outcome.fault.inj e).symm⟩)
  · rcases advance_outcome (exec_outcome i h) with ⟨t, ea, _⟩ | ⟨f', ea, c⟩ <;> rw [ea] at e
    · exact absurd e (by simp)
    · exact .inr (.inr ⟨i, Host.Outcome.fault.inj e ▸ c⟩)

/-- The PC advance field by field (rule R50, step 5). -/
theorem Hart.pcAdvance_eq (h : Hart xl) :
    h.pcAdvance = { h with
      pc := if h.branchTaken || h.jumpTaken || h.trapTaken then h.pc else h.pc + 4
      branchTaken := false, jumpTaken := false, trapTaken := false } := by
  cases h with
  | mk x pc b j t p c m q => cases b <;> cases j <;> cases t <;> rfl

end Sys2Proof.Machine
end

