-- ==== Sys2Proof/Laws/PerInstr.lean ====
section
/-! SUPPORT. Per-instruction laws. Family TableRow: the word of a well-formed instruction matches a row of the opcode
table that has the instruction's mnemonic and format (INDEX.md "Reading the opcode table", rule R140). -/

namespace Sys2Proof.Laws.TableRow

set_option Elab.async false

/-- The word of `i`, at every width where `i` is well formed, matches its own row of the table. -/
def Statement (i : Instr) : Prop :=
  ∀ xl, WellFormed xl i = true →
    ∃ row ∈ opcodeTable, row.mnemonic = i.mnemonic ∧ row.format = i.format ∧ row.accepts xl (encode i) = true

/-- The row at place `k` of the table is one for `i` when its masks accept the word and an RV64-only row belongs to an
RV64-only instruction. -/
theorem of_row {i : Instr} (k : Nat) (row : Row) (hk : opcodeTable[k]? = some row) (hm : row.mnemonic = i.mnemonic)
    (hf : row.format = i.format) (h64 : i.needsRv64 = row.rv64Only)
    (m32 : WellFormed .rv32 i = true → encode i &&& row.maskRv32 = row.pattern)
    (m64 : encode i &&& row.mask = row.pattern) : Statement i := by
  intro xl hw
  refine ⟨row, List.mem_of_getElem? hk, hm, hf, ?_⟩
  cases xl
  · have : row.rv64Only = false := by
      rw [← h64]
      cases h : i.needsRv64
      · rfl
      · simp [WellFormed, h] at hw
    simp [Row.accepts, this, m32 hw]
  · simp [Row.accepts, m64]

/-- A row with one mask for both widths. -/
theorem of_mask {i : Instr} (k : Nat) (row : Row) (hk : opcodeTable[k]? = some row) (hm : row.mnemonic = i.mnemonic)
    (hf : row.format = i.format) (h64 : i.needsRv64 = row.rv64Only) (hs : row.maskRv32 = row.mask)
    (h : encode i &&& row.mask = row.pattern) : Statement i :=
  of_row k row hk hm hf h64 (fun _ => hs ▸ h) h

/-- The amount of a well-formed shift-immediate at XLEN = 32 has bit 5 clear. -/
theorem bit5_of_fits {shamt : BitVec 6} (h : shamtFits .rv32 shamt = true) : shamt.getLsbD 5 = false := by
  simpa [shamtFits_rv32] using h

theorem lui (rd : Reg) (imm : BitVec 20) : Statement (.lui rd imm) :=
  of_mask 0 _ rfl rfl rfl rfl rfl ((mask_opcode _ _ (by decide)).2 (by simp [encode]; decide))

theorem auipc (rd : Reg) (imm : BitVec 20) : Statement (.auipc rd imm) :=
  of_mask 1 _ rfl rfl rfl rfl rfl ((mask_opcode _ _ (by decide)).2 (by simp [encode]; decide))

theorem jal (rd : Reg) (offset : BitVec 21) : Statement (.jal rd offset) :=
  of_mask 2 _ rfl rfl rfl rfl rfl ((mask_opcode _ _ (by decide)).2 (by simp [encode]; decide))

theorem jalr (rd rs1 : Reg) (imm : BitVec 12) : Statement (.jalr rd rs1 imm) :=
  of_mask 3 _ rfl rfl rfl rfl rfl ((mask_funct3 _ _ (by decide)).2 (by simp [encode]; decide))

theorem beq (rs1 rs2 : Reg) (offset : BitVec 13) : Statement (.beq rs1 rs2 offset) :=
  of_mask 4 _ rfl rfl rfl rfl rfl ((mask_funct3 _ _ (by decide)).2 (by simp [encode]; decide))

theorem bne (rs1 rs2 : Reg) (offset : BitVec 13) : Statement (.bne rs1 rs2 offset) :=
  of_mask 5 _ rfl rfl rfl rfl rfl ((mask_funct3 _ _ (by decide)).2 (by simp [encode]; decide))

theorem blt (rs1 rs2 : Reg) (offset : BitVec 13) : Statement (.blt rs1 rs2 offset) :=
  of_mask 6 _ rfl rfl rfl rfl rfl ((mask_funct3 _ _ (by decide)).2 (by simp [encode]; decide))

theorem bge (rs1 rs2 : Reg) (offset : BitVec 13) : Statement (.bge rs1 rs2 offset) :=
  of_mask 7 _ rfl rfl rfl rfl rfl ((mask_funct3 _ _ (by decide)).2 (by simp [encode]; decide))

theorem bltu (rs1 rs2 : Reg) (offset : BitVec 13) : Statement (.bltu rs1 rs2 offset) :=
  of_mask 8 _ rfl rfl rfl rfl rfl ((mask_funct3 _ _ (by decide)).2 (by simp [encode]; decide))

theorem bgeu (rs1 rs2 : Reg) (offset : BitVec 13) : Statement (.bgeu rs1 rs2 offset) :=
  of_mask 9 _ rfl rfl rfl rfl rfl ((mask_funct3 _ _ (by decide)).2 (by simp [encode]; decide))

theorem lb (rd rs1 : Reg) (imm : BitVec 12) : Statement (.lb rd rs1 imm) :=
  of_mask 10 _ rfl rfl rfl rfl rfl ((mask_funct3 _ _ (by decide)).2 (by simp [encode]; decide))

theorem lh (rd rs1 : Reg) (imm : BitVec 12) : Statement (.lh rd rs1 imm) :=
  of_mask 11 _ rfl rfl rfl rfl rfl ((mask_funct3 _ _ (by decide)).2 (by simp [encode]; decide))

theorem lw (rd rs1 : Reg) (imm : BitVec 12) : Statement (.lw rd rs1 imm) :=
  of_mask 12 _ rfl rfl rfl rfl rfl ((mask_funct3 _ _ (by decide)).2 (by simp [encode]; decide))

theorem ld (rd rs1 : Reg) (imm : BitVec 12) : Statement (.ld rd rs1 imm) :=
  of_mask 13 _ rfl rfl rfl rfl rfl ((mask_funct3 _ _ (by decide)).2 (by simp [encode]; decide))

theorem lbu (rd rs1 : Reg) (imm : BitVec 12) : Statement (.lbu rd rs1 imm) :=
  of_mask 14 _ rfl rfl rfl rfl rfl ((mask_funct3 _ _ (by decide)).2 (by simp [encode]; decide))

theorem lhu (rd rs1 : Reg) (imm : BitVec 12) : Statement (.lhu rd rs1 imm) :=
  of_mask 15 _ rfl rfl rfl rfl rfl ((mask_funct3 _ _ (by decide)).2 (by simp [encode]; decide))

theorem lwu (rd rs1 : Reg) (imm : BitVec 12) : Statement (.lwu rd rs1 imm) :=
  of_mask 16 _ rfl rfl rfl rfl rfl ((mask_funct3 _ _ (by decide)).2 (by simp [encode]; decide))

theorem sb (rs2 rs1 : Reg) (imm : BitVec 12) : Statement (.sb rs2 rs1 imm) :=
  of_mask 17 _ rfl rfl rfl rfl rfl ((mask_funct3 _ _ (by decide)).2 (by simp [encode]; decide))

theorem sh (rs2 rs1 : Reg) (imm : BitVec 12) : Statement (.sh rs2 rs1 imm) :=
  of_mask 18 _ rfl rfl rfl rfl rfl ((mask_funct3 _ _ (by decide)).2 (by simp [encode]; decide))

theorem sw (rs2 rs1 : Reg) (imm : BitVec 12) : Statement (.sw rs2 rs1 imm) :=
  of_mask 19 _ rfl rfl rfl rfl rfl ((mask_funct3 _ _ (by decide)).2 (by simp [encode]; decide))

theorem sd (rs2 rs1 : Reg) (imm : BitVec 12) : Statement (.sd rs2 rs1 imm) :=
  of_mask 20 _ rfl rfl rfl rfl rfl ((mask_funct3 _ _ (by decide)).2 (by simp [encode]; decide))

theorem addi (rd rs1 : Reg) (imm : BitVec 12) : Statement (.addi rd rs1 imm) :=
  of_mask 21 _ rfl rfl rfl rfl rfl ((mask_funct3 _ _ (by decide)).2 (by simp [encode]; decide))

theorem slti (rd rs1 : Reg) (imm : BitVec 12) : Statement (.slti rd rs1 imm) :=
  of_mask 22 _ rfl rfl rfl rfl rfl ((mask_funct3 _ _ (by decide)).2 (by simp [encode]; decide))

theorem sltiu (rd rs1 : Reg) (imm : BitVec 12) : Statement (.sltiu rd rs1 imm) :=
  of_mask 23 _ rfl rfl rfl rfl rfl ((mask_funct3 _ _ (by decide)).2 (by simp [encode]; decide))

theorem xori (rd rs1 : Reg) (imm : BitVec 12) : Statement (.xori rd rs1 imm) :=
  of_mask 24 _ rfl rfl rfl rfl rfl ((mask_funct3 _ _ (by decide)).2 (by simp [encode]; decide))

theorem ori (rd rs1 : Reg) (imm : BitVec 12) : Statement (.ori rd rs1 imm) :=
  of_mask 25 _ rfl rfl rfl rfl rfl ((mask_funct3 _ _ (by decide)).2 (by simp [encode]; decide))

theorem andi (rd rs1 : Reg) (imm : BitVec 12) : Statement (.andi rd rs1 imm) :=
  of_mask 26 _ rfl rfl rfl rfl rfl ((mask_funct3 _ _ (by decide)).2 (by simp [encode]; decide))

theorem slli (rd rs1 : Reg) (shamt : BitVec 6) : Statement (.slli rd rs1 shamt) :=
  of_row 27 _ rfl rfl rfl rfl
    (fun hw => (mask_funct7 _ _ (by decide)).2 (by
      have h5 : shamt.getLsbD 5 = false := bit5_of_fits (by simpa [WellFormed, Instr.operandsFit] using (Bool.and_eq_true_iff.1 hw).2)
      simp [encode, fieldFunct7_encodeShift _ _ _ _ _ h5]; decide))
    ((mask_funct6 _ _ (by decide)).2 (by simp [encode]; decide))

theorem srli (rd rs1 : Reg) (shamt : BitVec 6) : Statement (.srli rd rs1 shamt) :=
  of_row 28 _ rfl rfl rfl rfl
    (fun hw => (mask_funct7 _ _ (by decide)).2 (by
      have h5 : shamt.getLsbD 5 = false := bit5_of_fits (by simpa [WellFormed, Instr.operandsFit] using (Bool.and_eq_true_iff.1 hw).2)
      simp [encode, fieldFunct7_encodeShift _ _ _ _ _ h5]; decide))
    ((mask_funct6 _ _ (by decide)).2 (by simp [encode]; decide))

theorem srai (rd rs1 : Reg) (shamt : BitVec 6) : Statement (.srai rd rs1 shamt) :=
  of_row 29 _ rfl rfl rfl rfl
    (fun hw => (mask_funct7 _ _ (by decide)).2 (by
      have h5 : shamt.getLsbD 5 = false := bit5_of_fits (by simpa [WellFormed, Instr.operandsFit] using (Bool.and_eq_true_iff.1 hw).2)
      simp [encode, fieldFunct7_encodeShift _ _ _ _ _ h5]; decide))
    ((mask_funct6 _ _ (by decide)).2 (by simp [encode]; decide))

theorem add (rd rs1 rs2 : Reg) : Statement (.add rd rs1 rs2) :=
  of_mask 30 _ rfl rfl rfl rfl rfl ((mask_funct7 _ _ (by decide)).2 (by simp [encode]; decide))

theorem sub (rd rs1 rs2 : Reg) : Statement (.sub rd rs1 rs2) :=
  of_mask 31 _ rfl rfl rfl rfl rfl ((mask_funct7 _ _ (by decide)).2 (by simp [encode]; decide))

theorem sll (rd rs1 rs2 : Reg) : Statement (.sll rd rs1 rs2) :=
  of_mask 32 _ rfl rfl rfl rfl rfl ((mask_funct7 _ _ (by decide)).2 (by simp [encode]; decide))

theorem slt (rd rs1 rs2 : Reg) : Statement (.slt rd rs1 rs2) :=
  of_mask 33 _ rfl rfl rfl rfl rfl ((mask_funct7 _ _ (by decide)).2 (by simp [encode]; decide))

theorem sltu (rd rs1 rs2 : Reg) : Statement (.sltu rd rs1 rs2) :=
  of_mask 34 _ rfl rfl rfl rfl rfl ((mask_funct7 _ _ (by decide)).2 (by simp [encode]; decide))

theorem xor (rd rs1 rs2 : Reg) : Statement (.xor rd rs1 rs2) :=
  of_mask 35 _ rfl rfl rfl rfl rfl ((mask_funct7 _ _ (by decide)).2 (by simp [encode]; decide))

theorem srl (rd rs1 rs2 : Reg) : Statement (.srl rd rs1 rs2) :=
  of_mask 36 _ rfl rfl rfl rfl rfl ((mask_funct7 _ _ (by decide)).2 (by simp [encode]; decide))

theorem sra (rd rs1 rs2 : Reg) : Statement (.sra rd rs1 rs2) :=
  of_mask 37 _ rfl rfl rfl rfl rfl ((mask_funct7 _ _ (by decide)).2 (by simp [encode]; decide))

theorem or (rd rs1 rs2 : Reg) : Statement (.or rd rs1 rs2) :=
  of_mask 38 _ rfl rfl rfl rfl rfl ((mask_funct7 _ _ (by decide)).2 (by simp [encode]; decide))

theorem and (rd rs1 rs2 : Reg) : Statement (.and rd rs1 rs2) :=
  of_mask 39 _ rfl rfl rfl rfl rfl ((mask_funct7 _ _ (by decide)).2 (by simp [encode]; decide))

theorem addiw (rd rs1 : Reg) (imm : BitVec 12) : Statement (.addiw rd rs1 imm) :=
  of_mask 40 _ rfl rfl rfl rfl rfl ((mask_funct3 _ _ (by decide)).2 (by simp [encode]; decide))

theorem slliw (rd rs1 : Reg) (shamt : BitVec 5) : Statement (.slliw rd rs1 shamt) :=
  of_mask 41 _ rfl rfl rfl rfl rfl ((mask_funct7 _ _ (by decide)).2 (by simp [encode]; decide))

theorem srliw (rd rs1 : Reg) (shamt : BitVec 5) : Statement (.srliw rd rs1 shamt) :=
  of_mask 42 _ rfl rfl rfl rfl rfl ((mask_funct7 _ _ (by decide)).2 (by simp [encode]; decide))

theorem sraiw (rd rs1 : Reg) (shamt : BitVec 5) : Statement (.sraiw rd rs1 shamt) :=
  of_mask 43 _ rfl rfl rfl rfl rfl ((mask_funct7 _ _ (by decide)).2 (by simp [encode]; decide))

theorem addw (rd rs1 rs2 : Reg) : Statement (.addw rd rs1 rs2) :=
  of_mask 44 _ rfl rfl rfl rfl rfl ((mask_funct7 _ _ (by decide)).2 (by simp [encode]; decide))

theorem subw (rd rs1 rs2 : Reg) : Statement (.subw rd rs1 rs2) :=
  of_mask 45 _ rfl rfl rfl rfl rfl ((mask_funct7 _ _ (by decide)).2 (by simp [encode]; decide))

theorem sllw (rd rs1 rs2 : Reg) : Statement (.sllw rd rs1 rs2) :=
  of_mask 46 _ rfl rfl rfl rfl rfl ((mask_funct7 _ _ (by decide)).2 (by simp [encode]; decide))

theorem srlw (rd rs1 rs2 : Reg) : Statement (.srlw rd rs1 rs2) :=
  of_mask 47 _ rfl rfl rfl rfl rfl ((mask_funct7 _ _ (by decide)).2 (by simp [encode]; decide))

theorem sraw (rd rs1 rs2 : Reg) : Statement (.sraw rd rs1 rs2) :=
  of_mask 48 _ rfl rfl rfl rfl rfl ((mask_funct7 _ _ (by decide)).2 (by simp [encode]; decide))

theorem fence (fm pred succ : BitVec 4) : Statement (.fence fm pred succ) :=
  of_mask 49 _ rfl rfl rfl rfl rfl ((mask_low20 _ _ (by decide)).2 (by simp [encode]; decide))

theorem fenceI : Statement .fenceI :=
  of_mask 50 _ rfl rfl rfl rfl rfl rfl

theorem csrrw (rd : Reg) (csr : CsrAddr) (rs1 : Reg) : Statement (.csrrw rd csr rs1) :=
  of_mask 51 _ rfl rfl rfl rfl rfl ((mask_funct3 _ _ (by decide)).2 (by simp [encode]; decide))

theorem csrrs (rd : Reg) (csr : CsrAddr) (rs1 : Reg) : Statement (.csrrs rd csr rs1) :=
  of_mask 52 _ rfl rfl rfl rfl rfl ((mask_funct3 _ _ (by decide)).2 (by simp [encode]; decide))

theorem csrrc (rd : Reg) (csr : CsrAddr) (rs1 : Reg) : Statement (.csrrc rd csr rs1) :=
  of_mask 53 _ rfl rfl rfl rfl rfl ((mask_funct3 _ _ (by decide)).2 (by simp [encode]; decide))

theorem csrrwi (rd : Reg) (csr : CsrAddr) (zimm : BitVec 5) : Statement (.csrrwi rd csr zimm) :=
  of_mask 54 _ rfl rfl rfl rfl rfl ((mask_funct3 _ _ (by decide)).2 (by simp [encode]; decide))

theorem csrrsi (rd : Reg) (csr : CsrAddr) (zimm : BitVec 5) : Statement (.csrrsi rd csr zimm) :=
  of_mask 55 _ rfl rfl rfl rfl rfl ((mask_funct3 _ _ (by decide)).2 (by simp [encode]; decide))

theorem csrrci (rd : Reg) (csr : CsrAddr) (zimm : BitVec 5) : Statement (.csrrci rd csr zimm) :=
  of_mask 56 _ rfl rfl rfl rfl rfl ((mask_funct3 _ _ (by decide)).2 (by simp [encode]; decide))

theorem ecall : Statement .ecall :=
  of_mask 57 _ rfl rfl rfl rfl rfl rfl

theorem ebreak : Statement .ebreak :=
  of_mask 58 _ rfl rfl rfl rfl rfl rfl

theorem sret : Statement .sret :=
  of_mask 59 _ rfl rfl rfl rfl rfl rfl

theorem mret : Statement .mret :=
  of_mask 60 _ rfl rfl rfl rfl rfl rfl

end Sys2Proof.Laws.TableRow
end

