-- ==== Sys2Proof/Tests/Slice0.lean ====
section
/-! SUPPORT. The model's own tests. Expected results are those of spec/95_test_vectors.md (derived there from the rules) or
are worked out from the rule named; words are the spec's encodings. Each step test is one step. Last, a witness for the
hypotheses of every obligation that has some. -/

namespace Sys2Proof.Tests

open Sys2Proof.Machine

/-! ### WellFormed refuses an ill-formed term of each check -/

/-- An RV64-only instruction does not exist at XLEN = 32 (rule R139). -/
theorem test_wf_rv64_only : WellFormed .rv32 (.ld 3 1 0) = false ∧ WellFormed .rv64 (.ld 3 1 0) = true := by decide

/-- A shift amount of 32 does not exist at XLEN = 32 (rule R139). -/
theorem test_wf_shamt :
    WellFormed .rv32 (.slli 1 2 32) = false ∧ WellFormed .rv32 (.srai 1 2 31) = true ∧
    WellFormed .rv64 (.srli 1 2 63) = true := by decide

/-- A branch offset is even (rule R121). -/
theorem test_wf_branch_offset : WellFormed .rv64 (.beq 1 2 17) = false ∧ WellFormed .rv64 (.beq 1 2 16) = true := by decide

/-- A JAL offset is even (rule R123). -/
theorem test_wf_jal_offset : WellFormed .rv64 (.jal 1 5) = false ∧ WellFormed .rv64 (.jal 1 6) = true := by decide

/-! ### Decoding: a word of the spec for every constructor -/

/-- The word decodes to the instruction and the instruction encodes to the word. -/
def reads (w : InstrWord) (i : Instr) : Bool :=
  decodeWord .rv64 w == .ok i && encode i == w

/-- Words of 95_test_vectors.md C1, C7, I1, I5 and E3. -/
theorem test_decode_upper_and_jumps :
    reads 0x123452B7#32 (.lui 5 0x12345) ∧ reads 0xFFFFF297#32 (.auipc 5 0xFFFFF) ∧ reads 0x008000EF#32 (.jal 1 8) ∧
    reads 0xFFDFF06F#32 (.jal 0 0x1FFFFC) ∧ reads 0x8000006F#32 (.jal 0 0x100000) ∧
    reads 0x004080E7#32 (.jalr 1 1 4) := by decide

/-- Words of 95_test_vectors.md section 2.2 and E3. -/
theorem test_decode_branches :
    reads 0x00208863#32 (.beq 1 2 16) ∧ reads 0x7E000FE3#32 (.beq 0 0 0xFFE) ∧ reads 0x80000063#32 (.beq 0 0 0x1000) ∧
    reads 0xFE2098E3#32 (.bne 1 2 0x1FF0) ∧ reads 0x0020C863#32 (.blt 1 2 16) ∧ reads 0x0020D863#32 (.bge 1 2 16) ∧
    reads 0x0020E863#32 (.bltu 1 2 16) ∧ reads 0x0020F863#32 (.bgeu 1 2 16) := by decide

/-- Words of 95_test_vectors.md section 2.3 and E3. -/
theorem test_decode_loads_and_stores :
    reads 0x00408183#32 (.lb 3 1 4) ∧ reads 0x00209183#32 (.lh 3 1 2) ∧ reads 0x0030A183#32 (.lw 3 1 3) ∧
    reads 0xFF80B183#32 (.ld 3 1 0xFF8) ∧ reads 0x0000C183#32 (.lbu 3 1 0) ∧ reads 0x0010D183#32 (.lhu 3 1 1) ∧
    reads 0x0000E183#32 (.lwu 3 1 0) ∧ reads 0x00208023#32 (.sb 2 1 0) ∧ reads 0x002090A3#32 (.sh 2 1 1) ∧
    reads 0xFE20AE23#32 (.sw 2 1 0xFFC) ∧ reads 0x7E20AFA3#32 (.sw 2 1 0x7FF) ∧ reads 0x0020B023#32 (.sd 2 1 0) := by decide

/-- Words of 95_test_vectors.md section 2.1. -/
theorem test_decode_immediates :
    reads 0xFFF10093#32 (.addi 1 2 0xFFF) ∧ reads 0xFFF12093#32 (.slti 1 2 0xFFF) ∧ reads 0x00113093#32 (.sltiu 1 2 1) ∧
    reads 0xFFF14093#32 (.xori 1 2 0xFFF) ∧ reads 0x7FF16093#32 (.ori 1 2 0x7FF) ∧ reads 0xFF017093#32 (.andi 1 2 0xFF0) ∧
    reads 0x03F11093#32 (.slli 1 2 63) ∧ reads 0x03F15093#32 (.srli 1 2 63) ∧ reads 0x43F15093#32 (.srai 1 2 63) := by decide

/-- Words of 95_test_vectors.md section 2.1. -/
theorem test_decode_registers :
    reads 0x002081B3#32 (.add 3 1 2) ∧ reads 0x402081B3#32 (.sub 3 1 2) ∧ reads 0x002091B3#32 (.sll 3 1 2) ∧
    reads 0x0020A1B3#32 (.slt 3 1 2) ∧ reads 0x0020B1B3#32 (.sltu 3 1 2) ∧ reads 0x0010C1B3#32 (.xor 3 1 1) ∧
    reads 0x0020D1B3#32 (.srl 3 1 2) ∧ reads 0x4020D1B3#32 (.sra 3 1 2) ∧ reads 0x0020E1B3#32 (.or 3 1 2) ∧
    reads 0x0020F1B3#32 (.and 3 1 2) := by decide

/-- Words of 95_test_vectors.md section 2.1. -/
theorem test_decode_word_operations :
    reads 0x0011009B#32 (.addiw 1 2 1) ∧ reads 0x0011109B#32 (.slliw 1 2 1) ∧ reads 0x0011509B#32 (.srliw 1 2 1) ∧
    reads 0x41F1509B#32 (.sraiw 1 2 31) ∧ reads 0x002081BB#32 (.addw 3 1 2) ∧ reads 0x402081BB#32 (.subw 3 1 2) ∧
    reads 0x002091BB#32 (.sllw 3 1 2) ∧ reads 0x0020D1BB#32 (.srlw 3 1 2) ∧ reads 0x4020D1BB#32 (.sraw 3 1 2) := by decide

/-- Words of 95_test_vectors.md sections 2.4 to 2.6. -/
theorem test_decode_system :
    reads 0x0FF0000F#32 (.fence 0 15 15) ∧ reads 0x8330000F#32 (.fence 8 3 3) ∧ reads 0x0000100F#32 .fenceI ∧
    reads 0x34009373#32 (.csrrw 6 0x340 1) ∧ reads 0x305022F3#32 (.csrrs 5 0x305 0) ∧
    reads 0x300133F3#32 (.csrrc 7 0x300 2) ∧ reads 0x340FD0F3#32 (.csrrwi 1 0x340 31) ∧
    reads 0x30046073#32 (.csrrsi 0 0x300 8) ∧ reads 0x3401F0F3#32 (.csrrci 1 0x340 3) ∧ reads 0x00000073#32 .ecall ∧
    reads 0x00100073#32 .ebreak ∧ reads 0x10200073#32 .sret ∧ reads 0x30200073#32 .mret := by decide

/-- Words of 95_test_vectors.md sections 2.1, 2.3, 2.4 and 2.7 that are rejected at XLEN = 64. -/
theorem test_decode_rejects :
    [0x00000000#32, 0xFFFFFFFF#32, 0x02208133#32, 0x00004501#32, 0x0020A0AF#32, 0x0000A007#32, 0x802081B3#32,
      0x422081B3#32, 0x4410D093#32, 0x0200909B#32, 0x00009067#32, 0x0020A063#32, 0x0000F183#32, 0x0020C023#32,
      0x0000A09B#32, 0x0020A1BB#32, 0x000000F3#32, 0x00200073#32, 0x0FF0008F#32, 0x0FF0800F#32, 0x0010100F#32,
      0x0000200F#32, 0x00004073#32, 0x10500073#32, 0x12000073#32].all
      (fun w => decodeWord .rv64 w == .error (.unsupported w)) = true := by decide

/-- Words of 95_test_vectors.md that are rejected at XLEN = 32 alone. -/
theorem test_decode_rejects_rv32 :
    [0x02011093#32, 0x002081BB#32, 0x0000B183#32, 0x0000E183#32, 0x0020B023#32, 0x4210D093#32, 0x0010809B#32].all
      (fun w => decodeWord .rv32 w == .error (.unsupported w)) = true := by decide

/-- Bytes of a word, low byte first, with the rest given back; the table's numbering of a word (rules R85, R110). -/
theorem test_decode_bytes :
    decodeBytes .rv64 [0xB7, 0x52, 0x34, 0x12, 0x99] = .ok (.lui 5 0x12345, [0x99]) ∧
    decodeBytes .rv64 [0xB7, 0x52] = .error (.truncated 2) ∧
    decodeTableWord 32 0x123452B7 = some (.lui 5 0x12345) ∧ decodeTableWord 32 0 = none := by decide

/-! ### One step -/

/-- A hart of the default start state of spec/95_test_vectors.md, with its own base, capacity and pc. -/
def hartAt (xl : Xlen) (base cap pc : Nat) (p : Priv) : Hart xl :=
  { x := Vector.replicate 31 0, pc := BitVec.ofNat _ pc, branchTaken := false, jumpTaken := false, trapTaken := false,
    priv := p, csrs := ⟨[]⟩, mem := ⟨[]⟩, params := ⟨BitVec.ofNat _ base, cap, none⟩ }

/-- A hart with registers, CSR cells and bytes at addresses set. -/
def withCells {xl : Xlen} (h : Hart xl) (regs csrs mem : List (Nat × Nat)) : Hart xl :=
  let h := regs.foldl (fun h c => h.setX (BitVec.ofNat 5 c.1) (BitVec.ofNat _ c.2)) h
  let h := csrs.foldl (fun h c => h.setCsr (BitVec.ofNat 12 c.1) (BitVec.ofNat _ c.2)) h
  mem.foldl (fun h c => { h with mem := h.mem.set (h.index (BitVec.ofNat _ c.1)) (BitVec.ofNat 8 c.2) }) h

/-- The start state of a vector: BASE = 0x1000, MEM_CAPACITY = 0x200, pc = 0x1000, the word at pc. -/
def start (xl : Xlen) (w : Nat) (regs csrs mem : List (Nat × Nat)) (p : Priv) : State :=
  ⟨xl, (withCells (hartAt xl 0x1000 0x200 0x1000 p) regs csrs mem).placeWord w⟩

/-- The start state of a vector that says pc = 0x2000: BASE = 0, MEM_CAPACITY = 0x10000. -/
def startAt2000 (xl : Xlen) (w : Nat) (regs csrs mem : List (Nat × Nat)) (p : Priv) : State :=
  ⟨xl, (withCells (hartAt xl 0 0x10000 0x2000 p) regs csrs mem).placeWord w⟩

/-- One step gives the state that differs from the start in what the vector's result lists, and in nothing else. -/
def steps (s : State) (pc : Nat) (regs csrs mem : List (Nat × Nat)) (p : Priv) : Bool :=
  match step s with
  | .next t => t == ⟨s.xlen, { withCells s.hart regs csrs mem with pc := BitVec.ofNat _ pc, priv := p }⟩
  | .fault _ => false
  | .refused _ => false

/-- One step is the stop of the vector, with the state unchanged. -/
def stops (s : State) (f : State → Fault) : Bool :=
  match step s with
  | .next _ => false
  | .fault e => e == f s
  | .refused _ => false

/-- Vectors I2, I6, I9, I11 of spec/95_test_vectors.md. -/
theorem test_step_upper_and_add :
  steps (start .rv64 0x800002B7 [] [] [] .machine)
    0x1004 [(5, 0xffffffff80000000)] [] [] .machine ∧
  steps (start .rv32 0x80000297 [] [] [] .machine)
    0x1004 [(5, 0x80001000)] [] [] .machine ∧
  steps (start .rv64 0x80010093 [(2, 0)] [] [] .machine)
    0x1004 [(1, 0xfffffffffffff800)] [] [] .machine ∧
  steps (start .rv64 0x00110093 [(2, 0xffffffffffffffff)] [] [] .machine)
    0x1004 [(1, 0)] [] [] .machine := by decide

/-- Vectors I14, I15, I16, I17, I18, I19, I20 of spec/95_test_vectors.md. -/
theorem test_step_compare_and_logic_immediates :
  steps (start .rv64 0xFFF12093 [(2, 0xfffffffffffffffe)] [] [] .machine)
    0x1004 [(1, 1)] [] [] .machine ∧
  steps (start .rv64 0x00012093 [(2, 0x7fffffffffffffff)] [] [] .machine)
    0x1004 [(1, 0)] [] [] .machine ∧
  steps (start .rv64 0xFFF13093 [(2, 0xffffffffffffffff)] [] [] .machine)
    0x1004 [(1, 0)] [] [] .machine ∧
  steps (start .rv64 0x00113093 [(2, 0)] [] [] .machine)
    0x1004 [(1, 1)] [] [] .machine ∧
  steps (start .rv64 0xFFF14093 [(2, 0xf0f)] [] [] .machine)
    0x1004 [(1, 0xfffffffffffff0f0)] [] [] .machine ∧
  steps (start .rv32 0x7FF16093 [(2, 0x80000000)] [] [] .machine)
    0x1004 [(1, 0x800007ff)] [] [] .machine ∧
  steps (start .rv64 0xFF017093 [(2, 0x12345)] [] [] .machine)
    0x1004 [(1, 0x12340)] [] [] .machine := by decide

/-- Vectors I22, I21, I24, I26 of spec/95_test_vectors.md. -/
theorem test_step_shift_immediates :
  steps (start .rv32 0x01F11093 [(2, 3)] [] [] .machine)
    0x1004 [(1, 0x80000000)] [] [] .machine ∧
  steps (start .rv64 0x03F11093 [(2, 3)] [] [] .machine)
    0x1004 [(1, 0x8000000000000000)] [] [] .machine ∧
  steps (start .rv64 0x03F15093 [(2, 0xffffffffffffffff)] [] [] .machine)
    0x1004 [(1, 1)] [] [] .machine ∧
  steps (start .rv32 0x41F15093 [(2, 0x80000000)] [] [] .machine)
    0x1004 [(1, 0xffffffff)] [] [] .machine := by decide

/-- Vectors I28, I31 of spec/95_test_vectors.md. -/
theorem test_step_add_sub :
  steps (start .rv32 0x002081B3 [(1, 0x7fffffff), (2, 1)] [] [] .machine)
    0x1004 [(3, 0x80000000)] [] [] .machine ∧
  steps (start .rv32 0x402081B3 [(1, 0x80000000), (2, 1)] [] [] .machine)
    0x1004 [(3, 0x7fffffff)] [] [] .machine := by decide

/-- Vectors I32, I33, I38, I40 of spec/95_test_vectors.md. -/
theorem test_step_register_shifts :
  steps (start .rv64 0x002091B3 [(1, 5), (2, 0x40)] [] [] .machine)
    0x1004 [(3, 5)] [] [] .machine ∧
  steps (start .rv32 0x002091B3 [(1, 5), (2, 0x21)] [] [] .machine)
    0x1004 [(3, 0xa)] [] [] .machine ∧
  steps (start .rv64 0x0020D1B3 [(1, 0xffffffffffffffff), (2, 0xff)] [] [] .machine)
    0x1004 [(3, 1)] [] [] .machine ∧
  steps (start .rv32 0x4020D1B3 [(1, 0x80000000), (2, 0x25)] [] [] .machine)
    0x1004 [(3, 0xfc000000)] [] [] .machine := by decide

/-- Vectors I34, I35, I36, I37, I41, I42 of spec/95_test_vectors.md. -/
theorem test_step_compare_and_logic :
  steps (start .rv64 0x0020A1B3 [(1, 0xffffffffffffffff), (2, 1)] [] [] .machine)
    0x1004 [(3, 1)] [] [] .machine ∧
  steps (start .rv64 0x0020B1B3 [(1, 0xffffffffffffffff), (2, 1)] [] [] .machine)
    0x1004 [(3, 0)] [] [] .machine ∧
  steps (start .rv64 0x002031B3 [(2, 7)] [] [] .machine)
    0x1004 [(3, 1)] [] [] .machine ∧
  steps (start .rv64 0x0010C1B3 [(1, 0x1234)] [] [] .machine)
    0x1004 [(3, 0)] [] [] .machine ∧
  steps (start .rv64 0x0020E1B3 [(1, 0xf0), (2, 0xf)] [] [] .machine)
    0x1004 [(3, 0xff)] [] [] .machine ∧
  steps (start .rv64 0x0020F1B3 [(1, 0xff00), (2, 0xff0)] [] [] .machine)
    0x1004 [(3, 0xf00)] [] [] .machine := by decide

/-- Vectors I44, I45, I46, I47 of spec/95_test_vectors.md. -/
theorem test_step_word_immediates :
  steps (start .rv64 0x0011009B [(2, 0x7fffffff)] [] [] .machine)
    0x1004 [(1, 0xffffffff80000000)] [] [] .machine ∧
  steps (start .rv64 0x0011109B [(2, 0x40000000)] [] [] .machine)
    0x1004 [(1, 0xffffffff80000000)] [] [] .machine ∧
  steps (start .rv64 0x0011509B [(2, 0xffffffff00000002)] [] [] .machine)
    0x1004 [(1, 1)] [] [] .machine ∧
  steps (start .rv64 0x41F1509B [(2, 0x80000000)] [] [] .machine)
    0x1004 [(1, 0xffffffffffffffff)] [] [] .machine := by decide

/-- Vectors I48, I49, I50, I51, I52 of spec/95_test_vectors.md. -/
theorem test_step_word_registers :
  steps (start .rv64 0x002081BB [(1, 0xffffffff), (2, 1)] [] [] .machine)
    0x1004 [(3, 0)] [] [] .machine ∧
  steps (start .rv64 0x402081BB [(1, 0), (2, 1)] [] [] .machine)
    0x1004 [(3, 0xffffffffffffffff)] [] [] .machine ∧
  steps (start .rv64 0x002091BB [(1, 0x180000001), (2, 0x20)] [] [] .machine)
    0x1004 [(3, 0xffffffff80000001)] [] [] .machine ∧
  steps (start .rv64 0x0020D1BB [(1, 0xffffffffffffffff), (2, 0x1f)] [] [] .machine)
    0x1004 [(3, 1)] [] [] .machine ∧
  steps (start .rv64 0x4020D1BB [(1, 0x80000000), (2, 0x3f)] [] [] .machine)
    0x1004 [(3, 0xffffffffffffffff)] [] [] .machine := by decide

/-- Vectors C1, C2, C7, C8 of spec/95_test_vectors.md. -/
theorem test_step_jumps :
  steps (startAt2000 .rv64 0x008000EF [] [] [] .machine)
    0x2008 [(1, 0x2004)] [] [] .machine ∧
  steps (start .rv64 0xFFDFF06F [] [] [] .machine)
    0xffc [] [] [] .machine ∧
  steps (start .rv64 0x004080E7 [(1, 0x2000)] [] [] .machine)
    0x2004 [(1, 0x1004)] [] [] .machine ∧
  steps (start .rv64 0xFFF100E7 [(2, 0x2000)] [] [] .machine)
    0x1ffe [(1, 0x1004)] [] [] .machine := by decide

/-- Vectors C10, C11, C12 of spec/95_test_vectors.md. -/
theorem test_step_equality_branches :
  steps (start .rv64 0x00208863 [(1, 5), (2, 5)] [] [] .machine)
    0x1010 [] [] [] .machine ∧
  steps (start .rv64 0x00208863 [(1, 5), (2, 6)] [] [] .machine)
    0x1004 [] [] [] .machine ∧
  steps (start .rv64 0xFE2098E3 [(1, 5), (2, 6)] [] [] .machine)
    0xff0 [] [] [] .machine := by decide

/-- Vectors C13, C19, C15, C21 of spec/95_test_vectors.md. -/
theorem test_step_signed_branches :
  steps (start .rv32 0x0020C863 [(1, 0xffffffff), (2, 1)] [] [] .machine)
    0x1010 [] [] [] .machine ∧
  steps (start .rv64 0x0020C863 [(1, 0xffffffff), (2, 1)] [] [] .machine)
    0x1004 [] [] [] .machine ∧
  steps (start .rv32 0x0020D863 [(1, 0xffffffff), (2, 1)] [] [] .machine)
    0x1004 [] [] [] .machine ∧
  steps (start .rv64 0x0010D863 [(1, 3)] [] [] .machine)
    0x1010 [] [] [] .machine := by decide

/-- Vectors C14, C16, C22 of spec/95_test_vectors.md. -/
theorem test_step_unsigned_branches :
  steps (start .rv32 0x0020E863 [(1, 0xffffffff), (2, 1)] [] [] .machine)
    0x1004 [] [] [] .machine ∧
  steps (start .rv32 0x0020F863 [(1, 0xffffffff), (2, 1)] [] [] .machine)
    0x1010 [] [] [] .machine ∧
  steps (startAt2000 .rv32 0x8000F063 [(1, 0)] [] [] .machine)
    0x1000 [] [] [] .machine := by decide

/-- Vectors L1, L3, L4, L5 of spec/95_test_vectors.md. -/
theorem test_step_byte_and_half_loads :
  steps (start .rv64 0x00008183 [(1, 0x1100)] [] [(0x1100, 0xbb), (0x1101, 0xaa), (0x1102, 0x99), (0x1103, 0x88), (0x1104, 0x77), (0x1105, 0x66), (0x1106, 0x55), (0x1107, 0x44)] .machine)
    0x1004 [(3, 0xffffffffffffffbb)] [] [] .machine ∧
  steps (start .rv32 0x0000C183 [(1, 0x1100)] [] [(0x1100, 0xbb), (0x1101, 0xaa), (0x1102, 0x99), (0x1103, 0x88), (0x1104, 0x77), (0x1105, 0x66), (0x1106, 0x55), (0x1107, 0x44)] .machine)
    0x1004 [(3, 0xbb)] [] [] .machine ∧
  steps (start .rv32 0x00209183 [(1, 0x1100)] [] [(0x1100, 0xbb), (0x1101, 0xaa), (0x1102, 0x99), (0x1103, 0x88), (0x1104, 0x77), (0x1105, 0x66), (0x1106, 0x55), (0x1107, 0x44)] .machine)
    0x1004 [(3, 0xffff8899)] [] [] .machine ∧
  steps (start .rv64 0x0010D183 [(1, 0x1100)] [] [(0x1100, 0xbb), (0x1101, 0xaa), (0x1102, 0x99), (0x1103, 0x88), (0x1104, 0x77), (0x1105, 0x66), (0x1106, 0x55), (0x1107, 0x44)] .machine)
    0x1004 [(3, 0x99aa)] [] [] .machine := by decide

/-- Vectors L6, L9, L8, L11 of spec/95_test_vectors.md. -/
theorem test_step_word_and_double_loads :
  steps (start .rv64 0x0000A183 [(1, 0x1100)] [] [(0x1100, 0xbb), (0x1101, 0xaa), (0x1102, 0x99), (0x1103, 0x88), (0x1104, 0x77), (0x1105, 0x66), (0x1106, 0x55), (0x1107, 0x44)] .machine)
    0x1004 [(3, 0xffffffff8899aabb)] [] [] .machine ∧
  steps (start .rv64 0x0030A183 [(1, 0x1100)] [] [(0x1100, 0xbb), (0x1101, 0xaa), (0x1102, 0x99), (0x1103, 0x88), (0x1104, 0x77), (0x1105, 0x66), (0x1106, 0x55), (0x1107, 0x44)] .machine)
    0x1004 [(3, 0x55667788)] [] [] .machine ∧
  steps (start .rv64 0x0000E183 [(1, 0x1100)] [] [(0x1100, 0xbb), (0x1101, 0xaa), (0x1102, 0x99), (0x1103, 0x88), (0x1104, 0x77), (0x1105, 0x66), (0x1106, 0x55), (0x1107, 0x44)] .machine)
    0x1004 [(3, 0x8899aabb)] [] [] .machine ∧
  steps (start .rv64 0xFF80B183 [(1, 0x1108)] [] [(0x1100, 0xbb), (0x1101, 0xaa), (0x1102, 0x99), (0x1103, 0x88), (0x1104, 0x77), (0x1105, 0x66), (0x1106, 0x55), (0x1107, 0x44)] .machine)
    0x1004 [(3, 0x445566778899aabb)] [] [] .machine := by decide

/-- Vectors L21, L22, L23, L24 of spec/95_test_vectors.md. -/
theorem test_step_stores :
  steps (start .rv64 0x00208023 [(1, 0x1100), (2, 0x1234)] [] [] .machine)
    0x1004 [] [] [(0x1100, 0x34)] .machine ∧
  steps (start .rv64 0x002090A3 [(1, 0x1100), (2, 0x1234)] [] [] .machine)
    0x1004 [] [] [(0x1101, 0x34), (0x1102, 0x12)] .machine ∧
  steps (start .rv32 0xFE20AE23 [(1, 0x1104), (2, 0xdeadbeef)] [] [] .machine)
    0x1004 [] [] [(0x1100, 0xef), (0x1101, 0xbe), (0x1102, 0xad), (0x1103, 0xde)] .machine ∧
  steps (start .rv64 0x0020B023 [(1, 0x1100), (2, 0x102030405060708)] [] [] .machine)
    0x1004 [] [] [(0x1100, 8), (0x1101, 7), (0x1102, 6), (0x1103, 5), (0x1104, 4), (0x1105, 3), (0x1106, 2), (0x1107, 1)] .machine := by decide

/-- Vectors L16, L17, L18, L19, L26 of spec/95_test_vectors.md. -/
theorem test_step_accesses_out_of_range :
  stops (start .rv64 0x0000A183 [(1, 0x11fe)] [] [] .machine) (.memOutOfRange 0x11FE 4) ∧
  steps (start .rv64 0x0000C183 [(1, 0x11ff)] [] [] .machine)
    0x1004 [(3, 0)] [] [] .machine ∧
  stops (start .rv64 0x0000C183 [(1, 0x1200)] [] [] .machine) (.memOutOfRange 0x1200 1) ∧
  stops (start .rv64 0xFFF0C183 [(1, 0x1000)] [] [] .machine) (.memOutOfRange 0xFFF 1) ∧
  stops (start .rv64 0x0020A023 [(1, 0x11fd), (2, 0xffffffff)] [] [] .machine) (.memOutOfRange 0x11FD 4) := by decide

/-- Vectors F2, F5 of spec/95_test_vectors.md. -/
theorem test_step_fences :
  steps (start .rv64 0x8330000F [] [] [] .machine)
    0x1004 [] [] [] .machine ∧
  steps (start .rv64 0x0000100F [] [] [] .machine)
    0x1004 [] [] [] .machine := by decide

/-- Vectors S2, S3, S9 of spec/95_test_vectors.md. -/
theorem test_step_csr_swaps :
  steps (start .rv64 0x340090F3 [(1, 0x1234)] [(0x340, 0x55)] [] .machine)
    0x1004 [(1, 0x55)] [(0x340, 0x1234)] [] .machine ∧
  steps (start .rv64 0x34001073 [] [(0x340, 0x55)] [] .machine)
    0x1004 [] [(0x340, 0)] [] .machine ∧
  steps (start .rv64 0x340FD0F3 [] [(0x340, 7)] [] .machine)
    0x1004 [(1, 7)] [(0x340, 0x1f)] [] .machine := by decide

/-- Vectors S4, S5, S10, S11 of spec/95_test_vectors.md. -/
theorem test_step_csr_sets :
  steps (start .rv64 0x305022F3 [(5, 0xdead)] [(0x305, 0x80000100)] [] .machine)
    0x1004 [(5, 0x80000100)] [] [] .machine ∧
  steps (start .rv64 0x340122F3 [] [(0x340, 7)] [] .machine)
    0x1004 [(5, 7)] [] [] .machine ∧
  steps (start .rv64 0x30046073 [] [] [] .machine)
    0x1004 [] [(0x300, 8)] [] .machine ∧
  steps (start .rv64 0xC00062F3 [(5, 9)] [] [] .machine)
    0x1004 [(5, 0)] [] [] .machine := by decide

/-- Vectors S8, S13 of spec/95_test_vectors.md. -/
theorem test_step_csr_clears :
  steps (start .rv64 0x300133F3 [(2, 8)] [(0x300, 0x1888)] [] .machine)
    0x1004 [(7, 0x1888)] [(0x300, 0x1880)] [] .machine ∧
  steps (start .rv64 0x3401F0F3 [] [(0x340, 7)] [] .machine)
    0x1004 [(1, 7)] [(0x340, 4)] [] .machine := by decide

/-- Vectors S6, S17, S19, S14 of spec/95_test_vectors.md. -/
theorem test_step_csr_traps :
  steps (start .rv64 0xC00122F3 [(5, 9)] [] [] .machine)
    0x0 [] [(0x300, 0x1800), (0x341, 0x1000), (0x342, 2)] [] .machine ∧
  steps (start .rv64 0x300022F3 [] [(0x305, 0x800)] [] .supervisor)
    0x800 [] [(0x300, 0x800), (0x341, 0x1000), (0x342, 2)] [] .machine ∧
  steps (start .rv64 0xC0001073 [] [(0x305, 0x800)] [] .machine)
    0x800 [] [(0x300, 0x1800), (0x341, 0x1000), (0x342, 2)] [] .machine ∧
  steps (start .rv32 0x7C0110F3 [(2, 0xabc)] [] [] .machine)
    0x1004 [(1, 0)] [(0x7c0, 0xabc)] [] .machine := by decide

/-- Vectors Y1, Y2, Y5 of spec/95_test_vectors.md. -/
theorem test_step_ecall_ebreak :
  steps (start .rv64 0x00000073 [] [(0x305, 0x800), (0x300, 8)] [] .user)
    0x800 [] [(0x300, 0x80), (0x341, 0x1000), (0x342, 8)] [] .machine ∧
  steps (start .rv64 0x00000073 [] [(0x305, 0x803)] [] .supervisor)
    0x800 [] [(0x300, 0x800), (0x341, 0x1000), (0x342, 9)] [] .machine ∧
  stops (start .rv64 0x00100073 [] [] [] .machine) (.ebreakUnmodelled 0x00100073#32) := by decide

/-- Vectors Y6, Y9, Y12, Y13 of spec/95_test_vectors.md. -/
theorem test_step_returns :
  steps (start .rv64 0x30200073 [] [(0x341, 0x4000), (0x300, 0x20080)] [] .machine)
    0x4000 [] [(0x300, 0x88)] [] .user ∧
  stops (start .rv64 0x30200073 [] [(0x341, 0x4000), (0x300, 0x1000)] [] .machine) (.reservedPrivilege 0x30200073#32) ∧
  steps (start .rv64 0x10200073 [] [(0x141, 0x5000), (0x300, 0x20120)] [] .supervisor)
    0x5000 [] [(0x300, 0x22)] [] .supervisor ∧
  steps (start .rv64 0x10200073 [] [(0x141, 0x5000), (0x300, 2)] [] .machine)
    0x5000 [] [(0x300, 0x20)] [] .user := by decide

/-- Vectors Y10, Y14 of spec/95_test_vectors.md. -/
theorem test_step_illegal_returns :
  steps (start .rv64 0x30200073 [] [(0x341, 0x4000), (0x305, 0x800)] [] .supervisor)
    0x800 [] [(0x300, 0x800), (0x341, 0x1000), (0x342, 2)] [] .machine ∧
  steps (start .rv64 0x10200073 [] [(0x141, 0x5000), (0x305, 0x800)] [] .user)
    0x800 [] [(0x341, 0x1000), (0x342, 2)] [] .machine := by decide

/-- Vectors X1, X9, X10, X20, F3, F6, Y15 of spec/95_test_vectors.md. -/
theorem test_step_rejected_words :
  stops (start .rv64 0x00000000 [] [] [] .machine) (.unsupported 0x00000000#32) ∧
  stops (start .rv64 0x4410D093 [] [] [] .machine) (.unsupported 0x4410D093#32) ∧
  stops (start .rv32 0x4210D093 [] [] [] .machine) (.unsupported 0x4210D093#32) ∧
  stops (start .rv64 0x000000F3 [] [] [] .machine) (.unsupported 0x000000F3#32) ∧
  stops (start .rv64 0x0FF0008F [] [] [] .machine) (.unsupported 0x0FF0008F#32) ∧
  stops (start .rv64 0x0010100F [] [] [] .machine) (.unsupported 0x0010100F#32) ∧
  stops (start .rv64 0x10500073 [] [] [] .machine) (.unsupported 0x10500073#32) := by decide

/-! ### Reset and the loader -/

/-- The reset state: the values rule R340 gives, and memory and the CSR bank in canonical form. -/
theorem test_reset :
    State.reset.hart.getX 31 = 0 ∧ State.reset.hart.pc = 0 ∧ State.reset.hart.csr 0x300 = 0 ∧
    State.reset.hart.priv = .machine ∧ State.reset.hart.mem.wf ∧ State.reset.hart.csrs.wf := by decide

/-- The reset state is a boot with an empty image; an image beyond the capacity creates no state (rules R340, R341). -/
theorem test_boot :
    State.boot (2 ^ 64) 1 (⟨0, 0, [], none⟩ : LoaderValue .rv64) = some State.reset ∧
    State.boot 1 1 (⟨0, 0, [1, 2], none⟩ : LoaderValue .rv64) = none := by decide

/-- The word placed for the next fetch is the one the step runs (NOP: rule R166). -/
theorem test_withFetchWord :
    steps (State.withFetchWord State.reset 32 0x00000013) 4 [] [] [] .machine := by decide

/-- With nothing placed, the first step from reset is `fatal Unsupported(0)` (log entry 8). -/
theorem test_step_from_reset : stops State.reset (.unsupported 0) := by decide

/-! ### Witnesses: a state and operands that meet the hypotheses of each obligation -/

/-- Hypotheses of DecodeOfEncode, at the ends of an offset's and a shift amount's range. -/
theorem witness_DecodeOfEncode :
    WellFormed .rv32 (.beq 1 2 0x1000) = true ∧ WellFormed .rv64 (.jal 31 0xFFFFE) = true ∧
    WellFormed .rv32 (.slli 1 2 31) = true ∧ WellFormed .rv64 (.srai 1 2 63) = true := by decide

/-- Hypotheses of EncodeOfDecode. -/
theorem witness_EncodeOfDecode :
    decodeWord .rv32 0x41F15093#32 = .ok (.srai 1 2 31) ∧ decodeWord .rv64 0x8330000F#32 = .ok (.fence 8 3 3) := by decide

/-- Hypotheses of DecodeAgreesWithOpcodeTable: a word that decodes, and a row that accepts it. -/
theorem witness_DecodeAgreesWithOpcodeTable :
    decodeWord .rv32 0x30200073#32 = .ok .mret ∧
    ∃ row ∈ opcodeTable, row.accepts .rv32 0x30200073#32 = true :=
  ⟨by decide, opcodeTable[60], List.getElem_mem _, by decide⟩

/-- Hypotheses of ImmediateRoundTrip, at both ends of each range. -/
theorem witness_ImmediateRoundTrip :
    (∀ v ∈ [(-2048 : Int), 2047], -2048 ≤ v ∧ v ≤ 2047) ∧
    (∀ v ∈ [(-4096 : Int), 4094], -4096 ≤ v ∧ v ≤ 4094 ∧ v % 2 = 0) ∧
    (∀ v ∈ [(-1048576 : Int), 1048574], -1048576 ≤ v ∧ v ≤ 1048574 ∧ v % 2 = 0) ∧
    (∀ v ∈ [(-2147483648 : Int), 2147479552], -2147483648 ≤ v ∧ v ≤ 2147479552 ∧ v % 4096 = 0) := by decide

/-- Hypotheses of UnrecognisedOpcodesAreUnsupported: FLW's opcode 0x07 and 0x7F. -/
theorem witness_UnrecognisedOpcodesAreUnsupported :
    (0x0000A007#32).toNat % 128 ∉ [0x03, 0x0F, 0x13, 0x17, 0x1B, 0x23, 0x33, 0x37, 0x3B, 0x63, 0x67, 0x6F, 0x73] ∧
    (0xFFFFFFFF#32).toNat % 128 ∉ [0x03, 0x0F, 0x13, 0x17, 0x1B, 0x23, 0x33, 0x37, 0x3B, 0x63, 0x67, 0x6F, 0x73] := by
  decide

/-- Hypotheses of Rv32RejectsRv64Words, clause by clause. -/
theorem witness_Rv32RejectsRv64Words :
    decodeWord .rv32 0x002081B3#32 = .ok (.add 3 1 2) ∧ (0x0010809B#32).toNat % 128 = 0x1B ∧
    (0x002081BB#32).toNat % 128 = 0x3B ∧
    ((0x0000B183#32).toNat % 128 = 0x03 ∧ (0x0000B183#32).toNat / 4096 % 8 = 3) ∧
    ((0x0000E183#32).toNat % 128 = 0x03 ∧ (0x0000E183#32).toNat / 4096 % 8 = 6) ∧
    ((0x0020B023#32).toNat % 128 = 0x23 ∧ (0x0020B023#32).toNat / 4096 % 8 = 3) ∧
    ((0x02011093#32).toNat % 128 = 0x13 ∧ (0x02011093#32).toNat / 4096 % 8 = 1 ∧ (0x02011093#32).toNat / 2 ^ 25 % 2 = 1) ∧
    ((0x4210D093#32).toNat % 128 = 0x13 ∧ (0x4210D093#32).toNat / 4096 % 8 = 5 ∧ (0x4210D093#32).toNat / 2 ^ 25 % 2 = 1) := by
  decide

/-- A hart of width 32 whose pc is the last word of its array, with the word `w` there. -/
def lastWord (w : Nat) : Hart .rv32 := (hartAt .rv32 0x1000 0x200 0x11FC .machine).placeWord w

/-- `lastWord` with a watch on the word's second byte. -/
def watchedWord (w : Nat) : Hart .rv32 :=
  { lastWord w with params := { (lastWord w).params with watch := some ⟨0x11FD, 1⟩ } }

theorem lastWord_fits (w : Nat) : (lastWord w).Fits (lastWord w).pc 4 := by
  show ((0x11FC : Word .rv32) - 0x1000).toNat + 4 ≤ 0x200; decide

theorem lastWord_unwatched (w : Nat) (a : Word .rv32) (n : Nat) : ¬ (lastWord w).Watches a n :=
  Hart.not_watches_of_none rfl a n

/-- Hypotheses of StepRunsTheDecodedInstruction, with an instruction that completes and one that stops. -/
theorem witness_StepRunsTheDecodedInstruction :
    ((lastWord 0x008000EF).pc.toNat % 4 = 0 ∧ (lastWord 0x008000EF).Fits (lastWord 0x008000EF).pc 4 ∧
      ¬ (lastWord 0x008000EF).Watches (lastWord 0x008000EF).pc 4 ∧
      decodeWord .rv32 (BitVec.ofNat 32 ((lastWord 0x008000EF).bytesValue 0x1FC 4)) = .ok (.jal 1 8) ∧
      ((lastWord 0x008000EF).pc - (lastWord 0x008000EF).params.base).toNat = 0x1FC ∧
      ∃ t, exec (.jal 1 8) ⟨.rv32, lastWord 0x008000EF⟩ = .next ⟨.rv32, t⟩) ∧
    decodeWord .rv32 (BitVec.ofNat 32 ((lastWord 0x00100073).bytesValue 0x1FC 4)) = .ok .ebreak ∧
    ∃ f, exec .ebreak ⟨.rv32, lastWord 0x00100073⟩ = .fault f :=
  ⟨⟨by decide, lastWord_fits _, lastWord_unwatched _ _ _, by decide, by decide, _, rfl⟩, by decide, _, rfl⟩

/-- Hypotheses of StepStopsBeforeExecuting, clause by clause, at the least misaligned pc and one word past the end. -/
theorem witness_StepStopsBeforeExecuting :
    (hartAt .rv64 0x1000 0x200 0x1001 .machine).pc.toNat % 4 ≠ 0 ∧
    ((hartAt .rv64 0x1000 0x200 0x1200 .machine).pc.toNat % 4 = 0 ∧
      ¬ (hartAt .rv64 0x1000 0x200 0x1200 .machine).Fits (hartAt .rv64 0x1000 0x200 0x1200 .machine).pc 4) ∧
    ((lastWord 0).pc.toNat % 4 = 0 ∧ (lastWord 0).Fits (lastWord 0).pc 4 ∧ ¬ (lastWord 0).Watches (lastWord 0).pc 4 ∧
      decodeWord .rv32 (BitVec.ofNat 32 ((lastWord 0).bytesValue 0x1FC 4)) = .error (.unsupported 0)) :=
  ⟨by decide, ⟨by decide, by show ¬ (_ : Nat) ≤ _; decide⟩, by decide, lastWord_fits _, lastWord_unwatched _ _ _, by decide⟩

/-- Hypotheses of WatchedFetchAsksTheHost. -/
theorem witness_WatchedFetchAsksTheHost :
    (watchedWord 0x13).pc.toNat % 4 = 0 ∧ (watchedWord 0x13).Fits (watchedWord 0x13).pc 4 ∧
    (watchedWord 0x13).Watches (watchedWord 0x13).pc 4 :=
  ⟨by decide, by show (_ : Nat) ≤ _; decide, ⟨0x11FD, 1⟩, rfl, 0x11FD, by decide, by decide, by decide, by decide⟩

/-- The start state of the step's witnesses: `addi x1, x0, 5` at pc. -/
def atAddi : State := start .rv64 0x00500093 [] [] [] .machine

/-- It meets the invariant: hypotheses of StepKeepsTheInvariant with `witness_step`. -/
theorem witness_StepKeepsTheInvariant : atAddi.Inv where
  memory := by decide
  memoryBound := by decide
  csrs := by decide
  csrsBound := by decide
  readOnlyZero := fun _ _ => rfl
  flags := by decide

/-- Hypotheses of FlagsAreClearAfterEveryStep, StepKeepsTheInvariant and StepKeepsTheParameters: a step that completes. -/
theorem witness_step : ∃ t, step atAddi = .next t := ⟨_, rfl⟩

/-- Hypotheses of BootMeetsTheInvariant and BootIsTheResetState: an image that fills the array, and one that is a byte too
long. -/
theorem witness_boot :
    (∃ s, State.boot 2 1 (⟨0x1000, 0x1000, [1, 2], some 0x1001⟩ : LoaderValue .rv64) = some s) ∧
    State.boot 1 1 (⟨0x1000, 0x1000, [1, 2], none⟩ : LoaderValue .rv64) = none := ⟨⟨_, rfl⟩, by decide⟩

/-- Hypotheses of FatalStopsLeaveTheStateUnchanged. -/
theorem witness_FatalStopsLeaveTheStateUnchanged : ∃ f, step State.reset = .fault f ∧ f.isHalted = false := ⟨_, rfl, rfl⟩

/-- Hypotheses of OnlySystemInstructionsChangePrivilege, OnlyStoresChangeMemory and PrivilegeGatesOnlySystemInstructions: an
instruction of neither class that completes, and one that stops. -/
theorem witness_classes :
    (Instr.addi 1 0 5).isSystem = false ∧ (Instr.addi 1 0 5).isStore = false ∧ (lastWord 0).params.watch = none ∧
    (∃ t, exec (.addi 1 0 5) ⟨.rv32, lastWord 0⟩ = .next ⟨.rv32, t⟩) ∧
    ∃ f, exec (.lw 1 0 0) ⟨.rv32, lastWord 0⟩ = .fault f := ⟨rfl, rfl, rfl, ⟨_, rfl⟩, _, rfl⟩

/-- Hypotheses of OnlyCsrInstructionsWriteOtherCsrs: sepc, and an instruction that writes another cell. -/
theorem witness_OnlyCsrInstructionsWriteOtherCsrs :
    (0x141#12 ≠ 0x300#12 ∧ 0x141#12 ≠ 0x341#12 ∧ 0x141#12 ≠ 0x342#12) ∧
    (Instr.csrrw 1 0x340 2).csrWritten ≠ some 0x141#12 ∧
    ∃ t, exec (.csrrw 1 0x340 2) ⟨.rv32, lastWord 0⟩ = .next ⟨.rv32, t⟩ := ⟨by decide, by decide, _, rfl⟩

/-- Hypotheses of ShiftImmediates, at the largest amounts. -/
theorem witness_ShiftImmediates :
    (31#6).toNat < Xlen.rv32.bits ∧ (63#6).toNat < Xlen.rv64.bits ∧ (0#6).toNat < Xlen.rv32.bits := by decide

/-- Hypotheses of Rv64OperationsStopAtRv32. -/
theorem witness_Rv64OperationsStopAtRv32 :
    (Instr.addw 3 1 2).needsRv64 = true ∧ 32 ≤ (32#6).toNat ∧ 32 ≤ (63#6).toNat := by decide

/-- A hart with x1 = 0x11F8: an access of 8 bytes there ends where the array ends. -/
def atEnd (xl : Xlen) : Hart xl := withCells (hartAt xl 0x1000 0x200 0x1000 .machine) [(1, 0x11F8), (2, 0x8899AABB)] [] []

/-- Hypotheses of SignedLoads, UnsignedLoads and StoresWriteExactlyTheirBytes, clause by clause, at the last access that
fits. -/
theorem witness_accesses :
    ((atEnd .rv32).getX 1 + (7#12).signExtend 32 = 0x11FF ∧ (atEnd .rv32).Fits 0x11FF 1) ∧
    ((atEnd .rv32).getX 1 + (6#12).signExtend 32 = 0x11FE ∧ (atEnd .rv32).Fits 0x11FE 2) ∧
    ((atEnd .rv32).getX 1 + (4#12).signExtend 32 = 0x11FC ∧ (atEnd .rv32).Fits 0x11FC 4) ∧
    ((atEnd .rv64).getX 1 + (4#12).signExtend 64 = 0x11FC ∧ (atEnd .rv64).Fits 0x11FC 4) ∧
    ((atEnd .rv64).getX 1 + (0#12).signExtend 64 = 0x11F8 ∧ (atEnd .rv64).Fits 0x11F8 8) ∧
    (∀ xl a n, ¬ (atEnd xl).Watches a n) := by
  refine ⟨⟨by decide, ?_⟩, ⟨by decide, ?_⟩, ⟨by decide, ?_⟩, ⟨by decide, ?_⟩, ⟨by decide, ?_⟩, ?_⟩
  · show (_ : Nat) ≤ _; decide
  · show (_ : Nat) ≤ _; decide
  · show (_ : Nat) ≤ _; decide
  · show (_ : Nat) ≤ _; decide
  · show (_ : Nat) ≤ _; decide
  · intro xl; exact Hart.not_watches_of_none (by cases xl <;> decide)

/-- Hypotheses of AccessOutsideTheArrayStops, clause by clause, one byte past the last access that fits. -/
theorem witness_AccessOutsideTheArrayStops :
    ((atEnd .rv32).getX 1 + (8#12).signExtend 32 = 0x1200 ∧ ¬ (atEnd .rv32).Fits 0x1200 1) ∧
    ((atEnd .rv32).getX 1 + (7#12).signExtend 32 = 0x11FF ∧ ¬ (atEnd .rv32).Fits 0x11FF 2) ∧
    ((atEnd .rv32).getX 1 + (5#12).signExtend 32 = 0x11FD ∧ ¬ (atEnd .rv32).Fits 0x11FD 4) ∧
    ((atEnd .rv64).getX 1 + (5#12).signExtend 64 = 0x11FD ∧ ¬ (atEnd .rv64).Fits 0x11FD 4) ∧
    ((atEnd .rv64).getX 1 + (1#12).signExtend 64 = 0x11F9 ∧ ¬ (atEnd .rv64).Fits 0x11F9 8) := by
  refine ⟨⟨by decide, ?_⟩, ⟨by decide, ?_⟩, ⟨by decide, ?_⟩, ⟨by decide, ?_⟩, ⟨by decide, ?_⟩⟩
  · show ¬ (_ : Nat) ≤ _; decide
  · show ¬ (_ : Nat) ≤ _; decide
  · show ¬ (_ : Nat) ≤ _; decide
  · show ¬ (_ : Nat) ≤ _; decide
  · show ¬ (_ : Nat) ≤ _; decide

/-- A hart of width 64 with a watch on the array's last byte, x1 below the last eight. -/
def watchedEnd : Hart .rv64 :=
  { atEnd .rv64 with params := { (atEnd .rv64).params with watch := some ⟨0x11FF, 1⟩ } }

/-- Hypotheses of WatchedAccessAsksTheHost at each width, for the last access the array holds, whose last byte is watched. -/
theorem witness_WatchedAccessAsksTheHost :
    (watchedEnd.getX 1 + (7#12).signExtend 64 = 0x11FF ∧ watchedEnd.Fits 0x11FF 1 ∧ watchedEnd.Watches 0x11FF 1) ∧
    (watchedEnd.getX 1 + (6#12).signExtend 64 = 0x11FE ∧ watchedEnd.Fits 0x11FE 2 ∧ watchedEnd.Watches 0x11FE 2) ∧
    (watchedEnd.getX 1 + (4#12).signExtend 64 = 0x11FC ∧ watchedEnd.Fits 0x11FC 4 ∧ watchedEnd.Watches 0x11FC 4) ∧
    (watchedEnd.getX 1 + (0#12).signExtend 64 = 0x11F8 ∧ watchedEnd.Fits 0x11F8 8 ∧ watchedEnd.Watches 0x11F8 8) := by
  refine ⟨⟨by decide, ?_, ?_⟩, ⟨by decide, ?_, ?_⟩, ⟨by decide, ?_, ?_⟩, ⟨by decide, ?_, ?_⟩⟩
  · show (_ : Nat) ≤ _; decide
  · exact ⟨⟨0x11FF, 1⟩, by decide, 0x11FF, by decide, by decide, by decide, by decide⟩
  · show (_ : Nat) ≤ _; decide
  · exact ⟨⟨0x11FF, 1⟩, by decide, 0x11FF, by decide, by decide, by decide, by decide⟩
  · show (_ : Nat) ≤ _; decide
  · exact ⟨⟨0x11FF, 1⟩, by decide, 0x11FF, by decide, by decide, by decide, by decide⟩
  · show (_ : Nat) ≤ _; decide
  · exact ⟨⟨0x11FF, 1⟩, by decide, 0x11FF, by decide, by decide, by decide, by decide⟩

/-- Hypotheses of StoreThenLoadRoundTrip: a store that completes, and LBU's base one, two and three bytes on. -/
theorem witness_StoreThenLoadRoundTrip :
    (atEnd .rv64).params.watch = none ∧ (∃ t, exec (.sw 2 1 4) ⟨.rv64, atEnd .rv64⟩ = .next ⟨.rv64, t⟩) ∧
    (∀ k ∈ [0, 1, 2, 3], (atEnd .rv64).getX 1 + (BitVec.ofNat 12 (4 + k)).signExtend 64 =
      (atEnd .rv64).getX 1 + (4#12).signExtend 64 + BitVec.ofNat 64 k) ∧
    ((atEnd .rv64).getX 1 + (4#12).signExtend 64 - (atEnd .rv64).params.base).toNat + 4 ≤ 2 ^ 64 :=
  ⟨by decide, ⟨_, rfl⟩, by decide, by decide⟩

/-- A hart about to store x2 over its next instruction (vector L27). -/
def beforeSelfStore : Hart .rv64 := withCells (hartAt .rv64 0x1000 0x200 0x1000 .machine) [(1, 0x1000), (2, 0x13)] [] []

/-- Hypotheses of StoreIsSeenByTheNextFetch. -/
theorem witness_StoreIsSeenByTheNextFetch :
    beforeSelfStore.params.watch = none ∧ beforeSelfStore.pc.toNat % 4 = 0 ∧
    beforeSelfStore.getX 1 + (4#12).signExtend 64 = beforeSelfStore.pc + 4 ∧
    (∃ t, exec (.sw 2 1 4) ⟨.rv64, beforeSelfStore⟩ = .next ⟨.rv64, t⟩) ∧
    decodeWord .rv64 ((beforeSelfStore.getX 2).extractLsb' 0 32) = .ok (.addi 0 0 0) :=
  ⟨by decide, by decide, by decide, ⟨_, rfl⟩, by decide⟩

/-- Hypotheses of FencesChangeNothing and of SelfJumpStepsToItself. -/
theorem witness_fence_and_selfJump :
    (lastWord 0x0FF0000F).pc.toNat % 4 = 0 ∧ (lastWord 0x0FF0000F).Fits (lastWord 0x0FF0000F).pc 4 ∧
    ¬ (lastWord 0x0FF0000F).Watches (lastWord 0x0FF0000F).pc 4 ∧
    decodeWord .rv32 (BitVec.ofNat 32 ((lastWord 0x0FF0000F).bytesValue 0x1FC 4)) = .ok (.fence 0 15 15) ∧
    (lastWord 0x0FF0000F).branchTaken = false ∧ (lastWord 0x0FF0000F).jumpTaken = false ∧
    (lastWord 0x0FF0000F).trapTaken = false ∧ (lastWord 0x6F).bytesValue 0x1FC 4 = 0x0000006F :=
  ⟨by decide, lastWord_fits _, lastWord_unwatched _ _ _, by decide, rfl, rfl, rfl, by decide⟩

/-- Hypotheses of CsrSwap, CsrSetAndClear and CsrPureRead, at the highest writable and the lowest read-only address. -/
theorem witness_csr :
    (CsrAccessible .machine 0xBFF#12 ∧ ¬ CsrReadOnly 0xBFF#12) ∧ (CsrAccessible .user 0x000#12 ∧ ¬ CsrReadOnly 0x000#12) ∧
    (1 : BitVec 5) ≠ 0 ∧ CsrAccessible .user 0xC00#12 ∧ CsrAccessible .supervisor 0x141#12 := by
  unfold CsrAccessible CsrReadOnly; decide

/-- Hypotheses of IllegalCsrAccessTraps, clause by clause. -/
theorem witness_IllegalCsrAccessTraps :
    ¬ CsrAccessible .user 0x141#12 ∧ ¬ CsrAccessible .supervisor 0x600#12 ∧ ¬ CsrAccessible .supervisor 0x300#12 ∧
    CsrReadOnly 0xC00#12 ∧ CsrReadOnly 0xFFF#12 := by
  unfold CsrAccessible CsrReadOnly; decide

/-- Hypotheses of MachineReturn for each level, and of MachineReturnToReservedLevelStops. -/
theorem witness_returns :
    (∀ c ∈ [(Priv.user, 0), (.supervisor, 0x800), (.machine, 0x1800)],
      (withCells (hartAt .rv64 0 4 0 .machine) [] [(0x300, c.2)] []).priv = .machine ∧
      c.1.bits.toNat = ((withCells (hartAt .rv64 0 4 0 .machine) [] [(0x300, c.2)] []).csr 0x300#12).toNat / 2 ^ 11 % 4) ∧
    ((withCells (hartAt .rv64 0 4 0 .machine) [] [(0x300, 0x1000)] []).csr 0x300#12).toNat / 2 ^ 11 % 4 = 2 := by decide

/-- Hypotheses of SupervisorReturn and IllegalReturnTraps. -/
theorem witness_levels :
    (hartAt .rv64 0 4 0 .supervisor).priv ≠ .user ∧ (hartAt .rv64 0 4 0 .machine).priv ≠ .user ∧
    (hartAt .rv64 0 4 0 .supervisor).priv ≠ .machine ∧ (hartAt .rv64 0 4 0 .user).priv = .user := by decide

/-- Hypotheses of ReturnUndoesEnvironmentCall. -/
theorem witness_ReturnUndoesEnvironmentCall :
    ∃ t, exec .ecall ⟨.rv64, hartAt .rv64 0 4 0 .user⟩ = .next ⟨.rv64, t⟩ := ⟨_, rfl⟩

end Sys2Proof.Tests
end

section
/-! PROOFS. The decoder, the encoder and the opcode table (30_encoding.md): what decodes encodes back to its word, and the
table and the decoder agree on every word. -/

namespace Sys2Proof

variable {xl : Xlen} {w : InstrWord} {i : Instr}

/-! ### Words rebuilt from the fields the decoder tested (rules R112 to R117) -/

theorem encodeR_of_fields {f7 : BitVec 7} {f3 : BitVec 3} {op : BitVec 7} (hop : fieldOpcode w = op)
    (hf : fieldFunct3 w = f3 ∧ fieldFunct7 w = f7) :
    encodeR f7 (fieldRs2 w) (fieldRs1 w) f3 (fieldRd w) op = w := by
  rw [← hop, ← hf.1, ← hf.2, encodeR_fields]

theorem encodeI_of_fields {f3 : BitVec 3} {op : BitVec 7} (hop : fieldOpcode w = op) (hf : fieldFunct3 w = f3) :
    encodeI (fieldImmI w) (fieldRs1 w) f3 (fieldRd w) op = w := by
  rw [← hop, ← hf, encodeI_fields]

theorem encodeS_of_fields {f3 : BitVec 3} (hop : fieldOpcode w = 0x23#7) (hf : fieldFunct3 w = f3) :
    encodeS (fieldImmS w) (fieldRs2 w) (fieldRs1 w) f3 = w := by
  rw [← hf, encodeS_fields w hop]

theorem encodeB_of_fields {f3 : BitVec 3} (hop : fieldOpcode w = 0x63#7) (hf : fieldFunct3 w = f3) :
    encodeB (fieldImmB w) (fieldRs2 w) (fieldRs1 w) f3 = w := by
  rw [← hf, encodeB_fields w hop]

theorem encodeU_of_fields {op : BitVec 7} (hop : fieldOpcode w = op) :
    encodeU (fieldImmU w) (fieldRd w) op = w := by
  rw [← hop, encodeU_fields]

/-- A shift-immediate's word that passes `shiftFunct` has an amount below XLEN and is rebuilt from its fields (rules R113,
R139). -/
theorem encodeShift_of_fields {f3 : BitVec 3} {f6 : BitVec 6} (hop : fieldOpcode w = 0x13#7)
    (hf : fieldFunct3 w = f3 ∧ shiftFunct xl w f6 = true) :
    shamtFits xl (fieldShamt w) = true ∧ encodeShift f6 (fieldShamt w) (fieldRs1 w) f3 (fieldRd w) = w := by
  obtain ⟨hf3, hs⟩ := hf
  simp only [shiftFunct, Bool.and_eq_true, beq_iff_eq, Bool.or_eq_true, Bool.not_eq_true'] at hs
  exact ⟨shamtFits_fieldShamt hs.2, by rw [← hf3, ← hs.1, encodeShift_fields w hop]⟩

/-- FENCE's three fields are the four-bit parts of imm_I (rule R137). -/
theorem append_fence_fields (w : InstrWord) :
    w.extractLsb' 28 4 ++ w.extractLsb' 24 4 ++ w.extractLsb' 20 4 = fieldImmI w := by
  apply BitVec.eq_of_getLsbD_eq
  intro j hj
  simp only [fieldImmI, BitVec.getLsbD_append, BitVec.getLsbD_extractLsb']
  interval_cases j <;> simp

/-! ### What decodes is well formed and encodes back to its word, group by group (rules R126 to R139)

A group's decoder is a chain of conditionals; each proof takes the branches in order, those of one format together. -/

theorem encode_of_decodeLoad (hop : fieldOpcode w = 0x03#7) (h : decodeLoad xl w = some i) :
    WellFormed xl i = true ∧ encode i = w := by
  simp only [decodeLoad] at h
  iterate 3
    obtain ⟨hf, h⟩ | ⟨-, h⟩ := ite_eq_iff.1 h
    · obtain rfl := Option.some.inj h
      exact ⟨rfl, encodeI_of_fields hop hf⟩
  obtain ⟨⟨hf, hxl⟩, h⟩ | ⟨-, h⟩ := ite_eq_iff.1 h
  · obtain rfl := Option.some.inj h
    subst hxl
    exact ⟨rfl, encodeI_of_fields hop hf⟩
  iterate 2
    obtain ⟨hf, h⟩ | ⟨-, h⟩ := ite_eq_iff.1 h
    · obtain rfl := Option.some.inj h
      exact ⟨rfl, encodeI_of_fields hop hf⟩
  obtain ⟨⟨hf, hxl⟩, h⟩ | ⟨-, h⟩ := ite_eq_iff.1 h
  · obtain rfl := Option.some.inj h
    subst hxl
    exact ⟨rfl, encodeI_of_fields hop hf⟩
  cases h

theorem encode_of_decodeStore (hop : fieldOpcode w = 0x23#7) (h : decodeStore xl w = some i) :
    WellFormed xl i = true ∧ encode i = w := by
  simp only [decodeStore] at h
  iterate 3
    obtain ⟨hf, h⟩ | ⟨-, h⟩ := ite_eq_iff.1 h
    · obtain rfl := Option.some.inj h
      exact ⟨rfl, encodeS_of_fields hop hf⟩
  obtain ⟨⟨hf, hxl⟩, h⟩ | ⟨-, h⟩ := ite_eq_iff.1 h
  · obtain rfl := Option.some.inj h
    subst hxl
    exact ⟨rfl, encodeS_of_fields hop hf⟩
  cases h

theorem encode_of_decodeOpImm (hop : fieldOpcode w = 0x13#7) (h : decodeOpImm xl w = some i) :
    WellFormed xl i = true ∧ encode i = w := by
  simp only [decodeOpImm] at h
  iterate 6
    obtain ⟨hf, h⟩ | ⟨-, h⟩ := ite_eq_iff.1 h
    · obtain rfl := Option.some.inj h
      exact ⟨rfl, encodeI_of_fields hop hf⟩
  iterate 3
    obtain ⟨hf, h⟩ | ⟨-, h⟩ := ite_eq_iff.1 h
    · obtain rfl := Option.some.inj h
      exact encodeShift_of_fields hop hf
  cases h

theorem encode_of_decodeOp (hop : fieldOpcode w = 0x33#7) (h : decodeOp w = some i) :
    WellFormed xl i = true ∧ encode i = w := by
  simp only [decodeOp] at h
  iterate 10
    obtain ⟨hf, h⟩ | ⟨-, h⟩ := ite_eq_iff.1 h
    · obtain rfl := Option.some.inj h
      exact ⟨rfl, encodeR_of_fields hop hf⟩
  cases h

theorem encode_of_decodeOpImm32 (hop : fieldOpcode w = 0x1B#7 ∧ xl = .rv64) (h : decodeOpImm32 w = some i) :
    WellFormed xl i = true ∧ encode i = w := by
  obtain ⟨hop, rfl⟩ := hop
  simp only [decodeOpImm32] at h
  obtain ⟨hf, h⟩ | ⟨-, h⟩ := ite_eq_iff.1 h
  · obtain rfl := Option.some.inj h
    exact ⟨rfl, encodeI_of_fields hop hf⟩
  iterate 3
    obtain ⟨hf, h⟩ | ⟨-, h⟩ := ite_eq_iff.1 h
    · obtain rfl := Option.some.inj h
      exact ⟨rfl, encodeR_of_fields hop hf⟩
  cases h

theorem encode_of_decodeOp32 (hop : fieldOpcode w = 0x3B#7 ∧ xl = .rv64) (h : decodeOp32 w = some i) :
    WellFormed xl i = true ∧ encode i = w := by
  obtain ⟨hop, rfl⟩ := hop
  simp only [decodeOp32] at h
  iterate 5
    obtain ⟨hf, h⟩ | ⟨-, h⟩ := ite_eq_iff.1 h
    · obtain rfl := Option.some.inj h
      exact ⟨rfl, encodeR_of_fields hop hf⟩
  cases h

theorem encode_of_decodeBranch (hop : fieldOpcode w = 0x63#7) (h : decodeBranch w = some i) :
    WellFormed xl i = true ∧ encode i = w := by
  simp only [decodeBranch] at h
  iterate 6
    obtain ⟨hf, h⟩ | ⟨-, h⟩ := ite_eq_iff.1 h
    · obtain rfl := Option.some.inj h
      exact ⟨evenOffset_fieldImmB w, encodeB_of_fields hop hf⟩
  cases h

theorem encode_of_decodeJalr (hop : fieldOpcode w = 0x67#7) (h : decodeJalr w = some i) :
    WellFormed xl i = true ∧ encode i = w := by
  simp only [decodeJalr] at h
  split_ifs at h with hf
  obtain rfl := Option.some.inj h
  exact ⟨rfl, encodeI_of_fields hop hf⟩

theorem encode_of_decodeSystem (hop : fieldOpcode w = 0x73#7) (h : decodeSystem w = some i) :
    WellFormed xl i = true ∧ encode i = w := by
  simp only [decodeSystem] at h
  iterate 4
    obtain ⟨hw, h⟩ | ⟨-, h⟩ := ite_eq_iff.1 h
    · obtain rfl := Option.some.inj h
      exact ⟨rfl, hw.symm⟩
  iterate 6
    obtain ⟨hf, h⟩ | ⟨-, h⟩ := ite_eq_iff.1 h
    · obtain rfl := Option.some.inj h
      exact ⟨rfl, encodeI_of_fields hop hf⟩
  cases h

theorem encode_of_decodeMiscMem (hop : fieldOpcode w = 0x0F#7) (h : decodeMiscMem w = some i) :
    WellFormed xl i = true ∧ encode i = w := by
  simp only [decodeMiscMem] at h
  split_ifs at h with hfence hfenceI <;> obtain rfl := Option.some.inj h
  · obtain ⟨hf, hrd, hrs1⟩ := hfence
    refine ⟨rfl, ?_⟩
    simpa [encode, append_fence_fields, hrd, hrs1] using encodeI_of_fields hop hf
  · exact ⟨rfl, hfenceI.symm⟩

/-- By the branches of the decoder's choice by opcode, in its order. -/
theorem encode_of_decodeOption (h : decodeOption xl w = some i) : WellFormed xl i = true ∧ encode i = w := by
  simp only [decodeOption] at h
  obtain ⟨hop, h⟩ | ⟨-, h⟩ := ite_eq_iff.1 h
  · exact encode_of_decodeLoad hop h
  obtain ⟨hop, h⟩ | ⟨-, h⟩ := ite_eq_iff.1 h
  · exact encode_of_decodeMiscMem hop h
  obtain ⟨hop, h⟩ | ⟨-, h⟩ := ite_eq_iff.1 h
  · exact encode_of_decodeOpImm hop h
  obtain ⟨hop, h⟩ | ⟨-, h⟩ := ite_eq_iff.1 h
  · obtain rfl := Option.some.inj h
    exact ⟨rfl, encodeU_of_fields hop⟩
  obtain ⟨hop, h⟩ | ⟨-, h⟩ := ite_eq_iff.1 h
  · exact encode_of_decodeOpImm32 hop h
  obtain ⟨hop, h⟩ | ⟨-, h⟩ := ite_eq_iff.1 h
  · exact encode_of_decodeStore hop h
  obtain ⟨hop, h⟩ | ⟨-, h⟩ := ite_eq_iff.1 h
  · exact encode_of_decodeOp hop h
  obtain ⟨hop, h⟩ | ⟨-, h⟩ := ite_eq_iff.1 h
  · obtain rfl := Option.some.inj h
    exact ⟨rfl, encodeU_of_fields hop⟩
  obtain ⟨hop, h⟩ | ⟨-, h⟩ := ite_eq_iff.1 h
  · exact encode_of_decodeOp32 hop h
  obtain ⟨hop, h⟩ | ⟨-, h⟩ := ite_eq_iff.1 h
  · exact encode_of_decodeBranch hop h
  obtain ⟨hop, h⟩ | ⟨-, h⟩ := ite_eq_iff.1 h
  · exact encode_of_decodeJalr hop h
  obtain ⟨hop, h⟩ | ⟨-, h⟩ := ite_eq_iff.1 h
  · obtain rfl := Option.some.inj h
    exact ⟨evenOffset_fieldImmJ w, encodeJ_fields w hop⟩
  obtain ⟨hop, h⟩ | ⟨-, h⟩ := ite_eq_iff.1 h
  · exact encode_of_decodeSystem hop h
  · cases h

theorem decodeWord_eq_ok_iff : decodeWord xl w = .ok i ↔ decodeOption xl w = some i := by
  unfold decodeWord
  cases decodeOption xl w <;> simp

theorem encode_of_decodeWord (h : decodeWord xl w = .ok i) : WellFormed xl i = true ∧ encode i = w :=
  encode_of_decodeOption (decodeWord_eq_ok_iff.1 h)

end Sys2Proof

namespace Sys2Proof.Laws.TableRow

/-- The row laws of all instructions as one: every constructor has its own. -/
theorem exists_row (i : Instr) : Statement i := by
  cases i <;> simp only [lui, auipc, jal, jalr, beq, bne, blt, bge, bltu, bgeu, lb, lh, lw, ld, lbu, lhu, lwu, sb, sh, sw,
    sd, addi, slti, sltiu, xori, ori, andi, slli, srli, srai, add, sub, sll, slt, sltu, xor, srl, sra, or, and, addiw, slliw,
    srliw, sraiw, addw, subw, sllw, srlw, sraw, fence, fenceI, csrrw, csrrs, csrrc, csrrwi, csrrsi, csrrci, ecall, ebreak,
    sret, mret]

end Sys2Proof.Laws.TableRow

namespace Sys2Proof

variable {xl : Xlen} {w : InstrWord} {row : Row} {op : BitVec 7} {m : InstrWord}

/-! ### The group an opcode selects (rule R126) -/

theorem decodeOption_load (h : fieldOpcode w = 0x03#7) : decodeOption xl w = decodeLoad xl w := by
  simp [decodeOption, h]

theorem decodeOption_miscMem (h : fieldOpcode w = 0x0F#7) : decodeOption xl w = decodeMiscMem w := by
  simp [decodeOption, h]

theorem decodeOption_opImm (h : fieldOpcode w = 0x13#7) : decodeOption xl w = decodeOpImm xl w := by
  simp [decodeOption, h]

theorem decodeOption_opImm32 (h : fieldOpcode w = 0x1B#7) : decodeOption .rv64 w = decodeOpImm32 w := by
  simp [decodeOption, h]

theorem decodeOption_store (h : fieldOpcode w = 0x23#7) : decodeOption xl w = decodeStore xl w := by
  simp [decodeOption, h]

theorem decodeOption_op (h : fieldOpcode w = 0x33#7) : decodeOption xl w = decodeOp w := by
  simp [decodeOption, h]

theorem decodeOption_op32 (h : fieldOpcode w = 0x3B#7) : decodeOption .rv64 w = decodeOp32 w := by
  simp [decodeOption, h]

theorem decodeOption_branch (h : fieldOpcode w = 0x63#7) : decodeOption xl w = decodeBranch w := by
  simp [decodeOption, h]

theorem decodeOption_jalr (h : fieldOpcode w = 0x67#7) : decodeOption xl w = decodeJalr w := by
  simp [decodeOption, h]

theorem decodeOption_system (h : fieldOpcode w = 0x73#7) : decodeOption xl w = decodeSystem w := by
  simp [decodeOption, h]

/-! ### An accepted word has the row's pattern in the fields that the row tests -/

/-- The row belongs to opcode `op` and has the one mask `m` at both widths, which covers its pattern. -/
def Row.tests (op : BitVec 7) (m : InstrWord) (r : Row) : Bool :=
  fieldOpcode r.pattern = op ∧ r.mask = m ∧ r.maskRv32 = m ∧ r.pattern &&& m = r.pattern

/-- A row that is RV64 only accepts nothing at XLEN = 32 (rule R139). -/
theorem Row.rv64_of_accepts (h : row.accepts xl w = true) (hr : row.rv64Only = true) : xl = .rv64 := by
  cases xl
  · simp [accepts, hr] at h
  · rfl

theorem Row.masked_of_accepts (hm : row.mask = m) (hm32 : row.maskRv32 = m) (h : row.accepts xl w = true) :
    w &&& m = row.pattern := by
  cases xl <;> simp_all [accepts]

theorem Row.opcode_of_accepts (ht : row.tests op 0x0000007F#32 = true) (h : row.accepts xl w = true) :
    fieldOpcode w = op := by
  obtain ⟨hop, hm, hm32, hp⟩ := of_decide_eq_true ht
  exact hop ▸ (mask_opcode w _ hp).1 (masked_of_accepts hm hm32 h)

theorem Row.funct3_of_accepts (ht : row.tests op 0x0000707F#32 = true) (h : row.accepts xl w = true) :
    fieldOpcode w = op ∧ fieldFunct3 w = fieldFunct3 row.pattern := by
  obtain ⟨hop, hm, hm32, hp⟩ := of_decide_eq_true ht
  exact hop ▸ (mask_funct3 w _ hp).1 (masked_of_accepts hm hm32 h)

theorem Row.funct7_of_accepts (ht : row.tests op 0xFE00707F#32 = true) (h : row.accepts xl w = true) :
    fieldOpcode w = op ∧ fieldFunct3 w = fieldFunct3 row.pattern ∧ fieldFunct7 w = fieldFunct7 row.pattern := by
  obtain ⟨hop, hm, hm32, hp⟩ := of_decide_eq_true ht
  exact hop ▸ (mask_funct7 w _ hp).1 (masked_of_accepts hm hm32 h)

theorem Row.low20_of_accepts (ht : row.tests op 0x000FFFFF#32 = true) (h : row.accepts xl w = true) :
    fieldOpcode w = op ∧ fieldRd w = fieldRd row.pattern ∧ fieldFunct3 w = fieldFunct3 row.pattern ∧
      fieldRs1 w = fieldRs1 row.pattern := by
  obtain ⟨hop, hm, hm32, hp⟩ := of_decide_eq_true ht
  exact hop ▸ (mask_low20 w _ hp).1 (masked_of_accepts hm hm32 h)

theorem Row.word_of_accepts (ht : row.tests op 0xFFFFFFFF#32 = true) (h : row.accepts xl w = true) :
    w = row.pattern := by
  obtain ⟨-, hm, hm32, -⟩ := of_decide_eq_true ht
  exact (BitVec.and_allOnes (x := w)).symm.trans (masked_of_accepts hm hm32 h)

/-- The function field of an RV64 shift-immediate is the upper part of funct7 (rule R113). -/
theorem extractLsb'_fieldFunct7 (w : InstrWord) : (fieldFunct7 w).extractLsb' 1 6 = fieldFunct6 w := by
  apply BitVec.eq_of_getLsbD_eq
  intro j hj
  simp only [fieldFunct7, fieldFunct6, BitVec.getLsbD_extractLsb']
  interval_cases j <;> simp

/-- Under it stands w[25]. -/
theorem getLsbD_fieldFunct7_zero (w : InstrWord) : (fieldFunct7 w).getLsbD 0 = w.getLsbD 25 := by
  simp [fieldFunct7]

/-- The row is a shift-immediate's: its mask leaves w[25] open at XLEN = 64 and tests it, for 0, at XLEN = 32 (rule R139). -/
def Row.testsShift (r : Row) : Bool :=
  fieldOpcode r.pattern = 0x13#7 ∧ r.mask = 0xFC00707F#32 ∧ r.maskRv32 = 0xFE00707F#32 ∧
    r.pattern &&& 0xFC00707F#32 = r.pattern ∧ r.pattern &&& 0xFE00707F#32 = r.pattern ∧ r.pattern.getLsbD 25 = false

/-- At either width the two masks of a shift-immediate's row test what `shiftFunct` tests. -/
theorem Row.shift_of_accepts (ht : row.testsShift = true) (h : row.accepts xl w = true) :
    fieldOpcode w = 0x13#7 ∧ fieldFunct3 w = fieldFunct3 row.pattern ∧
      ∀ f, shiftFunct xl w f = (fieldFunct6 row.pattern == f) := by
  obtain ⟨hop, hm, hm32, hp6, hp7, h25⟩ := of_decide_eq_true ht
  cases xl with
  | rv64 =>
    obtain ⟨hwop, hf3, hf6⟩ := (mask_funct6 w _ hp6).1 (by simpa [accepts, hm] using h)
    exact ⟨hwop.trans hop, hf3, fun f => by simp [shiftFunct, hf6]⟩
  | rv32 =>
    have hmask : w &&& 0xFE00707F#32 = row.pattern := by simp_all [accepts]
    obtain ⟨hwop, hf3, hf7⟩ := (mask_funct7 w _ hp7).1 hmask
    have hf6 : fieldFunct6 w = fieldFunct6 row.pattern := by
      rw [← extractLsb'_fieldFunct7, hf7, extractLsb'_fieldFunct7]
    have hw25 : w.getLsbD 25 = false := by
      rw [← getLsbD_fieldFunct7_zero, hf7, getLsbD_fieldFunct7_zero, h25]
    exact ⟨hwop.trans hop, hf3, fun f => by rw [shiftFunct, hf6, hw25]; simp⟩

/-! ### A word that a row accepts decodes to an instruction of that row

The fields that the masks of a group's rows test are those that the group's decoder branches on. With them rewritten to the
fields of the row's pattern, which is a literal, every branch is settled and the last step is evaluation. -/

/-- The word decodes to an instruction with the row's mnemonic and format. -/
def DecodesAs (xl : Xlen) (w : InstrWord) (row : Row) : Prop :=
  ∃ i, decodeWord xl w = .ok i ∧ row.mnemonic = i.mnemonic ∧ row.format = i.format

theorem decodesAs_iff : DecodesAs xl w row ↔
    ∃ i, decodeOption xl w = some i ∧ row.mnemonic = i.mnemonic ∧ row.format = i.format := by
  simp only [DecodesAs, decodeWord_eq_ok_iff]

theorem decodesAs_of_mem_upperAndJumpRows (hrow : row ∈ upperAndJumpRows) (h : row.accepts xl w = true) :
    DecodesAs xl w row := by
  rw [decodesAs_iff]
  fin_cases hrow
  · have hop := Row.opcode_of_accepts (op := 0x37#7) (by decide) h
    exact ⟨.lui (fieldRd w) (fieldImmU w), by simp [decodeOption, hop], rfl, rfl⟩
  · have hop := Row.opcode_of_accepts (op := 0x17#7) (by decide) h
    exact ⟨.auipc (fieldRd w) (fieldImmU w), by simp [decodeOption, hop], rfl, rfl⟩
  · have hop := Row.opcode_of_accepts (op := 0x6F#7) (by decide) h
    exact ⟨.jal (fieldRd w) (fieldImmJ w), by simp [decodeOption, hop], rfl, rfl⟩
  · obtain ⟨hop, hf3⟩ := Row.funct3_of_accepts (op := 0x67#7) (by decide) h
    rw [decodeOption_jalr hop, decodeJalr, hf3]
    exact ⟨_, rfl, rfl, rfl⟩

theorem decodesAs_of_mem_branchRows (hrow : row ∈ branchRows) (h : row.accepts xl w = true) : DecodesAs xl w row := by
  have ht : ∀ row ∈ branchRows, row.tests 0x63#7 0x0000707F#32 = true := by decide
  obtain ⟨hop, hf3⟩ := Row.funct3_of_accepts (ht row hrow) h
  simp only [decodesAs_iff, decodeOption_branch hop, decodeBranch, hf3]
  fin_cases hrow <;> exact ⟨_, rfl, rfl, rfl⟩

theorem decodesAs_of_mem_loadRows (hrow : row ∈ loadRows) (h : row.accepts xl w = true) : DecodesAs xl w row := by
  have ht : ∀ row ∈ loadRows, row.tests 0x03#7 0x0000707F#32 = true := by decide
  obtain ⟨hop, hf3⟩ := Row.funct3_of_accepts (ht row hrow) h
  simp only [decodesAs_iff, decodeOption_load hop, decodeLoad, hf3]
  fin_cases hrow
  · exact ⟨_, rfl, rfl, rfl⟩
  · exact ⟨_, rfl, rfl, rfl⟩
  · exact ⟨_, rfl, rfl, rfl⟩
  · obtain rfl := Row.rv64_of_accepts h rfl
    exact ⟨_, rfl, rfl, rfl⟩
  · exact ⟨_, rfl, rfl, rfl⟩
  · exact ⟨_, rfl, rfl, rfl⟩
  · obtain rfl := Row.rv64_of_accepts h rfl
    exact ⟨_, rfl, rfl, rfl⟩

theorem decodesAs_of_mem_storeRows (hrow : row ∈ storeRows) (h : row.accepts xl w = true) : DecodesAs xl w row := by
  have ht : ∀ row ∈ storeRows, row.tests 0x23#7 0x0000707F#32 = true := by decide
  obtain ⟨hop, hf3⟩ := Row.funct3_of_accepts (ht row hrow) h
  simp only [decodesAs_iff, decodeOption_store hop, decodeStore, hf3]
  fin_cases hrow
  · exact ⟨_, rfl, rfl, rfl⟩
  · exact ⟨_, rfl, rfl, rfl⟩
  · exact ⟨_, rfl, rfl, rfl⟩
  · obtain rfl := Row.rv64_of_accepts h rfl
    exact ⟨_, rfl, rfl, rfl⟩

theorem decodesAs_of_mem_immediateRows (hrow : row ∈ immediateRows) (h : row.accepts xl w = true) :
    DecodesAs xl w row := by
  have hcases : ∀ row ∈ immediateRows, row ∈ immediateRows.take 6 ∧ row.tests 0x13#7 0x0000707F#32 = true ∨
      row ∈ immediateRows.drop 6 ∧ row.testsShift = true := by decide
  rcases hcases row hrow with ⟨harith, ht⟩ | ⟨hshift, ht⟩
  · obtain ⟨hop, hf3⟩ := Row.funct3_of_accepts ht h
    simp only [decodesAs_iff, decodeOption_opImm hop, decodeOpImm, hf3]
    fin_cases harith <;> exact ⟨_, rfl, rfl, rfl⟩
  · obtain ⟨hop, hf3, hf6⟩ := Row.shift_of_accepts ht h
    simp only [decodesAs_iff, decodeOption_opImm hop, decodeOpImm, hf3, hf6]
    fin_cases hshift <;> exact ⟨_, rfl, rfl, rfl⟩

theorem decodesAs_of_mem_registerRows (hrow : row ∈ registerRows) (h : row.accepts xl w = true) :
    DecodesAs xl w row := by
  have ht : ∀ row ∈ registerRows, row.tests 0x33#7 0xFE00707F#32 = true := by decide
  obtain ⟨hop, hf3, hf7⟩ := Row.funct7_of_accepts (ht row hrow) h
  simp only [decodesAs_iff, decodeOption_op hop, decodeOp, hf3, hf7]
  fin_cases hrow <;> exact ⟨_, rfl, rfl, rfl⟩

theorem decodesAs_of_mem_wordRows (hrow : row ∈ wordRows) (h : row.accepts xl w = true) : DecodesAs xl w row := by
  have h64 : ∀ row ∈ wordRows, row.rv64Only = true := by decide
  obtain rfl := Row.rv64_of_accepts h (h64 row hrow)
  have hcases : ∀ row ∈ wordRows, row ∈ wordRows.take 1 ∧ row.tests 0x1B#7 0x0000707F#32 = true ∨
      row ∈ (wordRows.drop 1).take 3 ∧ row.tests 0x1B#7 0xFE00707F#32 = true ∨
      row ∈ wordRows.drop 4 ∧ row.tests 0x3B#7 0xFE00707F#32 = true := by decide
  rcases hcases row hrow with ⟨haddiw, ht⟩ | ⟨hshift, ht⟩ | ⟨hop32, ht⟩
  · obtain ⟨hop, hf3⟩ := Row.funct3_of_accepts ht h
    simp only [decodesAs_iff, decodeOption_opImm32 hop, decodeOpImm32, hf3]
    fin_cases haddiw
    exact ⟨_, rfl, rfl, rfl⟩
  · obtain ⟨hop, hf3, hf7⟩ := Row.funct7_of_accepts ht h
    simp only [decodesAs_iff, decodeOption_opImm32 hop, decodeOpImm32, hf3, hf7]
    fin_cases hshift <;> exact ⟨_, rfl, rfl, rfl⟩
  · obtain ⟨hop, hf3, hf7⟩ := Row.funct7_of_accepts ht h
    simp only [decodesAs_iff, decodeOption_op32 hop, decodeOp32, hf3, hf7]
    fin_cases hop32 <;> exact ⟨_, rfl, rfl, rfl⟩

/-- The CSR instructions: none of the four whole words has a funct3 of theirs (rule R136). -/
theorem decodesAs_of_mem_systemRows_csr (hrow : row ∈ (systemRows.drop 2).take 6)
    (h : row.accepts xl w = true) : DecodesAs xl w row := by
  have hrows : ∀ row ∈ (systemRows.drop 2).take 6,
      row.tests 0x73#7 0x0000707F#32 = true ∧ fieldFunct3 row.pattern ≠ 0#3 := by decide
  obtain ⟨ht, hpat⟩ := hrows row hrow
  obtain ⟨hop, hf3⟩ := Row.funct3_of_accepts ht h
  have hne : ∀ v : InstrWord, fieldFunct3 v = 0#3 → w ≠ v := by
    rintro v hv rfl
    exact hpat (hf3.symm.trans hv)
  simp only [decodesAs_iff, decodeOption_system hop, decodeSystem, hf3, hne 0x00000073#32 rfl, hne 0x00100073#32 rfl,
    hne 0x10200073#32 rfl, hne 0x30200073#32 rfl, if_false]
  fin_cases hrow <;> exact ⟨_, rfl, rfl, rfl⟩

theorem decodesAs_of_mem_systemRows (hrow : row ∈ systemRows) (h : row.accepts xl w = true) : DecodesAs xl w row := by
  have hcases : ∀ row ∈ systemRows, row ∈ systemRows.take 1 ∧ row.tests 0x0F#7 0x000FFFFF#32 = true ∨
      row ∈ (systemRows.drop 2).take 6 ∨
      row ∈ (systemRows.drop 1).take 1 ++ systemRows.drop 8 ∧
        row.tests (fieldOpcode row.pattern) 0xFFFFFFFF#32 = true := by decide
  rcases hcases row hrow with ⟨hfence, ht⟩ | hcsr | ⟨hword, ht⟩
  · obtain ⟨hop, hrd, hf3, hrs1⟩ := Row.low20_of_accepts ht h
    simp only [decodesAs_iff, decodeOption_miscMem hop, decodeMiscMem, hrd, hf3, hrs1]
    fin_cases hfence
    exact ⟨_, rfl, rfl, rfl⟩
  · exact decodesAs_of_mem_systemRows_csr hcsr h
  · obtain rfl := Row.word_of_accepts ht h
    rw [decodesAs_iff]
    fin_cases hword <;> exact ⟨_, rfl, rfl, rfl⟩

theorem decodesAs_of_mem_opcodeTable (hrow : row ∈ opcodeTable) (h : row.accepts xl w = true) : DecodesAs xl w row := by
  simp only [opcodeTable, List.mem_append, or_assoc] at hrow
  rcases hrow with hr | hr | hr | hr | hr | hr | hr | hr
  · exact decodesAs_of_mem_upperAndJumpRows hr h
  · exact decodesAs_of_mem_branchRows hr h
  · exact decodesAs_of_mem_loadRows hr h
  · exact decodesAs_of_mem_storeRows hr h
  · exact decodesAs_of_mem_immediateRows hr h
  · exact decodesAs_of_mem_registerRows hr h
  · exact decodesAs_of_mem_wordRows hr h
  · exact decodesAs_of_mem_systemRows hr h

/-! ### The obligations -/

/-- Settles O4: what decodes is the encoding of its instruction, whose word has its row; and the fields an accepting row
tests lead the decoder to an instruction of that row. -/
theorem decodeAgreesWithOpcodeTable : Obligations.DecodeAgreesWithOpcodeTable := by
  unfold Obligations.DecodeAgreesWithOpcodeTable
  intro xl w
  refine ⟨fun i h => ?_, fun row hrow h => decodesAs_of_mem_opcodeTable hrow h⟩
  obtain ⟨hwf, rfl⟩ := encode_of_decodeWord h
  exact Laws.TableRow.exists_row i xl hwf

/-- Settles O1: the decoder evaluated on the nine words. -/
theorem specWordsDecode : Obligations.SpecWordsDecode := by
  unfold Obligations.SpecWordsDecode
  decide

end Sys2Proof
end

section
/-! PROOFS. The integer computational instructions (40_integer.md): each completes and writes one register, and what it
writes is the spec's number. -/

namespace Sys2Proof.Machine

variable {xl : Xlen}

/-! ### An instruction that writes one register -/

/-- An instruction whose meaning is one register write completes, and changes nothing else (40_integer.md). -/
theorem Hart.completes_of_exec_eq {h : Hart xl} {i : Instr} {rd : Reg} {v : Word xl} {value : Word xl → Prop}
    (e : exec i ⟨xl, h⟩ = .next ⟨xl, h.setX rd v⟩) (hv : value v) :
    ∃ v t, exec i ⟨xl, h⟩ = .next ⟨xl, t⟩ ∧ h.WritesReg t rd v ∧ value v :=
  ⟨v, h.setX rd v, e, h.writesReg_setX rd v, hv⟩

theorem shamtFits_iff {shamt : BitVec 6} : shamtFits xl shamt = true ↔ shamt.toNat < xl.bits := decide_eq_true_iff

theorem State.existsIf_of {s : State} {c : Bool} {i : Instr} {r : Result} (hc : c = true) : s.existsIf c i r = r := by
  rw [hc, State.existsIf_true]

/-! ### Immediates, shift amounts and comparisons as numbers -/

/-- imm_I stands for the signed value of its 12 bits (rule R119). -/
@[simp] theorem toInt_imm12 (imm : BitVec 12) : (imm12 xl imm).toInt = imm.toInt :=
  BitVec.toInt_signExtend_of_le ((by decide : 12 ≤ 32).trans (bits_ge xl))

/-- The bits of imm_I: above bit 11, copies of it (rules R12, R119). -/
theorem getLsbD_imm12 (imm : BitVec 12) {j : Nat} (hj : j < xl.bits) :
    (imm12 xl imm).getLsbD j = imm.getLsbD (min j 11) := by
  rw [imm12, sext, BitVec.getLsbD_signExtend, BitVec.msb_eq_getLsbD_last]
  by_cases h12 : j < 12
  · simp [hj, h12, show min j 11 = j by omega]
  · simp [hj, h12, show min j 11 = 11 by omega]

/-- The amount a register gives a shift is its value modulo XLEN (rule R162). -/
theorem shiftAmount_eq (v : Word xl) : shiftAmount v = v.toNat % xl.bits := by
  cases xl <;> rfl

/-- The amount a register gives a word shift is its value modulo 32 (rule R162). -/
theorem shiftAmountW_eq (v : Word xl) : shiftAmountW v = v.toNat % 32 := rfl

theorem boolWord_slt (a b : Word xl) : boolWord xl (a.slt b) = if a.toInt < b.toInt then 1 else 0 := by
  simp [boolWord, BitVec.slt_eq_decide]

theorem boolWord_ult (a b : Word xl) : boolWord xl (a.ult b) = if a.toNat < b.toNat then 1 else 0 := by
  simp [boolWord, BitVec.ult_eq_decide]

/-! ### Shifts as arithmetic -/

section
variable {w : Nat}

theorem toNat_shiftLeft_eq_mul (v : BitVec w) (n : Nat) : (v <<< n).toNat = v.toNat * 2 ^ n % 2 ^ w := by
  rw [BitVec.toNat_shiftLeft, Nat.shiftLeft_eq]

theorem toNat_ushiftRight_eq_div (v : BitVec w) (n : Nat) : (v >>> n).toNat = v.toNat / 2 ^ n := by
  rw [BitVec.toNat_ushiftRight, Nat.shiftRight_eq_div_pow]

/-- An arithmetic right shift is the division of the signed value, rounded down. -/
theorem toInt_sshiftRight_eq_div (v : BitVec w) (n : Nat) : (v.sshiftRight n).toInt = v.toInt / 2 ^ n := by
  rw [BitVec.toInt_sshiftRight, Int.shiftRight_eq_div_pow, Nat.cast_pow, Nat.cast_ofNat]

/-- A left shift multiplies the signed value, wrapped to the width. -/
theorem toInt_shiftLeft_eq_mul (v : BitVec w) (n : Nat) : (v <<< n).toInt = (v.toInt * 2 ^ n).bmod (2 ^ w) := by
  rw [BitVec.toInt_shiftLeft, Nat.shiftLeft_eq, BitVec.toInt_eq_toNat_bmod v, Int.bmod_mul_bmod, Nat.cast_mul,
    Nat.cast_pow, Nat.cast_ofNat]

end

/-! ### Word operations: computed on low words in 32 bits, then sign-extended (40_integer.md section 5) -/

@[simp] theorem toNat_lo (v : Word xl) : (lo v).toNat = v.toNat % 2 ^ 32 := rfl

/-- The low word is the register wrapped to a signed 32-bit value. -/
@[simp] theorem toInt_lo (v : Word xl) : (lo v).toInt = v.toInt.bmod (2 ^ 32) := by
  have hdvd : 2 ^ 32 ∣ 2 ^ xl.bits := Nat.pow_dvd_pow 2 (bits_ge xl)
  rw [BitVec.toInt_eq_toNat_bmod v, Int.bmod_bmod_of_dvd hdvd, BitVec.toInt_eq_toNat_bmod, toNat_lo, Int.natCast_mod,
    Int.emod_bmod]

/-- Sign-extension of a 32-bit result keeps its signed value (rule R12). -/
theorem toInt_sext_word (v : BitVec 32) : (sext xl v).toInt = v.toInt :=
  BitVec.toInt_signExtend_of_le (bits_ge xl)

/-- A word sum is the sum of the registers, wrapped to 32 bits. -/
theorem toInt_sext_lo_add (a b : Word xl) : (sext xl (lo a + lo b)).toInt = (a.toInt + b.toInt).bmod (2 ^ 32) := by
  rw [toInt_sext_word, BitVec.toInt_add, toInt_lo, toInt_lo, Int.bmod_add_bmod, Int.add_bmod_bmod]

/-- A word difference is the difference of the registers, wrapped to 32 bits. -/
theorem toInt_sext_lo_sub (a b : Word xl) : (sext xl (lo a - lo b)).toInt = (a.toInt - b.toInt).bmod (2 ^ 32) := by
  rw [toInt_sext_word, BitVec.toInt_sub, toInt_lo, toInt_lo, Int.bmod_sub_bmod, Int.sub_bmod_bmod]

/-- A word left shift multiplies the whole register, wrapped to 32 bits: the bits above the low word fall away. -/
theorem toInt_sext_lo_shiftLeft (v : Word xl) (n : Nat) :
    (sext xl (lo v <<< n)).toInt = (v.toInt * 2 ^ n).bmod (2 ^ 32) := by
  rw [toInt_sext_word, toInt_shiftLeft_eq_mul, toInt_lo, Int.bmod_mul_bmod]

/-- A logical word right shift divides the unsigned low word; a quotient of 2^31 or more (`n = 0`) reads negative. -/
theorem toInt_sext_lo_ushiftRight (v : Word xl) (n : Nat) :
    (sext xl (lo v >>> n)).toInt = ((v.toNat % 2 ^ 32 / 2 ^ n : Nat) : Int).bmod (2 ^ 32) := by
  rw [toInt_sext_word, BitVec.toInt_eq_toNat_bmod, toNat_ushiftRight_eq_div, toNat_lo]

/-- An arithmetic word right shift divides the signed low word. -/
theorem toInt_sext_lo_sshiftRight (v : Word xl) (n : Nat) :
    (sext xl ((lo v).sshiftRight n)).toInt = v.toInt.bmod (2 ^ 32) / 2 ^ n := by
  rw [toInt_sext_word, toInt_sshiftRight_eq_div, toInt_lo]

/-! ### The obligations -/

/-- Settles O24: a sum or difference of words is the signed one wrapped to XLEN bits. -/
theorem addAndSubtract : Obligations.AddAndSubtract := by
  unfold Obligations.AddAndSubtract
  intro xl h rd rs1 rs2 imm
  refine ⟨Hart.completes_of_exec_eq rfl ?_, Hart.completes_of_exec_eq rfl (BitVec.toInt_add _ _),
    Hart.completes_of_exec_eq rfl BitVec.toInt_sub⟩
  rw [BitVec.toInt_add, toInt_imm12]

/-- Settles O25: the value written is `boolWord` of a comparison of signed or of unsigned numbers. -/
theorem comparisons : Obligations.Comparisons := by
  unfold Obligations.Comparisons
  intro xl h rd rs1 rs2 imm
  refine ⟨⟨_, rfl, ?_⟩, ⟨_, rfl, ?_⟩, ⟨_, rfl, ?_⟩⟩
  · rw [← toInt_imm12 (xl := xl) imm, ← boolWord_slt]
    exact h.writesReg_setX rd _
  · rw [← boolWord_slt]
    exact h.writesReg_setX rd _
  · rw [← boolWord_ult]
    exact h.writesReg_setX rd _

/-- Settles O27: bit `j` of the result is the operation on the operands' bits `j`, an immediate's by `getLsbD_imm12`. -/
theorem bitwiseLogic : Obligations.BitwiseLogic := by
  unfold Obligations.BitwiseLogic
  intro xl h rd rs1 rs2 imm
  refine ⟨Hart.completes_of_exec_eq rfl fun j hj => ?_, Hart.completes_of_exec_eq rfl fun j hj => ?_,
    Hart.completes_of_exec_eq rfl fun j hj => ?_, Hart.completes_of_exec_eq rfl fun j _ => BitVec.getLsbD_xor,
    Hart.completes_of_exec_eq rfl fun j _ => BitVec.getLsbD_or,
    Hart.completes_of_exec_eq rfl fun j _ => BitVec.getLsbD_and⟩
  · rw [BitVec.getLsbD_xor, getLsbD_imm12 imm hj]
  · rw [BitVec.getLsbD_or, getLsbD_imm12 imm hj]
  · rw [BitVec.getLsbD_and, getLsbD_imm12 imm hj]

/-- Settles O28: an amount below XLEN has a routine, and each shift multiplies or divides by a power of two. -/
theorem shiftImmediates : Obligations.ShiftImmediates := by
  unfold Obligations.ShiftImmediates
  intro xl h rd rs1 shamt hlt
  have hfits : shamtFits xl shamt = true := shamtFits_iff.2 hlt
  exact ⟨Hart.completes_of_exec_eq (State.existsIf_of hfits) (toNat_shiftLeft_eq_mul _ _),
    Hart.completes_of_exec_eq (State.existsIf_of hfits) (toNat_ushiftRight_eq_div _ _),
    Hart.completes_of_exec_eq (State.existsIf_of hfits) (toInt_sshiftRight_eq_div _ _)⟩

/-- Settles O29: the shifts of O28 by the amount `shiftAmount_eq` names. -/
theorem registerShifts : Obligations.RegisterShifts := by
  unfold Obligations.RegisterShifts
  intro xl h rd rs1 rs2
  rw [← shiftAmount_eq (h.getX rs2)]
  exact ⟨Hart.completes_of_exec_eq rfl (toNat_shiftLeft_eq_mul _ _),
    Hart.completes_of_exec_eq rfl (toNat_ushiftRight_eq_div _ _),
    Hart.completes_of_exec_eq rfl (toInt_sshiftRight_eq_div _ _)⟩

/-- Settles O30: the 32-bit sum or difference of the low words is that of the registers wrapped to 32 bits, and
sign-extension keeps it. -/
theorem wordAddAndSubtract : Obligations.WordAddAndSubtract := by
  unfold Obligations.WordAddAndSubtract
  intro h rd rs1 rs2 imm
  refine ⟨Hart.completes_of_exec_eq rfl ?_, Hart.completes_of_exec_eq rfl (toInt_sext_lo_add _ _),
    Hart.completes_of_exec_eq rfl (toInt_sext_lo_sub _ _)⟩
  rw [toInt_sext_lo_add, toInt_imm12]

/-- Settles O31: the shift of the low word in 32 bits, by shamt or by the amount `shiftAmountW_eq` names, kept by
sign-extension. -/
theorem wordShifts : Obligations.WordShifts := by
  unfold Obligations.WordShifts
  intro h rd rs1 rs2 shamt
  rw [← shiftAmountW_eq (h.getX rs2)]
  exact ⟨Hart.completes_of_exec_eq rfl (toInt_sext_lo_shiftLeft _ _),
    Hart.completes_of_exec_eq rfl (toInt_sext_lo_ushiftRight _ _),
    Hart.completes_of_exec_eq rfl (toInt_sext_lo_sshiftRight _ _),
    Hart.completes_of_exec_eq rfl (toInt_sext_lo_shiftLeft _ _),
    Hart.completes_of_exec_eq rfl (toInt_sext_lo_ushiftRight _ _),
    Hart.completes_of_exec_eq rfl (toInt_sext_lo_sshiftRight _ _)⟩

end Sys2Proof.Machine
end

section
/-! PROOFS. The control transfer instructions (41_control.md): JAL is a jump and each conditional branch a branch, and the
link, the target and the condition are the spec's numbers. -/

namespace Sys2Proof.Machine

variable {xl : Xlen}

/-! ### The link, the target and the comparisons as numbers -/

/-- The link is pc + 4 modulo 2^XLEN (rule R210). -/
theorem toNat_link (pc : Word xl) : (pc + 4).toNat = (pc.toNat + 4) % 2 ^ xl.bits := by
  have h4 : (4 : Word xl).toNat = 4 := by cases xl <;> rfl
  rw [BitVec.toNat_add, h4]

/-- imm_J stands for the signed value of its 21 bits (rule R123). -/
@[simp] theorem toInt_immJ (offset : BitVec 21) : (immJ xl offset).toInt = offset.toInt :=
  BitVec.toInt_signExtend_of_le ((by decide : 21 ≤ 32).trans (bits_ge xl))

section
variable {w : Nat} {a b : BitVec w}

/-- BGE's test, not less, is the signed order read the other way. -/
theorem not_slt_iff_toInt_le : (!a.slt b) = true ↔ b.toInt ≤ a.toInt := by
  rw [Bool.not_eq_true', ← Bool.not_eq_true, BitVec.slt_iff_toInt_lt, not_lt]

/-- BGEU's test, not less, is the unsigned order read the other way. -/
theorem not_ult_iff_toNat_le : (!a.ult b) = true ↔ b.toNat ≤ a.toNat := by
  rw [Bool.not_eq_true', ← Bool.not_eq_true, BitVec.ult_iff_lt, BitVec.lt_def, not_lt]

end

/-! ### The obligations -/

/-- Settles O33: JAL is a jump to pc + imm_J. -/
theorem jumpAndLink : Obligations.JumpAndLink := by
  unfold Obligations.JumpAndLink
  intro xl h rd offset
  have htarget : (h.pc + immJ xl offset).toInt = (h.pc.toInt + offset.toInt).bmod (2 ^ xl.bits) := by
    rw [BitVec.toInt_add, toInt_immJ]
  exact ⟨_, _, _, rfl, h.jumpsTo_jump rd _, toNat_link h.pc, htarget⟩

/-- Settles O35: each is a branch, on a test that stands for its comparison. -/
theorem conditionalBranches : Obligations.ConditionalBranches := by
  unfold Obligations.ConditionalBranches
  intro xl h rs1 rs2 offset
  exact ⟨⟨_, rfl, h.branches_branch beq_iff_eq offset⟩,
    ⟨_, rfl, h.branches_branch bne_iff_ne offset⟩,
    ⟨_, rfl, h.branches_branch BitVec.slt_iff_toInt_lt offset⟩,
    ⟨_, rfl, h.branches_branch not_slt_iff_toInt_le offset⟩,
    ⟨_, rfl, h.branches_branch BitVec.ult_iff_lt offset⟩,
    ⟨_, rfl, h.branches_branch not_ult_iff_toNat_le offset⟩⟩

end Sys2Proof.Machine
end

section
/-! PROOFS. The decoder and the encoder (30_encoding.md): decoding undoes encoding, and what no width, or only XLEN = 64,
accepts. -/

namespace Sys2Proof

variable {xl : Xlen} {w : InstrWord} {i : Instr}

/-! ### Facts that a well-formed instruction's word decodes by -/

theorem rv64_of_wellFormed (h : WellFormed xl i = true) (hi : i.needsRv64 = true) : xl = .rv64 := by
  simpa [hi] using (Bool.and_eq_true_iff.1 h).1

theorem operandsFit_of_wellFormed (h : WellFormed xl i = true) : i.operandsFit xl = true :=
  (Bool.and_eq_true_iff.1 h).2

/-- An encoded shift-immediate passes the test for its own function field and no other (rules R113, R139). -/
theorem shiftFunct_encodeShift {f6 shamt : BitVec 6} {rs1 rd : Reg} {f3 : BitVec 3} (h : shamtFits xl shamt = true)
    (f : BitVec 6) : shiftFunct xl (encodeShift f6 shamt rs1 f3 rd) f = (f6 == f) := by
  cases xl with
  | rv32 =>
    have h5 : shamt.getLsbD 5 = false := by simpa [shamtFits_rv32] using h
    rw [shiftFunct, bit25_encodeShift, h5, fieldFunct6_encodeShift]
    simp
  | rv64 => simp [shiftFunct]

/-- A word with a funct3 other than 000 is none of the four whole words of SYSTEM (rule R136). -/
theorem encodeI_ne_systemWords {imm : BitVec 12} {rs1 rd : Reg} {f3 : BitVec 3} {op : BitVec 7} (h : f3 ≠ 0#3) :
    encodeI imm rs1 f3 rd op ≠ 0x00000073#32 ∧ encodeI imm rs1 f3 rd op ≠ 0x00100073#32 ∧
      encodeI imm rs1 f3 rd op ≠ 0x10200073#32 ∧ encodeI imm rs1 f3 rd op ≠ 0x30200073#32 := by
  have hne : ∀ v : InstrWord, fieldFunct3 v = 0#3 → encodeI imm rs1 f3 rd op ≠ v := by
    rintro v hv rfl
    exact h (by simpa using hv)
  exact ⟨hne _ rfl, hne _ rfl, hne _ rfl, hne _ rfl⟩

/-- FENCE's three fields come back from imm_I (rule R137). -/
theorem fence_fields_encodeI (fm pred succ : BitVec 4) (rs1 rd : Reg) (f3 : BitVec 3) (op : BitVec 7) :
    (encodeI (fm ++ pred ++ succ) rs1 f3 rd op).extractLsb' 28 4 = fm ∧
    (encodeI (fm ++ pred ++ succ) rs1 f3 rd op).extractLsb' 24 4 = pred ∧
    (encodeI (fm ++ pred ++ succ) rs1 f3 rd op).extractLsb' 20 4 = succ := by
  refine ⟨?_, ?_, ?_⟩ <;>
  · apply BitVec.eq_of_getLsbD_eq
    intro j hj
    simp only [encodeI, BitVec.getLsbD_extractLsb', BitVec.getLsbD_append]
    interval_cases j <;> simp

/-! ### Decoding undoes encoding -/

theorem decodeOption_encode (h : WellFormed xl i = true) : decodeOption xl (encode i) = some i := by
  cases i with
  | lui | auipc => simp [encode, decodeOption]
  | jal rd offset => simp [encode, decodeOption, fieldImmJ_encodeJ offset rd (operandsFit_of_wellFormed h)]
  | jalr => simp [encode, decodeOption_jalr, decodeJalr]
  | beq rs1 rs2 offset | bne rs1 rs2 offset | blt rs1 rs2 offset | bge rs1 rs2 offset | bltu rs1 rs2 offset
  | bgeu rs1 rs2 offset =>
    have heven : evenOffset offset = true := operandsFit_of_wellFormed h
    simp [encode, decodeOption_branch, decodeBranch, fieldImmB_encodeB _ _ _ _ heven]
  | lb | lh | lw | lbu | lhu => simp [encode, decodeOption_load, decodeLoad]
  | ld | lwu =>
    obtain rfl := rv64_of_wellFormed h rfl
    simp [encode, decodeOption_load, decodeLoad]
  | sb | sh | sw => simp [encode, decodeOption_store, decodeStore]
  | sd =>
    obtain rfl := rv64_of_wellFormed h rfl
    simp [encode, decodeOption_store, decodeStore]
  | addi | slti | sltiu | xori | ori | andi => simp [encode, decodeOption_opImm, decodeOpImm]
  | slli rd rs1 shamt | srli rd rs1 shamt | srai rd rs1 shamt =>
    have hfits : shamtFits xl shamt = true := operandsFit_of_wellFormed h
    simp [encode, decodeOption_opImm, decodeOpImm, shiftFunct_encodeShift hfits]
  | add | sub | sll | slt | sltu | xor | srl | sra | or | and => simp [encode, decodeOption_op, decodeOp]
  | addiw | slliw | srliw | sraiw =>
    obtain rfl := rv64_of_wellFormed h rfl
    simp [encode, decodeOption_opImm32, decodeOpImm32]
  | addw | subw | sllw | srlw | sraw =>
    obtain rfl := rv64_of_wellFormed h rfl
    simp [encode, decodeOption_op32, decodeOp32]
  | fence fm pred succ => simp [encode, decodeOption_miscMem, decodeMiscMem, fence_fields_encodeI]
  | csrrw | csrrs | csrrc | csrrwi | csrrsi | csrrci =>
    simp [encode, decodeOption_system, decodeSystem, encodeI_ne_systemWords]
  | fenceI => exact (decodeOption_miscMem rfl).trans rfl
  | ecall | ebreak | sret | mret => exact (decodeOption_system rfl).trans rfl

theorem decodeWord_encode (h : WellFormed xl i = true) : decodeWord xl (encode i) = .ok i :=
  decodeWord_eq_ok_iff.2 (decodeOption_encode h)

/-! ### What is rejected -/

theorem decodeWord_eq_unsupported_iff : decodeWord xl w = .error (.unsupported w) ↔ decodeOption xl w = none := by
  unfold decodeWord
  cases decodeOption xl w <;> simp

theorem toNat_fieldOpcode (w : InstrWord) : (fieldOpcode w).toNat = w.toNat % 128 := by
  simp [fieldOpcode]

theorem toNat_fieldFunct3 (w : InstrWord) : (fieldFunct3 w).toNat = w.toNat / 4096 % 8 := by
  simp [fieldFunct3, BitVec.extractLsb'_toNat, Nat.shiftRight_eq_div_pow]

theorem fieldOpcode_eq_iff {op : BitVec 7} : fieldOpcode w = op ↔ w.toNat % 128 = op.toNat := by
  rw [← BitVec.toNat_inj, toNat_fieldOpcode]

theorem fieldFunct3_eq_iff {f3 : BitVec 3} : fieldFunct3 w = f3 ↔ w.toNat / 4096 % 8 = f3.toNat := by
  rw [← BitVec.toNat_inj, toNat_fieldFunct3]

/-- A shift-immediate with w[25] = 1 passes no function-field test at XLEN = 32 (rule R139). -/
theorem shiftFunct_rv32_of_bit25 (h : w.toNat / 2 ^ 25 % 2 = 1) (f : BitVec 6) : shiftFunct .rv32 w f = false := by
  have h25 : w.getLsbD 25 = true := by simpa [BitVec.getLsbD, Nat.testBit_eq_decide_div_mod_eq] using h
  simp [shiftFunct, h25]

/-- An instruction that exists at XLEN = 32 exists at XLEN = 64 (rule R139). -/
theorem wellFormed_rv64_of_rv32 (h : WellFormed .rv32 i = true) : WellFormed .rv64 i = true := by
  have hfit32 : i.operandsFit .rv32 = true := operandsFit_of_wellFormed h
  have hfit : i.operandsFit .rv64 = true := by
    cases i with
    | slli rd rs1 shamt | srli rd rs1 shamt | srai rd rs1 shamt => exact shamtFits_rv64 shamt
    | _ => exact hfit32
  simp [WellFormed, hfit]

/-! ### Immediates as numbers -/

/-- A word of an even number is an even offset. -/
theorem evenOffset_ofInt {k : Nat} {v : Int} (hk : 0 < k) (hv : v % 2 = 0) : evenOffset (BitVec.ofInt k v) = true := by
  have hdvd : (2 : Int) ∣ (2 ^ k : Nat) := by exact_mod_cast dvd_pow_self 2 hk.ne'
  have hmod : v % (2 ^ k : Nat) % 2 = 0 := by rw [Int.emod_emod_of_dvd v hdvd, hv]
  have hnonneg : 0 ≤ v % (2 ^ k : Nat) := Int.emod_nonneg v (by positivity)
  simp only [evenOffset, BitVec.getLsbD, BitVec.toNat_ofInt, Nat.testBit_zero]
  simp only [Bool.not_eq_true', decide_eq_false_iff_not]
  omega

/-- Sign-extending the word of a number in the signed range of its width gives the number (rule R12). -/
theorem toInt_signExtend_ofInt {k : Nat} {v : Int} (xl : Xlen) (hk : 0 < k) (hkl : k ≤ xl.bits)
    (hlo : -2 ^ (k - 1) ≤ v) (hhi : v < 2 ^ (k - 1)) : ((BitVec.ofInt k v).signExtend xl.bits).toInt = v := by
  rw [BitVec.toInt_signExtend_of_le hkl, BitVec.toInt_ofInt_eq_self hk hlo hhi]

end Sys2Proof

namespace Sys2Proof.Machine

/-- imm_U stands for its 20 bits, read as a signed value, times 2^12 (rule R122). -/
@[simp] theorem toInt_immU {xl : Xlen} (imm : BitVec 20) : (immU xl imm).toInt = imm.toInt * 4096 := by
  rw [immU, toInt_sext_word, BitVec.toInt_append]
  simp [Int.mul_comm]

end Sys2Proof.Machine

namespace Sys2Proof

/-! ### The obligations -/

/-- Settles O2: every constructor's word leads the decoder back to it, the fields being read back from the encoder's word. -/
theorem decodeOfEncode : Obligations.DecodeOfEncode := by
  unfold Obligations.DecodeOfEncode
  intro xl i h
  exact decodeWord_encode h

/-- Settles O3: branch by branch of the decoder, the word is rebuilt from the fields that the branch tested and read. -/
theorem encodeOfDecode : Obligations.EncodeOfDecode := by
  unfold Obligations.EncodeOfDecode
  intro xl w i h
  exact encode_of_decodeWord h

/-- Settles O5: each field comes back from the encoder's word, and sign-extension keeps a value in the field's range. -/
theorem immediateRoundTrip : Obligations.ImmediateRoundTrip := by
  unfold Obligations.ImmediateRoundTrip
  intro xl v r1 r2 rd f3 op
  have hbits := Machine.bits_ge xl
  refine ⟨fun hv => ?_, fun hv => ?_, fun hv => ?_, fun hv => ?_⟩
  · rw [fieldImmI_encodeI, fieldImmS_encodeS]
    have hI := toInt_signExtend_ofInt (k := 12) (v := v) xl (by omega) (by omega) (by omega) (by omega)
    exact ⟨hI, hI⟩
  · rw [fieldImmB_encodeB _ _ _ _ (evenOffset_ofInt (by omega) hv.2.2)]
    exact toInt_signExtend_ofInt xl (by omega) (by omega) (by omega) (by omega)
  · rw [fieldImmJ_encodeJ _ _ (evenOffset_ofInt (by omega) hv.2.2)]
    exact toInt_signExtend_ofInt xl (by omega) (by omega) (by omega) (by omega)
  · rw [fieldImmU_encodeU, Machine.toInt_immU, BitVec.toInt_ofInt_eq_self (by omega) (by omega) (by omega)]
    omega

/-- Settles O6: the decoder's choice by opcode has no branch for the word. -/
theorem unrecognisedOpcodesAreUnsupported : Obligations.UnrecognisedOpcodesAreUnsupported := by
  unfold Obligations.UnrecognisedOpcodesAreUnsupported
  intro xl w h
  rw [decodeWord_eq_unsupported_iff]
  simp only [List.mem_cons, List.not_mem_nil, or_false, not_or] at h
  simp [decodeOption, fieldOpcode_eq_iff, h]

/-- Settles O7: what decodes at XLEN = 32 is well formed there, so at XLEN = 64, where its word decodes to it; and each
rejected class fails the tests of its group. -/
theorem rv32RejectsRv64Words : Obligations.Rv32RejectsRv64Words := by
  unfold Obligations.Rv32RejectsRv64Words
  intro w
  refine ⟨fun i h => ?_, fun h => ?_⟩
  · obtain ⟨hwf, rfl⟩ := encode_of_decodeWord h
    exact decodeWord_encode (wellFormed_rv64_of_rv32 hwf)
  · rw [decodeWord_eq_unsupported_iff]
    rcases h with hop | hop | ⟨hop, hf3⟩ | ⟨hop, hf3⟩ | ⟨hop, hf3, h25⟩
    · simp [decodeOption, fieldOpcode_eq_iff, hop]
    · simp [decodeOption, fieldOpcode_eq_iff, hop]
    · rw [decodeOption_load (fieldOpcode_eq_iff.2 hop)]
      rcases hf3 with hf3 | hf3 <;> simp [decodeLoad, fieldFunct3_eq_iff, hf3]
    · rw [decodeOption_store (fieldOpcode_eq_iff.2 hop)]
      simp [decodeStore, fieldFunct3_eq_iff, hf3]
    · rw [decodeOption_opImm (fieldOpcode_eq_iff.2 hop)]
      rcases hf3 with hf3 | hf3 <;> simp [decodeOpImm, fieldFunct3_eq_iff, hf3, shiftFunct_rv32_of_bit25 h25]

end Sys2Proof
end

section
/-! PROOFS. What every step keeps (rules R35, R40, R48 to R51), what an instruction of each class leaves unchanged, and the
boot state: each by the ways an instruction can complete or stop (`Completes`, `Stops`). -/

namespace Sys2Proof.Machine

variable {xl : Xlen}

/-! ### The PC advance -/

@[simp] theorem Hart.pcAdvance_csrs (h : Hart xl) : h.pcAdvance.csrs = h.csrs := by rw [h.pcAdvance_eq]
@[simp] theorem Hart.pcAdvance_mem (h : Hart xl) : h.pcAdvance.mem = h.mem := by rw [h.pcAdvance_eq]
@[simp] theorem Hart.pcAdvance_params (h : Hart xl) : h.pcAdvance.params = h.params := by rw [h.pcAdvance_eq]

/-- Step 5 of rule R50 leaves the three flags clear (rule R35). -/
theorem Hart.pcAdvance_flags (h : Hart xl) :
    h.pcAdvance.branchTaken = false ∧ h.pcAdvance.jumpTaken = false ∧ h.pcAdvance.trapTaken = false := by
  rw [h.pcAdvance_eq]
  exact ⟨rfl, rfl, rfl⟩

/-! ### The trap returns, inverted -/

/-- MRET in Machine mode, when it completes, writes mstatus, the level, pc and trap_taken (rule R276). -/
theorem Hart.returnMachine_ok {h t : Hart xl} {w : InstrWord} (hp : h.priv = .machine)
    (e : h.returnMachine w = .ok t) :
    ∃ p, t = { h.setCsr Csr.mstatus (Mstatus.popMachine (h.csr Csr.mstatus)) with
      priv := p, pc := h.csr Csr.mepc, trapTaken := true } := by
  unfold Hart.returnMachine at e
  rw [if_neg (not_not.2 hp)] at e
  split at e
  · cases e
  · next p _ => exact ⟨p, (Except.ok.inj e).symm⟩

/-- SRET above User writes mstatus, the level, pc and trap_taken (rule R277). -/
theorem Hart.returnSupervisor_of_ne_user {h : Hart xl} (hp : h.priv ≠ .user) :
    ∃ p, h.returnSupervisor = { h.setCsr Csr.mstatus (Mstatus.popSupervisor (h.csr Csr.mstatus)) with
      priv := p, pc := h.csr Csr.sepc, trapTaken := true } := by
  unfold Hart.returnSupervisor
  exact ⟨_, if_neg hp⟩

/-! ### The stored part of the invariant -/

/-- The clauses of `State.Inv` but for the flags, which an instruction may set and the PC advance clears: memory and the CSR
bank are canonical and bounded, and the read-only CSRs read 0. -/
structure Hart.Canonical (h : Hart xl) : Prop where
  memory : h.mem.wf
  memoryBound : ∀ c ∈ h.mem.cells, c.1 < h.params.memCapacity
  csrs : h.csrs.wf
  csrsBound : ∀ c ∈ h.csrs.cells, c.1 < 4096
  readOnlyZero : ∀ a, CsrReadOnly a → h.csr a = 0

theorem State.inv_iff {h : Hart xl} : State.Inv ⟨xl, h⟩ ↔
    h.Canonical ∧ h.branchTaken = false ∧ h.jumpTaken = false ∧ h.trapTaken = false :=
  ⟨fun ⟨hm, hmb, hc, hcb, hro, hf⟩ => ⟨⟨hm, hmb, hc, hcb, hro⟩, hf⟩,
    fun ⟨⟨hm, hmb, hc, hcb, hro⟩, hf⟩ => ⟨hm, hmb, hc, hcb, hro, hf⟩⟩

/-- `Canonical` speaks of memory, the CSR bank and the capacity only. -/
theorem Hart.Canonical.congr {h t : Hart xl} (c : h.Canonical) (hm : t.mem = h.mem) (hc : t.csrs = h.csrs)
    (hp : t.params = h.params) : t.Canonical where
  memory := hm ▸ c.memory
  memoryBound := by rw [hm, hp]; exact c.memoryBound
  csrs := hc ▸ c.csrs
  csrsBound := by rw [hc]; exact c.csrsBound
  readOnlyZero := fun a ha => by rw [← c.readOnlyZero a ha, Hart.csr, hc, Hart.csr]

theorem Hart.Canonical.setX {h : Hart xl} (c : h.Canonical) (rd : Reg) (v : Word xl) : (h.setX rd v).Canonical :=
  c.congr (h.setX_mem rd v) (h.setX_csrs rd v) (h.setX_params rd v)

/-- A write of a CSR that is not read-only. -/
theorem Hart.Canonical.setCsr {h : Hart xl} (c : h.Canonical) {a : CsrAddr} (ha : ¬ CsrReadOnly a) (v : Word xl) :
    (h.setCsr a v).Canonical where
  memory := c.memory
  memoryBound := c.memoryBound
  csrs := Cells.wf_set c.csrs a.toNat v
  csrsBound := Cells.bound_set c.csrsBound a.isLt v
  readOnlyZero := fun b hb => by
    have hne : b ≠ a := fun e => ha (e ▸ hb)
    rw [Hart.csr_setCsr, if_neg hne, c.readOnlyZero b hb]

/-- A store whose bytes lie in the array. -/
theorem Hart.Canonical.stored {h : Hart xl} (c : h.Canonical) {addr : Word xl} {n : Nat} (hf : h.Fits addr n)
    (v : Word xl) : (h.stored addr n v).Canonical where
  memory := Memory.wf_writeBytes c.memory _ _
  memoryBound := Memory.bound_writeBytes c.memoryBound _ (by rw [leBytes_length]; exact hf)
  csrs := c.csrs
  csrsBound := c.csrsBound
  readOnlyZero := c.readOnlyZero

/-- None of the CSRs that trap entry and the returns write is read-only (rule R42). -/
theorem not_csrReadOnly_hardware :
    ¬ CsrReadOnly Csr.mstatus ∧ ¬ CsrReadOnly Csr.mepc ∧ ¬ CsrReadOnly Csr.mcause := by
  unfold CsrReadOnly
  decide

theorem Hart.Canonical.trap {h : Hart xl} (c : h.Canonical) (code : Nat) : (h.trap code).Canonical := by
  obtain ⟨hstatus, hepc, hcause⟩ := not_csrReadOnly_hardware
  exact (((c.setCsr hepc h.pc).setCsr hcause (BitVec.ofNat xl.bits code)).setCsr hstatus
    (Mstatus.pushTrap (h.csr Csr.mstatus) h.priv)).congr rfl rfl rfl

/-! ### What an instruction that completes keeps -/

theorem completes_of_exec {i : Instr} {h t : Hart xl} (e : exec i ⟨xl, h⟩ = .next ⟨xl, t⟩) : Completes i h t := by
  obtain ⟨u, hu, c⟩ := exec_next e
  cases hu
  exact c

theorem Completes.canonical {i : Instr} {h t : Hart xl} (c : Completes i h t) (hc : h.Canonical) : t.Canonical := by
  cases c with
  | same e => exact e ▸ hc
  | reg rd v e => exact e ▸ hc.setX rd v
  | jump rd target e => exact e ▸ (hc.setX rd (h.pc + 4)).congr rfl rfl rfl
  | branch cond offset e =>
    subst e
    cases cond
    · exact hc
    · exact hc.congr rfl rfl rfl
  | store addr n v _ hf e => exact e ▸ hc.stored hf v
  | csr rd a new _ _ hw e => exact e ▸ (hc.setCsr hw new).setX rd _
  | trap code _ _ e => exact e ▸ hc.trap code
  | mret w _ hp e =>
    obtain ⟨p, rfl⟩ := Hart.returnMachine_ok hp e
    exact (hc.setCsr not_csrReadOnly_hardware.1 _).congr rfl rfl rfl
  | sret _ hp e =>
    obtain ⟨p, hs⟩ := Hart.returnSupervisor_of_ne_user hp
    rw [e, hs]
    exact (hc.setCsr not_csrReadOnly_hardware.1 _).congr rfl rfl rfl

/-- The level, but for a SYSTEM instruction (rules R38, R326). -/
theorem Completes.priv {i : Instr} {h t : Hart xl} (c : Completes i h t) (hi : i.isSystem = false) :
    t.priv = h.priv := by
  cases c with
  | same e => exact e ▸ rfl
  | reg rd v e => exact e ▸ h.setX_priv rd v
  | jump rd target e => exact e ▸ h.setX_priv rd _
  | branch cond offset e => exact e ▸ (h.branches_branch (cond := cond) Iff.rfl offset).priv
  | store addr n v _ _ e => exact e ▸ rfl
  | csr rd a new hsys _ _ _ => exact absurd hsys (by simp [hi])
  | trap code hsys _ _ => exact absurd hsys (by simp [hi])
  | mret w hm _ _ => subst hm; cases hi
  | sret hs _ _ => subst hs; cases hi

/-- Memory, but for a store (rules R87, R89). -/
theorem Completes.mem {i : Instr} {h t : Hart xl} (c : Completes i h t) (hi : i.isStore = false) : t.mem = h.mem := by
  cases c with
  | same e => exact e ▸ rfl
  | reg rd v e => exact e ▸ h.setX_mem rd v
  | jump rd target e => exact e ▸ h.setX_mem rd _
  | branch cond offset e =>
    subst e
    cases cond <;> rfl
  | store addr n v hst _ _ => exact absurd hst (by simp [hi])
  | csr rd a new _ _ _ e => exact e ▸ (h.setCsr a new).setX_mem rd _
  | trap code _ _ e => exact e ▸ rfl
  | mret w _ hp e =>
    obtain ⟨p, rfl⟩ := Hart.returnMachine_ok hp e
    rfl
  | sret _ hp e =>
    obtain ⟨p, hs⟩ := Hart.returnSupervisor_of_ne_user hp
    rw [e, hs]
    rfl

/-- Every CSR cell but those of trap entry and the returns and the one a CSR instruction names (rules R47, R48, R321). -/
theorem Completes.csr_eq {i : Instr} {h t : Hart xl} (c : Completes i h t) {a : CsrAddr} (hstatus : a ≠ Csr.mstatus)
    (hepc : a ≠ Csr.mepc) (hcause : a ≠ Csr.mcause) (hi : i.csrWritten ≠ some a) : t.csr a = h.csr a := by
  cases c with
  | same e => exact e ▸ rfl
  | reg rd v e => exact e ▸ h.csr_setX rd v a
  | jump rd target e => exact e ▸ h.csr_setX rd _ a
  | branch cond offset e => exact e ▸ (h.branches_branch (cond := cond) Iff.rfl offset).csrs a
  | store addr n v _ _ e => exact e ▸ rfl
  | csr rd b new _ hb _ e =>
    have hne : a ≠ b := fun hab => hi (hab ▸ hb)
    rw [e, Hart.csr_setX, Hart.csr_setCsr, if_neg hne]
  | trap code _ _ e => rw [e, Hart.csr_trap, if_neg hstatus, if_neg hcause, if_neg hepc]
  | mret w _ hp e =>
    obtain ⟨p, rfl⟩ := Hart.returnMachine_ok hp e
    exact (h.csr_setCsr _ a _).trans (if_neg hstatus)
  | sret _ hp e =>
    obtain ⟨p, hs⟩ := Hart.returnSupervisor_of_ne_user hp
    rw [e, hs]
    exact (h.csr_setCsr _ a _).trans (if_neg hstatus)

/-! ### The stops -/

/-- A stop of an instruction that is not Halted freezes the state as it was (rules R14, R346). -/
theorem Stops.frozen {i : Instr} {h : Hart xl} {f : Fault} (c : Stops i h f) (hf : f.isHalted = false) :
    f.frozen = ⟨xl, h⟩ := by
  cases c with
  | haltedLoad addr n code _ => cases hf
  | haltedStore addr n code v _ _ _ => cases hf
  | noRoutine | outOfRange | ebreak | reserved => rfl

/-- So does every stop of a fetch. -/
theorem Hart.frozen_of_fetch_eq_error {h : Hart xl} {f : Fault} (e : h.fetch = .error f) : f.frozen = ⟨xl, h⟩ := by
  rcases h.fetch_cases with ⟨_, e'⟩ | ⟨_, _, e'⟩ | ⟨_, _, _, code, e'⟩ | ⟨_, _, e'⟩ <;> cases e.symm.trans e' <;> rfl

/-! ### Boot -/

/-- The hart that boot creates. -/
def Hart.booted (cap watchLen : Nat) (l : LoaderValue xl) : Hart xl where
  x := Vector.replicate 31 0
  pc := l.entry
  branchTaken := false
  jumpTaken := false
  trapTaken := false
  priv := .machine
  csrs := ⟨[]⟩
  mem := (Memory.mk []).writeBytes 0 l.image
  params := { base := l.base, memCapacity := cap, watch := l.watchAddr.map fun a => ⟨a, watchLen⟩ }

theorem State.boot_eq (cap watchLen : Nat) (l : LoaderValue xl) : State.boot cap watchLen l =
    if 0 < cap ∧ l.image.length ≤ cap then some ⟨xl, Hart.booted cap watchLen l⟩ else none := rfl

theorem State.boot_eq_some_iff {cap watchLen : Nat} {l : LoaderValue xl} {s : State} :
    State.boot cap watchLen l = some s ↔
      (0 < cap ∧ l.image.length ≤ cap) ∧ s = ⟨xl, Hart.booted cap watchLen l⟩ := by
  rw [State.boot_eq, Option.ite_none_right_eq_some, Option.some_inj, eq_comm (a := s)]

theorem Hart.canonical_booted {cap watchLen : Nat} {l : LoaderValue xl} (hl : l.image.length ≤ cap) :
    (Hart.booted cap watchLen l).Canonical where
  memory := Memory.wf_writeBytes (m := ⟨[]⟩) ⟨.nil, by simp⟩ 0 l.image
  memoryBound := Memory.bound_writeBytes (m := ⟨[]⟩) (cap := cap) (by simp) l.image (by omega)
  csrs := ⟨.nil, by simp [Hart.booted]⟩
  csrsBound := by simp [Hart.booted]
  readOnlyZero := fun _ _ => rfl

theorem Hart.getX_booted (cap watchLen : Nat) (l : LoaderValue xl) (r : Reg) :
    (Hart.booted cap watchLen l).getX r = 0 := by
  simp [Hart.getX, Hart.booted]

/-- The image from index 0 on, and 0 beyond (rules R340, R342; decision D14). -/
theorem Hart.mem_booted (cap watchLen : Nat) (l : LoaderValue xl) (k : Nat) :
    (Hart.booted cap watchLen l).mem.get k = l.image.getD k 0 := by
  rw [Hart.booted, Memory.get_writeBytes, Memory.get_empty]
  by_cases hk : k < l.image.length <;> simp [hk]

/-! ### The obligations -/

/-- Settles O14: the instruction that the step ran keeps the stored part (`Completes.canonical`), and the PC advance keeps
it and clears the flags. -/
theorem stepKeepsTheInvariant : Obligations.StepKeepsTheInvariant := by
  unfold Obligations.StepKeepsTheInvariant
  rintro ⟨xl, h⟩ t hinv hstep
  obtain ⟨w, i, u, _, _, c, rfl⟩ := step_next hstep
  have hu : u.Canonical := c.canonical (State.inv_iff.1 hinv).1
  exact State.inv_iff.2 ⟨hu.congr u.pcAdvance_mem u.pcAdvance_csrs u.pcAdvance_params, u.pcAdvance_flags⟩

/-- Settles O12: nothing is listed. -/
theorem resetMeetsTheInvariant : Obligations.ResetMeetsTheInvariant := by
  unfold Obligations.ResetMeetsTheInvariant
  exact State.inv_iff.2 ⟨⟨⟨.nil, by simp⟩, by simp, ⟨.nil, by simp⟩, by simp, fun _ _ => rfl⟩, rfl, rfl, rfl⟩

/-- Settles O13: the image is written into an empty memory, byte by byte, below the capacity. -/
theorem bootMeetsTheInvariant : Obligations.BootMeetsTheInvariant := by
  unfold Obligations.BootMeetsTheInvariant
  intro xl cap watchLen l s hs
  obtain ⟨⟨_, hl⟩, rfl⟩ := State.boot_eq_some_iff.1 hs
  exact State.inv_iff.2 ⟨Hart.canonical_booted hl, rfl, rfl, rfl⟩

/-- Settles O22: the booted hart, component by component. -/
theorem bootIsTheResetState : Obligations.BootIsTheResetState := by
  unfold Obligations.BootIsTheResetState
  intro xl cap watchLen l
  refine ⟨by simp [State.boot_eq], fun s hs => ?_⟩
  obtain ⟨_, rfl⟩ := State.boot_eq_some_iff.1 hs
  exact ⟨_, rfl, rfl, Hart.getX_booted cap watchLen l, fun _ => rfl, rfl, rfl, rfl, rfl, Hart.mem_booted cap watchLen l,
    rfl, rfl, rfl⟩

/-- Settles O15: no instruction changes the parameters, and neither does the PC advance. -/
theorem stepKeepsTheParameters : Obligations.StepKeepsTheParameters := by
  unfold Obligations.StepKeepsTheParameters
  intro xl h t hstep
  obtain ⟨w, i, u, _, _, c, rfl⟩ := step_next hstep
  exact ⟨u.pcAdvance, rfl, u.pcAdvance_params.trans c.params⟩

/-- Settles O11: the PC advance clears them. -/
theorem flagsAreClearAfterEveryStep : Obligations.FlagsAreClearAfterEveryStep := by
  unfold Obligations.FlagsAreClearAfterEveryStep
  rintro ⟨xl, h⟩ t hstep
  obtain ⟨w, i, u, _, _, _, rfl⟩ := step_next hstep
  exact u.pcAdvance_flags

/-- Settles O16: an instruction completes or stops, and a step stops or advances such an outcome. -/
theorem nothingIsRefused : Obligations.NothingIsRefused := by
  unfold Obligations.NothingIsRefused
  refine ⟨fun i s r e => ?_, fun s r e => ?_⟩
  · rcases exec_outcome i s.hart with ⟨t, e', _⟩ | ⟨f, e', _⟩ <;> cases e.symm.trans e'
  · rcases step_cases s.hart with ⟨f, _, e'⟩ | ⟨w, _, e'⟩ | ⟨w, i, _, _, e'⟩
    · cases e.symm.trans e'
    · cases e.symm.trans e'
    · have hadv : Result.advance (exec i s) = .refused r := e'.symm.trans e
      rcases advance_outcome (exec_outcome i s.hart) with ⟨t, e'', _⟩ | ⟨f, e'', _⟩ <;> cases hadv.symm.trans e''

/-- Settles O17: a stop at the fetch, at the decode or in the instruction carries the state before the step, but for a
Halted store. -/
theorem fatalStopsLeaveTheStateUnchanged : Obligations.FatalStopsLeaveTheStateUnchanged := by
  unfold Obligations.FatalStopsLeaveTheStateUnchanged
  rintro ⟨xl, h⟩ f hstep hf
  rcases step_fault hstep with e | ⟨w, rfl⟩ | ⟨i, c⟩
  · exact Hart.frozen_of_fetch_eq_error e
  · rfl
  · exact c.frozen hf

/-- Settles O18: no way of completing that is open to other instructions writes the level. -/
theorem onlySystemInstructionsChangePrivilege : Obligations.OnlySystemInstructionsChangePrivilege := by
  unfold Obligations.OnlySystemInstructionsChangePrivilege
  intro xl h t i hi e
  exact (completes_of_exec e).priv hi

/-- Settles O20: no way of completing that is open to other instructions writes memory. -/
theorem onlyStoresChangeMemory : Obligations.OnlyStoresChangeMemory := by
  unfold Obligations.OnlyStoresChangeMemory
  intro xl h t i hi e idx
  rw [(completes_of_exec e).mem hi]

/-- Settles O21: trap entry and the returns write the three CSRs excepted, a CSR instruction the one it names. -/
theorem onlyCsrInstructionsWriteOtherCsrs : Obligations.OnlyCsrInstructionsWriteOtherCsrs := by
  unfold Obligations.OnlyCsrInstructionsWriteOtherCsrs
  intro xl h t i a hstatus hepc hcause hi e
  exact (completes_of_exec e).csr_eq hstatus hepc hcause hi

end Sys2Proof.Machine
end

section
/-! PROOFS. The step (rule R50): the fetch and its stops, the instruction with its PC advance, and the two steps that are
known whole, of a fence and of a jump to itself. -/

namespace Sys2Proof.Machine

variable {xl : Xlen}

/-! ### The stops of a fetch, in the order of the checks (rule R308) -/

theorem fetch_misaligned {h : Hart xl} (ha : h.pc.toNat % 4 ≠ 0) :
    h.fetch = .error (.fetchMisaligned h.pc.toNat ⟨xl, h⟩) := by
  rcases h.fetch_cases with ⟨_, e⟩ | ⟨ha', _⟩ | ⟨ha', _⟩ | ⟨ha', _⟩
  · exact e
  all_goals exact absurd ha' ha

theorem fetch_outOfRange {h : Hart xl} (ha : h.pc.toNat % 4 = 0) (hf : ¬ h.Fits h.pc 4) :
    h.fetch = .error (.memOutOfRange h.pc.toNat 4 ⟨xl, h⟩) := by
  rcases h.fetch_cases with ⟨ha', _⟩ | ⟨_, _, e⟩ | ⟨_, hf', _⟩ | ⟨_, hf', _⟩
  · exact absurd ha ha'
  · exact e
  all_goals exact absurd hf' hf

/-! ### The PC advance -/

@[simp] theorem Result.advance_next (t : Hart xl) :
    Result.advance (.next ⟨xl, t⟩) = .next ⟨xl, t.pcAdvance⟩ := rfl

@[simp] theorem Result.advance_fault (f : Fault) : Result.advance (.fault f) = .fault f := rfl

/-- With no flag set, the PC advance only adds 4 to pc. -/
theorem Hart.pcAdvance_of_flags_clear {h : Hart xl} (hb : h.branchTaken = false) (hj : h.jumpTaken = false)
    (ht : h.trapTaken = false) : h.pcAdvance = { h with pc := h.pc + 4 } := by
  simp [Hart.pcAdvance, Hart.redirected, hb, hj, ht]

/-- After a jump the PC advance clears the flags and keeps pc. -/
theorem Hart.pcAdvance_jump (h : Hart xl) (rd : Reg) (target : Word xl) :
    (h.jump rd target).pcAdvance = { (h.setX rd (h.pc + 4)).clearFlags with pc := target } := by
  simp [Hart.pcAdvance, Hart.redirected, Hart.jump, Hart.clearFlags]

theorem Hart.clearFlags_of_flags_clear {h : Hart xl} (hb : h.branchTaken = false) (hj : h.jumpTaken = false)
    (ht : h.trapTaken = false) : h.clearFlags = h := by
  cases h
  simp_all [Hart.clearFlags]

/-! ### The obligations -/

/-- Settles O8: the fetch reads the word, and the step advances what `exec` answers. -/
theorem stepRunsTheDecodedInstruction : Obligations.StepRunsTheDecodedInstruction := by
  unfold Obligations.StepRunsTheDecodedInstruction
  intro xl h i ha hf hw hd
  have hstep := step_of_decode (fetch_ok ha hf hw) hd
  refine ⟨fun t e => ?_, fun f e => ?_⟩
  · rw [hstep, e, Result.advance_next, t.pcAdvance_eq]
  · rw [hstep, e, Result.advance_fault]

/-- Settles O9: the fetch stops at its first failing check, and a fetched word may be rejected. -/
theorem stepStopsBeforeExecuting : Obligations.StepStopsBeforeExecuting := by
  unfold Obligations.StepStopsBeforeExecuting
  intro xl h
  refine ⟨fun ha => step_of_error (fetch_misaligned ha), fun ha hf => step_of_error (fetch_outOfRange ha hf),
    fun w ha hf hw e hd => ?_⟩
  subst e
  exact step_of_reject (fetch_ok ha hf hw) hd

/-- Settles O10: the fetch asks the host, and on Continue the step goes on with the word read. -/
theorem watchedFetchAsksTheHost : Obligations.WatchedFetchAsksTheHost := by
  unfold Obligations.WatchedFetchAsksTheHost
  intro xl h w ha hf hw e
  have hfetch := h.fetch_watched ha hf hw
  rw [Hart.index, ← e] at hfetch
  cases hv : Config.watchCallback ⟨xl, h⟩
      ⟨h.pc.toNat, 4, .fetch, (List.range 4).map fun k => h.mem.get ((h.pc - h.params.base).toNat + k)⟩ with
  | halt code =>
    rw [hv] at hfetch
    exact step_of_error hfetch
  | cont =>
    rw [hv] at hfetch
    cases hd : decodeWord xl w with
    | ok i => exact step_of_decode hfetch hd
    | error _ => exact step_of_reject hfetch hd

/-- Settles O43: a fence leaves the state as it was, so that only the PC advance is left of its step. -/
theorem fencesChangeNothing : Obligations.FencesChangeNothing := by
  unfold Obligations.FencesChangeNothing
  intro xl h i hi
  have hexec : exec i ⟨xl, h⟩ = .next ⟨xl, h⟩ := by
    rcases hi with rfl | ⟨fm, pred, succ, rfl⟩ <;> rfl
  refine ⟨hexec, fun ha hf hw hd hb hj ht => ?_⟩
  rw [step_of_decode (fetch_ok ha hf hw) hd, hexec, Result.advance_next, Hart.pcAdvance_of_flags_clear hb hj ht]

/-- Settles O55: the word is JAL x0, 0, whose jump writes pc with pc, no register, and a flag that the PC advance clears. -/
theorem selfJumpStepsToItself : Obligations.SelfJumpStepsToItself := by
  unfold Obligations.SelfJumpStepsToItself
  intro xl h ha hf hw hword hb hj ht
  have hd : decodeWord xl (BitVec.ofNat 32 (h.bytesValue (h.pc - h.params.base).toNat 4)) = .ok (.jal 0 0) := by
    rw [hword]
    cases xl <;> decide
  have htarget : h.pc + immJ xl 0 = h.pc := by
    have h0 : immJ xl 0 = 0#xl.bits := BitVec.eq_of_toInt_eq (by rw [toInt_immJ]; simp)
    rw [h0, BitVec.add_zero]
  have hx0 : h.setX 0 (h.pc + 4) = h := dif_pos rfl
  rw [step_of_decode (fetch_ok ha hf hw) hd]
  show Result.advance (.next ⟨xl, h.jump 0 (h.pc + immJ xl 0)⟩) = _
  rw [Result.advance_next, Hart.pcAdvance_jump, htarget, hx0]
  rw [Hart.clearFlags_of_flags_clear hb hj ht]

end Sys2Proof.Machine
end

section
/-! PROOFS. The integer instructions and the jump that remain (40_integer.md, 41_control.md), and the operations that have
no routine at XLEN = 32. -/

namespace Sys2Proof.Machine

variable {xl : Xlen}

/-! ### Words as numbers -/

/-- A word read as unsigned is the signed one modulo 2^w. -/
theorem toNat_eq_toInt_emod {w : Nat} (v : BitVec w) : (v.toNat : Int) = v.toInt % 2 ^ w := by
  rw [BitVec.toInt_eq_toNat_bmod]
  have hlt : (v.toNat : Int) < 2 ^ w := by exact_mod_cast v.isLt
  have := Int.bmod_emod (x := (v.toNat : Int)) (m := 2 ^ w)
  push_cast at this ⊢
  rw [this, Int.emod_eq_of_lt (by omega) hlt]

/-- Clearing bit 0 rounds down to an even number. -/
theorem toNat_and_not_one (v : Word xl) : (v &&& ~~~(1 : Word xl)).toNat = v.toNat / 2 * 2 := by
  have hshift : v &&& ~~~(1 : Word xl) = (v >>> 1) <<< 1 := by
    apply BitVec.eq_of_getLsbD_eq
    intro j hj
    cases j with
    | zero => simp
    | succ j => simp [hj, Nat.add_comm 1]
  rw [hshift, toNat_shiftLeft_eq_mul, toNat_ushiftRight_eq_div]
  exact Nat.mod_eq_of_lt (by have := v.isLt; omega)

/-! ### The obligations -/

/-- Settles O23: imm_U is its 20 bits times 2^12 as a signed number. -/
theorem upperImmediates : Obligations.UpperImmediates := by
  unfold Obligations.UpperImmediates
  intro xl h rd imm
  refine ⟨Hart.completes_of_exec_eq rfl (toInt_immU imm), Hart.completes_of_exec_eq rfl ?_⟩
  rw [BitVec.toInt_add, toInt_immU]

/-- Settles O26: imm_I, read as unsigned, is its signed value modulo 2^XLEN. -/
theorem setLessThanImmediateUnsigned : Obligations.SetLessThanImmediateUnsigned := by
  unfold Obligations.SetLessThanImmediateUnsigned
  intro xl h rd rs1 imm
  refine ⟨_, rfl, ?_⟩
  rw [← toInt_imm12 (xl := xl) imm, ← toNat_eq_toInt_emod]
  simp only [Nat.cast_lt]
  rw [← boolWord_ult]
  exact h.writesReg_setX rd _

/-- Settles O34: JALR is a jump to the sum modulo 2^XLEN, rounded down to an even number. -/
theorem jumpAndLinkRegister : Obligations.JumpAndLinkRegister := by
  unfold Obligations.JumpAndLinkRegister
  intro xl h rd rs1 imm
  refine ⟨_, _, _, rfl, h.jumpsTo_jump rd _, toNat_link h.pc, ?_⟩
  rw [toNat_and_not_one]
  push_cast
  rw [toNat_eq_toInt_emod, BitVec.toInt_add, toInt_imm12]
  have := Int.bmod_emod (x := (h.getX rs1).toInt + imm.toInt) (m := 2 ^ xl.bits)
  push_cast at this
  rw [this]

/-- Settles O32: `needsRv64` lists the operations whose meaning asks for XLEN = 64, and an amount of 32 or more does not
fit. -/
theorem rv64OperationsStopAtRv32 : Obligations.Rv64OperationsStopAtRv32 := by
  unfold Obligations.Rv64OperationsStopAtRv32
  rintro h i (hi | ⟨rd, rs1, shamt, hlt, hi⟩)
  · cases i with
    | ld | lwu | sd | addiw | slliw | srliw | sraiw | addw | subw | sllw | srlw | sraw => rfl
    | _ => cases hi
  · have hfits : shamtFits .rv32 shamt = false := by
      rw [← Bool.not_eq_true, shamtFits_iff]
      exact not_lt.2 hlt
    have hno : ∀ r, State.existsIf ⟨.rv32, h⟩ (shamtFits .rv32 shamt) i r = .fault (.unsupported (encode i) ⟨.rv32, h⟩) :=
      fun r => by rw [hfits, State.existsIf_false]
    rcases hi with rfl | rfl | rfl <;> exact hno _

end Sys2Proof.Machine
end

section
/-! PROOFS. The loads and stores (42_load_store.md): in range and unwatched they complete, out of range they stop, and
watched they ask the host; what is stored is what is loaded and fetched. -/

namespace Sys2Proof.Machine

variable {xl : Xlen}

/-! ### The one answer of a load or a store where its case is known -/

section
variable {h : Hart xl} {rs1 : Reg} {imm : BitVec 12} {n : Nat}

theorem Hart.load_eq_ok (hf : h.Fits (h.ea rs1 imm) n) (hw : ¬ h.Watches (h.ea rs1 imm) n) (rd : Reg)
    (ext : BitVec (8 * n) → Word xl) : h.load rd rs1 imm n ext =
      .ok (h.setX rd (ext (BitVec.ofNat (8 * n) (h.bytesValue (h.index (h.ea rs1 imm)) n)))) := by
  rcases h.load_cases rd rs1 imm n ext with ⟨_, e⟩ | ⟨hf', _⟩ | ⟨_, hw', _⟩
  · exact e
  · exact absurd hf hf'
  · exact absurd hw' hw

theorem Hart.load_eq_outOfRange (hf : ¬ h.Fits (h.ea rs1 imm) n) (rd : Reg) (ext : BitVec (8 * n) → Word xl) :
    h.load rd rs1 imm n ext = .error (.memOutOfRange (h.ea rs1 imm).toNat n ⟨xl, h⟩) := by
  rcases h.load_cases rd rs1 imm n ext with ⟨hf', _⟩ | ⟨_, e⟩ | ⟨hf', _⟩
  · exact absurd hf' hf
  · exact e
  · exact absurd hf' hf

theorem Hart.store_eq_ok (hf : h.Fits (h.ea rs1 imm) n) (hw : ¬ h.Watches (h.ea rs1 imm) n) (rs2 : Reg) :
    h.store rs2 rs1 imm n = .ok (h.stored (h.ea rs1 imm) n (h.getX rs2)) := by
  rcases h.store_cases rs2 rs1 imm n with ⟨_, e⟩ | ⟨hf', _⟩ | ⟨_, hw', _⟩
  · exact e
  · exact absurd hf hf'
  · exact absurd hw' hw

theorem Hart.store_eq_outOfRange (hf : ¬ h.Fits (h.ea rs1 imm) n) (rs2 : Reg) :
    h.store rs2 rs1 imm n = .error (.memOutOfRange (h.ea rs1 imm).toNat n ⟨xl, h⟩) := by
  rcases h.store_cases rs2 rs1 imm n with ⟨hf', _⟩ | ⟨_, e⟩ | ⟨hf', _⟩
  · exact absurd hf' hf
  · exact e
  · exact absurd hf' hf

end

/-! ### Instructions whose meaning is a load or a store -/

section
variable {h : Hart xl} {i : Instr} {rd rs1 rs2 : Reg} {imm : BitVec 12} {n : Nat}

/-- A load in range and unwatched writes the value of its bytes, extended, and nothing else (rule R231). -/
theorem Hart.completes_of_exec_load {ext : BitVec (8 * n) → Word xl} {value : Word xl → Prop}
    (e : exec i ⟨xl, h⟩ = State.attempt ⟨xl, h⟩ fun h => h.load rd rs1 imm n ext)
    (hf : h.Fits (h.ea rs1 imm) n) (hw : ¬ h.Watches (h.ea rs1 imm) n)
    (hv : value (ext (BitVec.ofNat (8 * n) (h.bytesValue (h.index (h.ea rs1 imm)) n)))) :
    ∃ v t, exec i ⟨xl, h⟩ = .next ⟨xl, t⟩ ∧ h.WritesReg t rd v ∧ value v :=
  Hart.completes_of_exec_eq (by rw [e, State.attempt_mk, Hart.load_eq_ok hf hw]) hv

/-- A store in range and unwatched stores its bytes and changes nothing else (rule R239). -/
theorem Hart.stores_of_exec_store (e : exec i ⟨xl, h⟩ = State.attempt ⟨xl, h⟩ fun h => h.store rs2 rs1 imm n)
    (hf : h.Fits (h.ea rs1 imm) n) (hw : ¬ h.Watches (h.ea rs1 imm) n) :
    ∃ t, exec i ⟨xl, h⟩ = .next ⟨xl, t⟩ ∧ h.Stores t (h.index (h.ea rs1 imm)) n (h.getX rs2) :=
  ⟨_, by rw [e, State.attempt_mk, Hart.store_eq_ok hf hw], h.stores_stored _ n _⟩

/-- A load out of range stops (rule R82). -/
theorem Hart.outOfRange_of_exec_load {ext : BitVec (8 * n) → Word xl}
    (e : exec i ⟨xl, h⟩ = State.attempt ⟨xl, h⟩ fun h => h.load rd rs1 imm n ext)
    (hf : ¬ h.Fits (h.ea rs1 imm) n) :
    exec i ⟨xl, h⟩ = .fault (.memOutOfRange (h.ea rs1 imm).toNat n ⟨xl, h⟩) := by
  rw [e, State.attempt_mk, Hart.load_eq_outOfRange hf]

/-- A store out of range stops (rule R82). -/
theorem Hart.outOfRange_of_exec_store (e : exec i ⟨xl, h⟩ = State.attempt ⟨xl, h⟩ fun h => h.store rs2 rs1 imm n)
    (hf : ¬ h.Fits (h.ea rs1 imm) n) :
    exec i ⟨xl, h⟩ = .fault (.memOutOfRange (h.ea rs1 imm).toNat n ⟨xl, h⟩) := by
  rw [e, State.attempt_mk, Hart.store_eq_outOfRange hf]

end

/-! ### The values loaded -/

/-- Sign-extension of the value of `n` bytes wraps it to their width (rules R12, R231). -/
theorem toInt_sext_bytes {n : Nat} (hn : 8 * n ≤ xl.bits) (k : Nat) :
    (sext xl (BitVec.ofNat (8 * n) k)).toInt = (k : Int).bmod (2 ^ (8 * n)) := by
  rw [sext, BitVec.toInt_signExtend_of_le hn, BitVec.toInt_ofNat']

/-- Zero-extension of the value of `n` bytes keeps it (rules R12, R236). -/
theorem Hart.toNat_zext_bytes (h : Hart xl) {n : Nat} (hn : 8 * n ≤ xl.bits) (idx : Nat) :
    (zext xl (BitVec.ofNat (8 * n) (h.bytesValue idx n))).toNat = h.bytesValue idx n := by
  rw [zext, BitVec.toNat_setWidth_of_le hn, BitVec.toNat_ofNat, Nat.mod_eq_of_lt (h.bytesValue_lt idx n)]

/-- A doubleword at XLEN = 64 is kept whole (rule R235). -/
theorem Hart.toNat_sext_doubleword (h : Hart .rv64) (idx : Nat) :
    (sext .rv64 (BitVec.ofNat (8 * 8) (h.bytesValue idx 8))).toNat = h.bytesValue idx 8 := by
  have hsame : sext .rv64 (BitVec.ofNat (8 * 8) (h.bytesValue idx 8)) = BitVec.ofNat 64 (h.bytesValue idx 8) :=
    BitVec.signExtend_eq _
  rw [hsame, BitVec.toNat_ofNat, Nat.mod_eq_of_lt (h.bytesValue_lt idx 8)]

/-- An access of at most four bytes is no wider than a register (rule R6). -/
theorem bits_ge_bytes {n : Nat} (xl : Xlen) (hn : n ≤ 4) : 8 * n ≤ xl.bits :=
  (by omega : 8 * n ≤ 32).trans (bits_ge xl)

/-! ### What is stored is what is read -/

/-- The bytes just stored read as the low bytes of the value (rules R85, R244). -/
theorem Hart.bytesValue_stored (h : Hart xl) (addr : Word xl) (n : Nat) (v : Word xl) :
    (h.stored addr n v).bytesValue (h.index addr) n = v.toNat % 2 ^ (8 * n) := by
  rw [← Hart.leNat_readBytes]
  show leNat ((h.mem.writeBytes (h.index addr) (leBytes n (v.setWidth (8 * n)).toNat)).readBytes (h.index addr) n) = _
  have hread := h.mem.readBytes_writeBytes (h.index addr) (leBytes n (v.setWidth (8 * n)).toNat)
  rw [leBytes_length] at hread
  rw [hread, leNat_leBytes, BitVec.toNat_setWidth, show (256 : Nat) = 2 ^ 8 from rfl, ← Nat.pow_mul, Nat.mod_mod]

theorem Hart.bytesValue_stored_word (h : Hart xl) (addr v : Word xl) :
    (h.stored addr 4 v).bytesValue (h.index addr) 4 = (lo v).toNat :=
  h.bytesValue_stored addr 4 v

theorem Hart.bytesValue_one (h : Hart xl) (idx : Nat) : h.bytesValue idx 1 = (h.mem.get idx).toNat := by
  simp [Hart.bytesValue]

/-- A word stored at an aligned address in range is the word fetched there (rules R89, R97). -/
theorem Hart.fetch_stored {h : Hart xl} {addr : Word xl} (ha : addr.toNat % 4 = 0) (hf : h.Fits addr 4)
    (hw : ¬ h.Watches addr 4) (v : Word xl) : Hart.fetch { h.stored addr 4 v with pc := addr } = .ok (lo v) := by
  have hvalue : Hart.bytesValue { h.stored addr 4 v with pc := addr } (addr - h.params.base).toNat 4 = (lo v).toNat :=
    h.bytesValue_stored_word addr v
  refine (fetch_ok (h := { h.stored addr 4 v with pc := addr }) ha hf hw).trans ?_
  show Except.ok (BitVec.ofNat 32 (Hart.bytesValue _ (addr - h.params.base).toNat 4)) = _
  rw [hvalue, BitVec.ofNat_toNat, BitVec.setWidth_eq]

/-- SW with no watch installed, when it completes, was in range and stored the low word (rules R239, R242). -/
theorem exec_sw_next {h t : Hart xl} {rs2 rs1 : Reg} {imm : BitVec 12} (hn : h.params.watch = none)
    (e : exec (.sw rs2 rs1 imm) ⟨xl, h⟩ = .next ⟨xl, t⟩) :
    h.Fits (h.ea rs1 imm) 4 ∧ t = h.stored (h.ea rs1 imm) 4 (h.getX rs2) := by
  by_cases hf : h.Fits (h.ea rs1 imm) 4
  · refine ⟨hf, ?_⟩
    change State.attempt ⟨xl, h⟩ (fun h => h.store rs2 rs1 imm 4) = _ at e
    rw [State.attempt_mk, Hart.store_eq_ok hf (Hart.not_watches_of_none hn _ _)] at e
    cases e
    rfl
  · rw [Hart.outOfRange_of_exec_store (n := 4) rfl hf] at e
    cases e

/-- An index that does not wrap: `k` bytes on in the address is `k` on in the array (rule R80). -/
theorem Hart.index_add {h : Hart xl} {addr : Word xl} {k : Nat} (hlt : h.index addr + k < 2 ^ xl.bits) :
    h.index (addr + BitVec.ofNat xl.bits k) = h.index addr + k := by
  unfold Hart.index at *
  rw [show addr + BitVec.ofNat xl.bits k - h.params.base = addr - h.params.base + BitVec.ofNat xl.bits k by
    rw [BitVec.sub_eq_add_neg, BitVec.sub_eq_add_neg]; ac_rfl]
  rw [BitVec.toNat_add, BitVec.toNat_ofNat, Nat.add_mod_mod, Nat.mod_eq_of_lt hlt]

/-! ### The obligations -/

/-- Settles O36: each load is a load of 1, 2, 4 or 8 bytes with sign-extension. -/
theorem signedLoads : Obligations.SignedLoads := by
  unfold Obligations.SignedLoads
  rintro xl h rd rs1 imm ea rfl
  refine ⟨fun hf hw => ?_, fun hf hw => ?_, fun hf hw => ?_, fun hxl hf hw => ?_⟩
  · exact Hart.completes_of_exec_load (n := 1) rfl hf hw (toInt_sext_bytes (bits_ge_bytes xl (by decide)) _)
  · exact Hart.completes_of_exec_load (n := 2) rfl hf hw (toInt_sext_bytes (bits_ge_bytes xl (by decide)) _)
  · exact Hart.completes_of_exec_load (n := 4) rfl hf hw (toInt_sext_bytes (bits_ge_bytes xl (by decide)) _)
  · subst hxl
    exact Hart.completes_of_exec_load (n := 8) rfl hf hw (h.toNat_sext_doubleword _)

/-- Settles O37: each load is a load of 1, 2 or 4 bytes with zero-extension. -/
theorem unsignedLoads : Obligations.UnsignedLoads := by
  unfold Obligations.UnsignedLoads
  rintro xl h rd rs1 imm ea rfl
  refine ⟨fun hf hw => ?_, fun hf hw => ?_, fun hxl hf hw => ?_⟩
  · exact Hart.completes_of_exec_load (n := 1) rfl hf hw (h.toNat_zext_bytes (bits_ge_bytes xl (by decide)) _)
  · exact Hart.completes_of_exec_load (n := 2) rfl hf hw (h.toNat_zext_bytes (bits_ge_bytes xl (by decide)) _)
  · subst hxl
    exact Hart.completes_of_exec_load (n := 4) rfl hf hw (h.toNat_zext_bytes (bits_ge_bytes .rv64 (by decide)) _)

/-- Settles O38: each store is a store of 1, 2, 4 or 8 bytes. -/
theorem storesWriteExactlyTheirBytes : Obligations.StoresWriteExactlyTheirBytes := by
  unfold Obligations.StoresWriteExactlyTheirBytes
  rintro xl h rs2 rs1 imm ea rfl
  refine ⟨fun hf hw => ?_, fun hf hw => ?_, fun hf hw => ?_, fun hxl hf hw => ?_⟩
  · exact Hart.stores_of_exec_store rfl hf hw
  · exact Hart.stores_of_exec_store rfl hf hw
  · exact Hart.stores_of_exec_store rfl hf hw
  · subst hxl
    exact Hart.stores_of_exec_store rfl hf hw

/-- Settles O39: each is a load or a store, which stops at its range check. -/
theorem accessOutsideTheArrayStops : Obligations.AccessOutsideTheArrayStops := by
  unfold Obligations.AccessOutsideTheArrayStops
  rintro xl h r rs1 imm ea rfl
  simp only [List.forall_mem_cons, List.not_mem_nil, false_imp_iff, implies_true, and_true]
  refine ⟨fun hf => ⟨?_, ?_, ?_⟩, fun hf => ⟨?_, ?_, ?_⟩, fun hf => ⟨?_, ?_⟩, fun hxl hf => ?_, fun hxl hf => ⟨?_, ?_⟩⟩
  · exact Hart.outOfRange_of_exec_load (n := 1) rfl hf
  · exact Hart.outOfRange_of_exec_load (n := 1) rfl hf
  · exact Hart.outOfRange_of_exec_store (n := 1) rfl hf
  · exact Hart.outOfRange_of_exec_load (n := 2) rfl hf
  · exact Hart.outOfRange_of_exec_load (n := 2) rfl hf
  · exact Hart.outOfRange_of_exec_store (n := 2) rfl hf
  · exact Hart.outOfRange_of_exec_load (n := 4) rfl hf
  · exact Hart.outOfRange_of_exec_store (n := 4) rfl hf
  · subst hxl
    exact Hart.outOfRange_of_exec_load (n := 4) rfl hf
  · subst hxl
    exact Hart.outOfRange_of_exec_load (n := 8) rfl hf
  · subst hxl
    exact Hart.outOfRange_of_exec_store (n := 8) rfl hf

/-- Settles O40: a watched load or store asks the host (`Hart.loadAsks`, `Hart.storeAsks`), with the values of O36 and
O37. -/
theorem watchedAccessAsksTheHost : Obligations.WatchedAccessAsksTheHost := by
  unfold Obligations.WatchedAccessAsksTheHost
  rintro xl h r rs1 imm ea rfl
  refine ⟨fun hf hw => ⟨?_, ?_, ?_⟩, fun hf hw => ⟨?_, ?_, ?_⟩, fun hf hw => ⟨?_, fun hxl => ?_, ?_⟩,
    fun hxl hf hw => ⟨?_, ?_⟩⟩
  · exact h.loadAsks r rs1 imm 1 _ rfl hf hw (toInt_sext_bytes (bits_ge_bytes xl (by decide)) _)
  · exact h.loadAsks r rs1 imm 1 _ rfl hf hw (h.toNat_zext_bytes (bits_ge_bytes xl (by decide)) _)
  · exact h.storeAsks r rs1 imm 1 rfl hf hw
  · exact h.loadAsks r rs1 imm 2 _ rfl hf hw (toInt_sext_bytes (bits_ge_bytes xl (by decide)) _)
  · exact h.loadAsks r rs1 imm 2 _ rfl hf hw (h.toNat_zext_bytes (bits_ge_bytes xl (by decide)) _)
  · exact h.storeAsks r rs1 imm 2 rfl hf hw
  · exact h.loadAsks r rs1 imm 4 _ rfl hf hw (toInt_sext_bytes (bits_ge_bytes xl (by decide)) _)
  · subst hxl
    exact h.loadAsks r rs1 imm 4 _ rfl hf hw (h.toNat_zext_bytes (bits_ge_bytes .rv64 (by decide)) _)
  · exact h.storeAsks r rs1 imm 4 rfl hf hw
  · subst hxl
    exact h.loadAsks r rs1 imm 8 _ rfl hf hw (h.toNat_sext_doubleword _)
  · subst hxl
    exact h.storeAsks r rs1 imm 8 rfl hf hw

/-- Settles O41: the store leaves the registers, so LW has the store's own address, where the bytes read as the low word;
and LBU reads one of the stored bytes. -/
theorem storeThenLoadRoundTrip : Obligations.StoreThenLoadRoundTrip := by
  unfold Obligations.StoreThenLoadRoundTrip
  intro xl h t rs2 rs1 rd imm hn e
  obtain ⟨hf, rfl⟩ := exec_sw_next hn e
  have hunwatched := Hart.not_watches_of_none (h := h.stored (h.ea rs1 imm) 4 (h.getX rs2)) hn
  refine ⟨?_, fun k rb immb hk hea hwrap => ?_⟩
  · refine Hart.completes_of_exec_load (n := 4) rfl hf (hunwatched _ _) ?_
    refine (toInt_sext_bytes (bits_ge_bytes xl (by decide)) _).trans ?_
    have hvalue := h.bytesValue_stored_word (h.ea rs1 imm) (h.getX rs2)
    rw [← toInt_lo, BitVec.toInt_eq_toNat_bmod (lo _), ← hvalue]
    rfl
  · have hindex : h.index (h.ea rb immb) = h.index (h.ea rs1 imm) + k := by
      rw [show h.ea rb immb = h.ea rs1 imm + BitVec.ofNat xl.bits k from hea]
      exact Hart.index_add (by have : h.index (h.ea rs1 imm) + 4 ≤ 2 ^ xl.bits := hwrap; omega)
    have hfit : h.index (h.ea rs1 imm) + 4 ≤ h.params.memCapacity := hf
    have hfitb : h.index (h.ea rb immb) + 1 ≤ h.params.memCapacity := by omega
    refine Hart.completes_of_exec_load (n := 1) rfl hfitb (hunwatched _ _) ?_
    refine (Hart.toNat_zext_bytes _ (bits_ge_bytes xl (by decide)) _).trans ?_
    rw [Hart.bytesValue_one]
    show BitVec.toNat ((h.stored (h.ea rs1 imm) 4 (h.getX rs2)).mem.get (h.index (h.ea rb immb))) = _
    rw [hindex, (h.stores_stored _ 4 _).stored k hk, BitVec.extractLsb'_toNat, Nat.shiftRight_eq_div_pow]

/-- Settles O42: the four bytes stored at pc + 4 are the word that the next step fetches. -/
theorem storeIsSeenByTheNextFetch : Obligations.StoreIsSeenByTheNextFetch := by
  unfold Obligations.StoreIsSeenByTheNextFetch
  intro xl h t rs2 rs1 imm i hn ha hea e hd
  obtain ⟨hf, rfl⟩ := exec_sw_next hn e
  have hea' : h.ea rs1 imm = h.pc + 4 := hea
  rw [hea'] at hf ⊢
  have halign : (h.pc + 4).toNat % 4 = 0 := by
    have h4 : 4 ∣ 2 ^ xl.bits := by cases xl <;> decide
    rw [toNat_link, Nat.mod_mod_of_dvd _ h4]
    omega
  exact step_of_decode (Hart.fetch_stored halign hf (Hart.not_watches_of_none hn _ _) _) hd

end Sys2Proof.Machine
end

section
/-! PROOFS. Noninterference of the privilege level (rules R38, R325): with no watch installed, an instruction outside SYSTEM
does the same at every level. -/

namespace Sys2Proof.Machine

variable {xl : Xlen}

/-- The hart at another level, all else as it was. -/
def Hart.atLevel (h : Hart xl) (p : Priv) : Hart xl := { h with priv := p }

/-! ### The operations outside SYSTEM do not read or write the level -/

theorem Hart.setX_atLevel (h : Hart xl) (p : Priv) (rd : Reg) (v : Word xl) :
    (h.atLevel p).setX rd v = (h.setX rd v).atLevel p := by
  unfold Hart.setX
  split <;> rfl

theorem Hart.jump_atLevel (h : Hart xl) (p : Priv) (rd : Reg) (target : Word xl) :
    (h.atLevel p).jump rd target = (h.jump rd target).atLevel p := by
  unfold Hart.jump
  rw [Hart.setX_atLevel]
  rfl

theorem Hart.branch_atLevel (h : Hart xl) (p : Priv) (cond : Bool) (offset : BitVec 13) :
    (h.atLevel p).branch cond offset = (h.branch cond offset).atLevel p := by
  cases cond <;> rfl

/-! ### The same outcome at another level, for each shape of meaning -/

/-- `r'` is the outcome `r` of a run from `h`, at level `p`: the same next state but for the level, or the same stop. -/
def SameAtLevel (h : Hart xl) (p : Priv) (r r' : Result) : Prop :=
  (∀ t : Hart xl, r = .next ⟨xl, t⟩ → r' = .next ⟨xl, t.atLevel p⟩) ∧
  (∀ f, r = .fault f → r' = .fault (f.inState ⟨xl, h.atLevel p⟩))

theorem sameAtLevel_next {h t t' : Hart xl} {p : Priv} (ht : t' = t.atLevel p) :
    SameAtLevel h p (.next ⟨xl, t⟩) (.next ⟨xl, t'⟩) := by
  subst ht
  refine ⟨fun u e => ?_, fun f e => ?_⟩ <;> cases e
  rfl

theorem sameAtLevel_fault (h : Hart xl) (p : Priv) (f : Fault) :
    SameAtLevel h p (.fault f) (.fault (f.inState ⟨xl, h.atLevel p⟩)) := by
  refine ⟨fun u e => ?_, fun g e => ?_⟩ <;> cases e
  rfl

theorem sameAtLevel_existsIf {h : Hart xl} {p : Priv} {r r' : Result} (c : Bool) (i : Instr)
    (hr : SameAtLevel h p r r') :
    SameAtLevel h p (State.existsIf ⟨xl, h⟩ c i r) (State.existsIf ⟨xl, h.atLevel p⟩ c i r') := by
  cases c with
  | true => exact hr
  | false => exact sameAtLevel_fault h p (.unsupported (encode i) ⟨xl, h⟩)

theorem sameAtLevel_load {h : Hart xl} (p : Priv) (hn : h.params.watch = none) (rd rs1 : Reg) (imm : BitVec 12)
    (n : Nat) (ext : BitVec (8 * n) → Word xl) :
    SameAtLevel h p (State.attempt ⟨xl, h⟩ fun h => h.load rd rs1 imm n ext)
      (State.attempt ⟨xl, h.atLevel p⟩ fun h => h.load rd rs1 imm n ext) := by
  rw [State.attempt_mk, State.attempt_mk]
  by_cases hf : h.Fits (h.ea rs1 imm) n
  · rw [Hart.load_eq_ok hf (Hart.not_watches_of_none hn _ _),
      Hart.load_eq_ok (h := h.atLevel p) hf (Hart.not_watches_of_none hn _ _)]
    exact sameAtLevel_next (h.setX_atLevel p rd _)
  · rw [Hart.load_eq_outOfRange hf, Hart.load_eq_outOfRange (h := h.atLevel p) hf]
    exact sameAtLevel_fault h p (.memOutOfRange (h.ea rs1 imm).toNat n ⟨xl, h⟩)

theorem sameAtLevel_store {h : Hart xl} (p : Priv) (hn : h.params.watch = none) (rs2 rs1 : Reg) (imm : BitVec 12)
    (n : Nat) :
    SameAtLevel h p (State.attempt ⟨xl, h⟩ fun h => h.store rs2 rs1 imm n)
      (State.attempt ⟨xl, h.atLevel p⟩ fun h => h.store rs2 rs1 imm n) := by
  rw [State.attempt_mk, State.attempt_mk]
  by_cases hf : h.Fits (h.ea rs1 imm) n
  · rw [Hart.store_eq_ok hf (Hart.not_watches_of_none hn _ _),
      Hart.store_eq_ok (h := h.atLevel p) hf (Hart.not_watches_of_none hn _ _)]
    exact sameAtLevel_next rfl
  · rw [Hart.store_eq_outOfRange hf, Hart.store_eq_outOfRange (h := h.atLevel p) hf]
    exact sameAtLevel_fault h p (.memOutOfRange (h.ea rs1 imm).toNat n ⟨xl, h⟩)

/-! ### Every instruction outside SYSTEM -/

theorem sameAtLevel_exec {h : Hart xl} (p : Priv) {i : Instr} (hi : i.isSystem = false) (hn : h.params.watch = none) :
    SameAtLevel h p (exec i ⟨xl, h⟩) (exec i ⟨xl, h.atLevel p⟩) := by
  cases i with
  | lui rd | auipc rd | addi rd | slti rd | sltiu rd | xori rd | ori rd | andi rd | add rd | sub rd | sll rd | slt rd
  | sltu rd | xor rd | srl rd | sra rd | or rd | and rd => exact sameAtLevel_next (h.setX_atLevel p rd _)
  | slli rd | srli rd | srai rd | addiw rd | slliw rd | srliw rd | sraiw rd | addw rd | subw rd | sllw rd | srlw rd
  | sraw rd => exact sameAtLevel_existsIf _ _ (sameAtLevel_next (h.setX_atLevel p rd _))
  | jal rd | jalr rd => exact sameAtLevel_next (h.jump_atLevel p rd _)
  | beq _ _ offset | bne _ _ offset | blt _ _ offset | bge _ _ offset | bltu _ _ offset | bgeu _ _ offset =>
    exact sameAtLevel_next (h.branch_atLevel p _ offset)
  | lb rd rs1 imm | lbu rd rs1 imm => exact sameAtLevel_load p hn rd rs1 imm 1 _
  | lh rd rs1 imm | lhu rd rs1 imm => exact sameAtLevel_load p hn rd rs1 imm 2 _
  | lw rd rs1 imm => exact sameAtLevel_load p hn rd rs1 imm 4 _
  | ld rd rs1 imm => exact sameAtLevel_existsIf _ _ (sameAtLevel_load p hn rd rs1 imm 8 _)
  | lwu rd rs1 imm => exact sameAtLevel_existsIf _ _ (sameAtLevel_load p hn rd rs1 imm 4 _)
  | sb rs2 rs1 imm => exact sameAtLevel_store p hn rs2 rs1 imm 1
  | sh rs2 rs1 imm => exact sameAtLevel_store p hn rs2 rs1 imm 2
  | sw rs2 rs1 imm => exact sameAtLevel_store p hn rs2 rs1 imm 4
  | sd rs2 rs1 imm => exact sameAtLevel_existsIf _ _ (sameAtLevel_store p hn rs2 rs1 imm 8)
  | fence | fenceI => exact sameAtLevel_next rfl
  | csrrw | csrrs | csrrc | csrrwi | csrrsi | csrrci | ecall | ebreak | sret | mret => cases hi

/-! ### The obligation -/

/-- Settles O19: shape by shape, the meanings outside SYSTEM neither read nor write the level. -/
theorem privilegeGatesOnlySystemInstructions : Obligations.PrivilegeGatesOnlySystemInstructions := by
  unfold Obligations.PrivilegeGatesOnlySystemInstructions
  intro xl h p i hi hn
  exact sameAtLevel_exec p hi hn

end Sys2Proof.Machine
end

section
/-! PROOFS. The system instructions (44_system.md, 60_exceptions.md): CSR access, trap entry and the returns. -/

namespace Sys2Proof.Machine

variable {xl : Xlen}

/-! ### A CSR instruction whose checks pass or fail (rules R260, R300 to R302) -/

section
variable {h : Hart xl} {i : Instr} {rd : Reg} {a : CsrAddr} {we : Bool} {new : Word xl → Word xl}

/-- A permitted write of a CSR that is not read-only writes the cell and rd, and nothing else. -/
theorem Hart.writesCsr_of_exec_csr (e : exec i ⟨xl, h⟩ = State.apply ⟨xl, h⟩ fun h => h.csrAccess rd a we new)
    (ha : CsrAccessible h.priv a) (hro : ¬ CsrReadOnly a) (hwe : we = true) :
    ∃ t, exec i ⟨xl, h⟩ = .next ⟨xl, t⟩ ∧ h.WritesCsr t rd (h.csr a) a (new (h.csr a)) := by
  refine ⟨h.csrAccess rd a we new, e, ?_⟩
  rcases h.csrAccess_cases rd a we new with ⟨hno | hno, _⟩ | ⟨_, _, _, ec⟩ | ⟨_, hwe', _⟩
  · exact absurd ha hno
  · exact absurd hno.2 hro
  · rw [ec]
    exact h.writesCsr_setX_setCsr rd _ a _
  · cases hwe.symm.trans hwe'

/-- A permitted access with its write suppressed writes rd, and nothing else. -/
theorem Hart.writesReg_of_exec_csr (e : exec i ⟨xl, h⟩ = State.apply ⟨xl, h⟩ fun h => h.csrAccess rd a we new)
    (ha : CsrAccessible h.priv a) (hwe : we = false) :
    ∃ t, exec i ⟨xl, h⟩ = .next ⟨xl, t⟩ ∧ h.WritesReg t rd (h.csr a) := by
  refine ⟨h.csrAccess rd a we new, e, ?_⟩
  rcases h.csrAccess_cases rd a we new with ⟨hno | hno, _⟩ | ⟨_, hwe', _⟩ | ⟨_, _, ec⟩
  · exact absurd ha hno
  · cases hwe.symm.trans hno.1
  · cases hwe.symm.trans hwe'
  · rw [ec]
    exact h.writesReg_setX rd _

/-- An access with a failed check is trap entry with code 2, and nothing else. -/
theorem Hart.takesTrap_of_exec_csr (e : exec i ⟨xl, h⟩ = State.apply ⟨xl, h⟩ fun h => h.csrAccess rd a we new)
    (hno : ¬ CsrAccessible h.priv a ∨ we = true ∧ CsrReadOnly a) :
    ∃ t, exec i ⟨xl, h⟩ = .next ⟨xl, t⟩ ∧ h.TakesTrap t 2 := by
  refine ⟨h.csrAccess rd a we new, e, ?_⟩
  rcases h.csrAccess_cases rd a we new with ⟨_, ec⟩ | ⟨ha, _, hro, _⟩ | ⟨ha, hwe, _⟩
  · rw [ec]
    exact h.takesTrap_trap (by decide)
  · rcases hno with hno | hno
    · exact absurd ha hno
    · exact absurd hno.2 hro
  · rcases hno with hno | hno
    · exact absurd ha hno
    · cases hwe.symm.trans hno.1

end

/-- The write of a set or clear form is enabled by a nonzero source field (rule R260). -/
theorem writeEnabled_of_ne_zero {r : BitVec 5} (hr : r ≠ 0) : (r != 0) = true := bne_iff_ne.2 hr

/-- zimm is zero-extended (rule R124). -/
@[simp] theorem getLsbD_zimmWord (zimm : BitVec 5) (j : Nat) : (zimmWord xl zimm).getLsbD j = zimm.getLsbD j := by
  rw [zimmWord, zext, BitVec.getLsbD_setWidth]
  by_cases hj : j < xl.bits
  · simp [hj]
  · have := bits_ge xl
    simp [hj, BitVec.getLsbD_of_ge zimm j (by omega)]

theorem zimmWord_eq_ofNat (zimm : BitVec 5) : zimmWord xl zimm = BitVec.ofNat xl.bits zimm.toNat :=
  (BitVec.ofNat_toNat _ _).symm

/-- A bit cleared by AND NOT; above the width both sides are 0. -/
theorem getLsbD_and_not {w : Nat} (a b : BitVec w) (j : Nat) :
    (a &&& ~~~b).getLsbD j = (a.getLsbD j && !b.getLsbD j) := by
  rw [BitVec.getLsbD_and, BitVec.getLsbD_not]
  by_cases hj : j < w
  · simp [hj]
  · simp [BitVec.getLsbD_of_ge a j (by omega)]

/-! ### The returns where their case is known -/

theorem exec_mret (h : Hart xl) :
    exec .mret ⟨xl, h⟩ = State.attempt ⟨xl, h⟩ fun h => h.returnMachine (encode .mret) := rfl

/-- MRET below Machine is trap entry with code 2 (rule R276). -/
theorem exec_mret_below_machine {h : Hart xl} (hp : h.priv ≠ .machine) :
    exec .mret ⟨xl, h⟩ = .next ⟨xl, h.trap 2⟩ := by
  have e : h.returnMachine (encode .mret) = .ok (h.trap 2) := if_pos hp
  rw [exec_mret, State.attempt_mk, e]

theorem Priv.bits_toNat_ne_two (p : Priv) : p.bits.toNat ≠ 2 := by cases p <;> decide

theorem Priv.eq_of_bits_toNat_eq {p q : Priv} (h : p.bits.toNat = q.bits.toNat) : p = q := by
  revert h
  cases p <;> cases q <;> decide

/-- MRET in Machine mode with MPP the level `p` returns to it (rule R276). -/
theorem exec_mret_returns {h : Hart xl} {p : Priv} (hp : h.priv = .machine)
    (hmpp : p.bits.toNat = (h.csr 0x300#12).toNat / 2 ^ 11 % 4) :
    ∃ t, exec .mret ⟨xl, h⟩ = .next ⟨xl, t⟩ ∧ h.ReturnsFromMachine t p := by
  rcases h.returnMachine_cases (encode .mret) with ⟨hne, _⟩ | ⟨_, h2, _⟩ | ⟨_, q, t, hq, e, r⟩
  · exact absurd hp hne
  · exact absurd (hmpp.trans h2) (Priv.bits_toNat_ne_two p)
  · obtain rfl := Priv.eq_of_bits_toNat_eq (hmpp.trans hq.symm)
    exact ⟨t, (by rw [exec_mret, State.attempt_mk, e]), r⟩

/-- MPP after trap entry is the level left (rule R310). -/
theorem Mstatus.mpp_pushTrap {w : Nat} (hw : 32 ≤ w) (v : BitVec w) (p : Priv) :
    Mstatus.mpp (Mstatus.pushTrap v p) = p.bits := by
  apply BitVec.eq_of_getLsbD_eq
  intro j hj
  rw [Mstatus.mpp, BitVec.getLsbD_extractLsb', Mstatus.getLsbD_pushTrap hw]
  interval_cases j <;> simp

theorem Hart.mpp_trap (h : Hart xl) (code : Nat) :
    h.priv.bits.toNat = ((h.trap code).csr 0x300#12).toNat / 2 ^ 11 % 4 := by
  have hstatus : (h.trap code).csr 0x300#12 = Mstatus.pushTrap (h.csr Csr.mstatus) h.priv :=
    (h.csr_trap code _).trans (if_pos rfl)
  rw [hstatus, ← Mstatus.mpp_pushTrap (bits_ge xl) (h.csr Csr.mstatus) h.priv, Mstatus.mpp, BitVec.extractLsb'_toNat,
    Nat.shiftRight_eq_div_pow]

/-! ### The obligations -/

/-- Settles O44: both forms always enable their write. -/
theorem csrSwap : Obligations.CsrSwap := by
  unfold Obligations.CsrSwap
  intro xl h rd a r ha hro
  rw [← zimmWord_eq_ofNat]
  exact ⟨Hart.writesCsr_of_exec_csr (new := fun _ => h.getX r) rfl ha hro rfl,
    Hart.writesCsr_of_exec_csr (new := fun _ => zimmWord xl r) rfl ha hro rfl⟩

/-- Settles O45: the nonzero field enables the write, of the OR or of the AND NOT. -/
theorem csrSetAndClear : Obligations.CsrSetAndClear := by
  unfold Obligations.CsrSetAndClear
  intro xl h rd a r ha hro hr
  have hwe := writeEnabled_of_ne_zero hr
  refine ⟨?_, ?_, ?_, ?_⟩
  · obtain ⟨t, e, hw⟩ := Hart.writesCsr_of_exec_csr (i := .csrrs rd a r) rfl ha hro hwe
    exact ⟨_, t, e, hw, fun j => BitVec.getLsbD_or⟩
  · obtain ⟨t, e, hw⟩ := Hart.writesCsr_of_exec_csr (i := .csrrc rd a r) rfl ha hro hwe
    exact ⟨_, t, e, hw, getLsbD_and_not _ _⟩
  · obtain ⟨t, e, hw⟩ := Hart.writesCsr_of_exec_csr (i := .csrrsi rd a r) rfl ha hro hwe
    exact ⟨_, t, e, hw, fun j => by rw [BitVec.getLsbD_or, getLsbD_zimmWord]⟩
  · obtain ⟨t, e, hw⟩ := Hart.writesCsr_of_exec_csr (i := .csrrci rd a r) rfl ha hro hwe
    exact ⟨_, t, e, hw, fun j => by rw [getLsbD_and_not, getLsbD_zimmWord]⟩

/-- Settles O46: the zero field suppresses the write. -/
theorem csrPureRead : Obligations.CsrPureRead := by
  unfold Obligations.CsrPureRead
  intro xl h rd a ha
  simp only [List.forall_mem_cons, List.not_mem_nil, false_imp_iff, implies_true, and_true]
  exact ⟨Hart.writesReg_of_exec_csr rfl ha rfl, Hart.writesReg_of_exec_csr rfl ha rfl,
    Hart.writesReg_of_exec_csr rfl ha rfl, Hart.writesReg_of_exec_csr rfl ha rfl⟩

/-- Settles O47: the read check fails, or the write is enabled and its check fails. -/
theorem illegalCsrAccessTraps : Obligations.IllegalCsrAccessTraps := by
  unfold Obligations.IllegalCsrAccessTraps
  intro xl h rd a r
  simp only [List.forall_mem_cons, List.not_mem_nil, false_imp_iff, implies_true, and_true]
  refine ⟨fun ha => ?_, fun hro => ?_, fun hro hr => ?_⟩
  · refine ⟨?_, ?_, ?_, ?_, ?_, ?_⟩ <;> exact Hart.takesTrap_of_exec_csr rfl (.inl ha)
  · exact ⟨Hart.takesTrap_of_exec_csr rfl (.inr ⟨rfl, hro⟩), Hart.takesTrap_of_exec_csr rfl (.inr ⟨rfl, hro⟩)⟩
  · have hwe := writeEnabled_of_ne_zero hr
    refine ⟨?_, ?_, ?_, ?_⟩ <;> exact Hart.takesTrap_of_exec_csr rfl (.inr ⟨hwe, hro⟩)

/-- Settles O48: ECALL is trap entry with code 8 plus the level's ordinal. -/
theorem environmentCallTraps : Obligations.EnvironmentCallTraps := by
  unfold Obligations.EnvironmentCallTraps
  intro xl h
  refine ⟨h.trap (Cause.environmentCall h.priv), rfl, ?_⟩
  cases hp : h.priv <;> exact h.takesTrap_trap (by decide)

/-- Settles O49: the stop is EBREAK's whole meaning. -/
theorem ebreakStops : Obligations.EbreakStops := by
  unfold Obligations.EbreakStops
  exact fun s => rfl

/-- Settles O50: MRET's cases in Machine mode are told apart by MPP. -/
theorem machineReturn : Obligations.MachineReturn := by
  unfold Obligations.MachineReturn
  intro xl h p hp hmpp
  exact exec_mret_returns hp hmpp

/-- Settles O51: no level has the ordinal 2. -/
theorem machineReturnToReservedLevelStops : Obligations.MachineReturnToReservedLevelStops := by
  unfold Obligations.MachineReturnToReservedLevelStops
  intro xl h hp h2
  rcases h.returnMachine_cases (encode .mret) with ⟨hne, _⟩ | ⟨_, _, e⟩ | ⟨_, q, t, hq, _⟩
  · exact absurd hp hne
  · exact (by rw [exec_mret, State.attempt_mk, e]; rfl)
  · exact absurd (hq.trans h2) (Priv.bits_toNat_ne_two q)

/-- Settles O52: above User, SRET is the return. -/
theorem supervisorReturn : Obligations.SupervisorReturn := by
  unfold Obligations.SupervisorReturn
  intro xl h hp
  rcases h.returnSupervisor_cases with ⟨hu, _⟩ | ⟨_, r⟩
  · exact absurd hu hp
  · exact ⟨_, rfl, r⟩

/-- Settles O53: at those levels each return is trap entry with code 2. -/
theorem illegalReturnTraps : Obligations.IllegalReturnTraps := by
  unfold Obligations.IllegalReturnTraps
  intro xl h
  refine ⟨fun hp => ⟨_, exec_mret_below_machine hp, h.takesTrap_trap (by decide)⟩, fun hp => ?_⟩
  rcases h.returnSupervisor_cases with ⟨_, e⟩ | ⟨hne, _⟩
  · exact ⟨h.returnSupervisor, rfl, by rw [e]; exact h.takesTrap_trap (by decide)⟩
  · exact absurd hp hne

/-- Settles O54: trap entry puts the level in MPP and pc in mepc, from where MRET takes them. -/
theorem returnUndoesEnvironmentCall : Obligations.ReturnUndoesEnvironmentCall := by
  unfold Obligations.ReturnUndoesEnvironmentCall
  intro xl h t e
  obtain rfl : h.trap (Cause.environmentCall h.priv) = t := by cases e; rfl
  have htrap := h.takesTrap_trap (code := Cause.environmentCall h.priv) (by cases h.priv <;> decide)
  have hmpp := Hart.mpp_trap h (Cause.environmentCall h.priv)
  obtain ⟨u, eu, hret⟩ := exec_mret_returns rfl hmpp
  refine ⟨u, eu, hret.pc.trans htrap.mepc, hret.priv, fun r => (hret.regs r).trans (htrap.regs r),
    fun idx => (hret.bytes idx).trans (htrap.bytes idx), fun j => ?_⟩
  rw [hret.mstatus, htrap.mstatus, htrap.mstatus]
  by_cases h3 : j = 3
  · simp [h3]
  by_cases h7 : j = 7
  · simp [h7]
  by_cases hcleared : j = 11 ∨ j = 12 ∨ j = 17
  · simp [h3, h7, hcleared]
  obtain ⟨h11, h12, h17⟩ : j ≠ 11 ∧ j ≠ 12 ∧ j ≠ 17 := by omega
  simp [h3, h7, h11, h12, h17]

end Sys2Proof.Machine
end
